-- ==== Sys2Proof/Word.lean ====
section
/-! DEFINITION. The two word types of the decoder: `u8` and `u16` of rule R14. -/

namespace Sys2Proof

/-- `u8`: an unsigned 8-bit value (R14). Bit 7 is the most significant (R13). -/
abbrev Byte := BitVec 8

/-- `u16`: an unsigned 16-bit value (R14). -/
abbrev Word := BitVec 16

end Sys2Proof
end

