-- ==== Sys2Proof/Config.lean ====
section
/-! DEFINITION. The parameters of rules R10 to R12 and the derived constants of rule R9. The hardware has no free value:
"No value of this hardware is a draw" (R18). `OFFW` (R10) has no constant here: the position counter is an unbounded natural
number, the reading R10 recommends (log 1). -/

namespace Sys2Proof

/-- Parameter `ON_UNSUPPORTED` (R11): what the CALLER does after an `UnsupportedEncoding`. The decoder behaves the same under
both values. -/
inductive OnUnsupported where
  | abort | resync
  deriving DecidableEq, Repr

/-- Parameter `DISP8_EXTEND` (R12): how the single displacement byte of a mod=01 operand is widened to 16 bits. -/
inductive Disp8Extend where
  | zero | sign
  deriving DecidableEq, Repr

/-- The identity string of this hardware (R2, decision D1). -/
def Config.identity : String := "i8086-subset/perfware_homeworks-final-variant"

/-- The reference caller's policy (R11): "The reference value is `abort`". -/
def Config.onUnsupported : OnUnsupported := .abort

/-- "Parameter `DISP8_EXTEND`, fixed at `zero` for this hardware" (R12; log 8). -/
def Config.disp8Extend : Disp8Extend := .zero

/-- The longest instruction has 6 bytes (R9, R80). -/
abbrev Config.longest : Nat := 6

end Sys2Proof
end

