-- ==== Sys2Proof/Fields.lean ====
section
/-! DEFINITION. The types of the fields an encoded instruction carries, kept as the encoding has them (raw displacement and
immediate bytes; the values formed from them are in Machine/Operands.lean). One-bit fields (`d`, `w`, `s`) are `Bool`,
`true` for 1. -/

namespace Sys2Proof

/-- The 20 jump and loop instructions, in the order of rule R160. -/
inductive JumpName where
  | je | jl | jle | jb | jbe | jp | jo | js | jne | jnl
  | jnle | jnb | jnbe | jnp | jno | jns | loop | loopz | loopnz | jcxz
  deriving DecidableEq, Repr

/-- The three operations a 3-bit selector can name (R90, R190). -/
inductive ArithOp where
  | add | sub | cmp
  deriving DecidableEq, Repr

/-- What follows a ModRM byte's `mod` and `rm` fields, one constructor per row of rule R150, with the displacement bytes as
they stand in the stream. -/
inductive RmForm where
  /-- mod 11: a register (R142). -/
  | register (rm : BitVec 3)
  /-- mod 00, rm 110: a 16-bit direct address (R143). -/
  | direct (addr : Word)
  /-- mod 00, rm not 110: a base expression alone (R144). -/
  | indirect (rm : BitVec 3)
  /-- mod 01: a base expression and one displacement byte (R146). -/
  | indirect8 (rm : BitVec 3) (disp : Byte)
  /-- mod 10: a base expression and two displacement bytes (R147). -/
  | indirect16 (rm : BitVec 3) (disp : Word)
  deriving DecidableEq, Repr

/-- The immediate bytes of an instruction: one byte, or two bytes read low byte first (R102 to R104). -/
inductive Imm where
  | byte (b : Byte)
  | word (v : Word)
  deriving DecidableEq, Repr

end Sys2Proof
end

