-- ==== Sys2Proof/Syntax.lean ====
section
/-! DEFINITION. The instructions, one constructor per row of spec/opcode_table.json (R109): 31 decodable rows and the four
failing rows, which the decoder consumes and answers with `UnsupportedEncoding`. -/

namespace Sys2Proof

/-- An encoded instruction. `off` is the offset byte of a jump (R101); `d`, `w`, `s` are the opcode bits of R17; `reg` and `idx`
register indexes; `rm` the ModRM operand with its displacement bytes; `imm` the immediate bytes. -/
inductive Instr where
  -- F-J (R162 to R181)
  | je (off : Byte)
  | jl (off : Byte)
  | jle (off : Byte)
  | jb (off : Byte)
  | jbe (off : Byte)
  | jp (off : Byte)
  | jo (off : Byte)
  | js (off : Byte)
  | jne (off : Byte)
  | jnl (off : Byte)
  | jnle (off : Byte)
  | jnb (off : Byte)
  | jnbe (off : Byte)
  | jnp (off : Byte)
  | jno (off : Byte)
  | jns (off : Byte)
  | loop (off : Byte)
  | loopz (off : Byte)
  | loopnz (off : Byte)
  | jcxz (off : Byte)
  -- F-RM, add/sub/cmp (R194 to R196)
  | addRmReg (d w : Bool) (reg : BitVec 3) (rm : RmForm)
  | subRmReg (d w : Bool) (reg : BitVec 3) (rm : RmForm)
  | cmpRmReg (d w : Bool) (reg : BitVec 3) (rm : RmForm)
  -- F-IRM (R197 to R199)
  | addImmRm (s w : Bool) (rm : RmForm) (imm : Imm)
  | subImmRm (s w : Bool) (rm : RmForm) (imm : Imm)
  | cmpImmRm (s w : Bool) (rm : RmForm) (imm : Imm)
  -- F-IA (R200 to R202)
  | addImmAcc (w : Bool) (imm : Imm)
  | subImmAcc (w : Bool) (imm : Imm)
  | cmpImmAcc (w : Bool) (imm : Imm)
  -- mov (R210, R211)
  | movRmReg (d w : Bool) (reg : BitVec 3) (rm : RmForm)
  | movImmReg (w : Bool) (idx : BitVec 3) (imm : Imm)
  -- recognised, unimplemented mov forms: one byte is consumed (R212, R213)
  | movImmRmUnimplemented (w : Bool)
  | movAccMemUnimplemented (d w : Bool)
  -- F-IRM with a selector outside the set: two bytes are consumed (R225)
  | immRmBadSelector (s w : Bool) (mod : BitVec 2) (sel rm : BitVec 3)
  -- every other opcode byte: one byte is consumed (R220)
  | unsupportedOpcode (op : Byte)
  deriving DecidableEq, Repr

end Sys2Proof
end

