-- ==== Sys2Proof/WellFormed.lean ====
section
/-! DEFINITION. Which terms of `Instr` are instructions: an operand form that exists, an immediate of the width the opcode
bits give, a selector that fails where the row is the failing one, an opcode byte that no other row matches. -/

namespace Sys2Proof

/-- Under mod 00 the value rm 110 is the direct address, so it is no base expression there (R143, R144). -/
def RmForm.wf : RmForm → Bool
  | .indirect rm => rm != 6
  | _ => true

/-- The immediate has two bytes exactly when `wide` (R102 to R104). -/
def Imm.fits (wide : Bool) : Imm → Bool
  | .byte _ => !wide
  | .word _ => wide

/-- An F-IRM immediate has two bytes exactly when `s = 0` and `w = 1` (R102). -/
def wideImmRm (s w : Bool) : Bool := !s && w

/-- The selectors that name no operation: 001, 010, 011, 100, 110 (R90, R225). -/
def badSelector (sel : BitVec 3) : Bool := sel ∈ [1, 2, 3, 4, 6]

/-- The 188 opcode bytes of the catch-all row: the failing ranges of rule R221, less 0xA0 to 0xA3 and 0xC6, 0xC7, which have
rows of their own (R109). -/
def otherOpcode (op : Byte) : Bool :=
  let n := op.toNat
  (0x06 ≤ n && n ≤ 0x27) || (0x2E ≤ n && n ≤ 0x37) || (0x3E ≤ n && n ≤ 0x6F) || (0x84 ≤ n && n ≤ 0x87) ||
  (0x8C ≤ n && n ≤ 0x9F) || (0xA4 ≤ n && n ≤ 0xAF) || (0xC0 ≤ n && n ≤ 0xC5) || (0xC8 ≤ n && n ≤ 0xDF) || 0xE4 ≤ n

/-- Well-formed instructions: those that some byte string encodes. -/
def Instr.wf : Instr → Bool
  | .je _ | .jl _ | .jle _ | .jb _ | .jbe _ | .jp _ | .jo _ | .js _ | .jne _ | .jnl _ => true
  | .jnle _ | .jnb _ | .jnbe _ | .jnp _ | .jno _ | .jns _ | .loop _ | .loopz _ | .loopnz _ | .jcxz _ => true
  | .addRmReg _ _ _ rm | .subRmReg _ _ _ rm | .cmpRmReg _ _ _ rm | .movRmReg _ _ _ rm => rm.wf
  | .addImmRm s w rm imm | .subImmRm s w rm imm | .cmpImmRm s w rm imm => rm.wf && imm.fits (wideImmRm s w)
  | .addImmAcc w imm | .subImmAcc w imm | .cmpImmAcc w imm | .movImmReg w _ imm => imm.fits w
  | .movImmRmUnimplemented _ | .movAccMemUnimplemented _ _ => true
  | .immRmBadSelector _ _ _ sel _ => badSelector sel
  | .unsupportedOpcode op => otherOpcode op

end Sys2Proof
end

