-- ==== Sys2Proof/Decode.lean ====
section
/-! DEFINITION. The decoder from bytes to `Instr`, total on any bytes, and the encoder. The opcode map is the table of rule
R92 as rows of mask and pattern; rules R123 and R92 say that the bit walk of R123 equals it (the walk itself is in
Machine/DecodeNext.lean). -/

namespace Sys2Proof

/-! ## Bit fields and byte order (R13, R60, R82) -/

/-- `b[n]` as a Boolean (R13). -/
def bitOf (b : Byte) (n : Nat) : Bool := b.getLsbD n

/-- `mod = b[7:6]` of a ModRM byte (R82). -/
def modOf (b : Byte) : BitVec 2 := b.extractLsb' 6 2

/-- `reg = b[5:3]` of a ModRM byte (R82). -/
def regOf (b : Byte) : BitVec 3 := b.extractLsb' 3 3

/-- `rm = b[2:0]` of a ModRM byte (R82). -/
def rmOf (b : Byte) : BitVec 3 := b.extractLsb' 0 3

/-- `hi:lo`, the 16-bit value `hi * 256 + lo` (R14, R60). -/
def concatBytes (hi lo : Byte) : Word := hi ++ lo

/-- The two bytes of a 16-bit field in stream order: the low byte first (R61). -/
def wordBytes (v : Word) : List Byte := [v.extractLsb' 0 8, v.extractLsb' 8 8]

/-! ## The opcode map (R84 to R92) -/

/-- What an opcode byte opens. -/
inductive RowKind where
  | jump (j : JumpName)
  | arithRm (o : ArithOp)
  | arithAcc (o : ArithOp)
  | immRm
  | movRm
  | movImm
  | movImmRmUnimplemented
  | movAccMemUnimplemented
  | other
  deriving DecidableEq, Repr

/-- A row of the opcode map: it matches `op` when `op AND mask = pattern` (R109). -/
structure OpcodeRow where
  mask : Byte
  pattern : Byte
  kind : RowKind
  deriving DecidableEq, Repr

/-- The jump/loop table (R31, R160): 20 pairs of opcode byte and mnemonic. Only 0x75 is in the source document; the other bytes
are the spec's general knowledge G1 (log 7). -/
def jumpTable : List (Byte × JumpName) :=
  [(0x74, .je), (0x7C, .jl), (0x7E, .jle), (0x72, .jb), (0x76, .jbe), (0x7A, .jp), (0x70, .jo), (0x78, .js), (0x75, .jne),
   (0x7D, .jnl)] ++
  [(0x7F, .jnle), (0x73, .jnb), (0x77, .jnbe), (0x7B, .jnp), (0x71, .jno), (0x79, .jns), (0xE2, .loop), (0xE1, .loopz),
   (0xE0, .loopnz), (0xE3, .jcxz)]

/-- The rows that match by an opcode pattern (R85 to R89, R91); bit 1 of the accumulator form is required to be 0 (R86, D11). -/
def patternRows : List OpcodeRow :=
  [⟨0xFC, 0x00, .arithRm .add⟩, ⟨0xFC, 0x28, .arithRm .sub⟩, ⟨0xFC, 0x38, .arithRm .cmp⟩,
   ⟨0xFE, 0x04, .arithAcc .add⟩, ⟨0xFE, 0x2C, .arithAcc .sub⟩, ⟨0xFE, 0x3C, .arithAcc .cmp⟩,
   ⟨0xFC, 0x80, .immRm⟩, ⟨0xFC, 0x88, .movRm⟩, ⟨0xF0, 0xB0, .movImm⟩,
   ⟨0xFE, 0xC6, .movImmRmUnimplemented⟩, ⟨0xFC, 0xA0, .movAccMemUnimplemented⟩]

/-- The whole opcode map: "the fixed 8-bit opcodes before falling back to prefix families" (R83). -/
def opcodeTable : List OpcodeRow := jumpTable.map (fun p => ⟨0xFF, p.1, .jump p.2⟩) ++ patternRows

/-- `op AND mask = pattern` (R109). -/
def OpcodeRow.accepts (r : OpcodeRow) (op : Byte) : Bool := (op &&& r.mask) == r.pattern

/-- "First match wins" (R83); a byte that no row matches is in the catch-all row (R220). -/
def classify (op : Byte) : RowKind := ((opcodeTable.find? (·.accepts op)).map (·.kind)).getD .other

/-- `select(sel)` (R190). -/
def selectOp (sel : BitVec 3) : Option ArithOp :=
  if sel = 0b000 then some .add else if sel = 0b101 then some .sub else if sel = 0b111 then some .cmp else none

/-! ## Lengths (R95 to R99) -/

/-- `ndisp(mod, rm)` (R96). -/
def ndisp (mod : BitVec 2) (rm : BitVec 3) : Nat :=
  if mod = 0b00 then (if rm = 0b110 then 2 else 0) else if mod = 0b01 then 1 else if mod = 0b10 then 2 else 0

/-- `nimm(s, w)` of the F-IRM form (R98). -/
def nimm (s w : Bool) : Nat := if wideImmRm s w then 2 else 1

/-! ## Decoding -/

/-- Why no instruction was read: there was no opcode byte (R121), or the bytes end inside an instruction, after `got` of its
bytes (R254). -/
inductive DecodeStop where
  | noByte
  | cut (got : Nat)
  deriving DecidableEq, Repr

/-- The F-J instruction of a mnemonic (R161). -/
def jumpInstr : JumpName → Byte → Instr
  | .je => .je | .jl => .jl | .jle => .jle | .jb => .jb | .jbe => .jbe | .jp => .jp | .jo => .jo | .js => .js
  | .jne => .jne | .jnl => .jnl | .jnle => .jnle | .jnb => .jnb | .jnbe => .jnbe | .jnp => .jnp | .jno => .jno
  | .jns => .jns | .loop => .loop | .loopz => .loopz | .loopnz => .loopnz | .jcxz => .jcxz

/-- The F-RM instruction of an operation (R191). -/
def arithRmInstr : ArithOp → Bool → Bool → BitVec 3 → RmForm → Instr
  | .add => .addRmReg | .sub => .subRmReg | .cmp => .cmpRmReg

/-- The F-IRM instruction of an operation (R192). -/
def immRmInstr : ArithOp → Bool → Bool → RmForm → Imm → Instr
  | .add => .addImmRm | .sub => .subImmRm | .cmp => .cmpImmRm

/-- The F-IA instruction of an operation (R193). -/
def arithAccInstr : ArithOp → Bool → Imm → Instr
  | .add => .addImmAcc | .sub => .subImmAcc | .cmp => .cmpImmAcc

/-- Two bytes, low byte first (R60). -/
def decodeWord : List Byte → Option (Word × List Byte)
  | lo :: hi :: t => some (concatBytes hi lo, t)
  | _ => none

/-- The displacement rule (R150). -/
def decodeRm (mod : BitVec 2) (rm : BitVec 3) (t : List Byte) : Option (RmForm × List Byte) :=
  if mod = 0b11 then some (.register rm, t)
  else if mod = 0b00 then
    if rm = 0b110 then (decodeWord t).map fun p => (.direct p.1, p.2) else some (.indirect rm, t)
  else if mod = 0b01 then
    match t with
    | b :: t => some (.indirect8 rm b, t)
    | [] => none
  else (decodeWord t).map fun p => (.indirect16 rm p.1, p.2)

/-- One or two immediate bytes (R102 to R104). -/
def decodeImm (wide : Bool) (t : List Byte) : Option (Imm × List Byte) :=
  if wide then (decodeWord t).map fun p => (.word p.1, p.2)
  else
    match t with
    | b :: t => some (.byte b, t)
    | [] => none

/-- The ModRM byte and displacement of a two-operand form (R140, R148), with the instruction they make. -/
def decodeRmReg (mk : BitVec 3 → RmForm → Instr) : List Byte → Option (Instr × List Byte)
  | [] => none
  | m :: t => (decodeRm (modOf m) (rmOf m) t).map fun p => (mk (regOf m) p.1, p.2)

/-- The F-IRM form after its opcode byte (R192): the selector is examined when the ModRM byte is, before any further byte. -/
def decodeImmRm (s w : Bool) : List Byte → Option (Instr × List Byte)
  | [] => none
  | m :: t =>
    match selectOp (regOf m) with
    | none => some (.immRmBadSelector s w (modOf m) (regOf m) (rmOf m), t)
    | some o =>
      (decodeRm (modOf m) (rmOf m) t).bind fun p =>
        (decodeImm (wideImmRm s w) p.2).map fun q => (immRmInstr o s w p.1 q.1, q.2)

/-- The rest of an instruction after its opcode byte; `none` when the bytes end first. -/
def decodeAfter (op : Byte) (t : List Byte) : RowKind → Option (Instr × List Byte)
  | .jump j =>
    match t with
    | b :: t => some (jumpInstr j b, t)
    | [] => none
  | .arithRm o => decodeRmReg (arithRmInstr o (bitOf op 1) (bitOf op 0)) t
  | .movRm => decodeRmReg (.movRmReg (bitOf op 1) (bitOf op 0)) t
  | .immRm => decodeImmRm (bitOf op 1) (bitOf op 0) t
  | .arithAcc o => (decodeImm (bitOf op 0) t).map fun p => (arithAccInstr o (bitOf op 0) p.1, p.2)
  | .movImm => (decodeImm (bitOf op 3) t).map fun p => (.movImmReg (bitOf op 3) (rmOf op) p.1, p.2)
  | .movImmRmUnimplemented => some (.movImmRmUnimplemented (bitOf op 0), t)
  | .movAccMemUnimplemented => some (.movAccMemUnimplemented (bitOf op 1) (bitOf op 0), t)
  | .other => some (.unsupportedOpcode op, t)

/-- Read one instruction: the instruction and the bytes after it, or the named reason there is none. -/
def decode (bs : List Byte) : Except DecodeStop (Instr × List Byte) :=
  match bs with
  | [] => .error .noByte
  | op :: t =>
    match decodeAfter op t (classify op) with
    | some r => .ok r
    | none => .error (.cut bs.length)

/-! ## Encoding (R81) -/

/-- The opcode byte of a jump or loop (R84). -/
def opJump : JumpName → Byte
  | .jo => 0x70 | .jno => 0x71 | .jb => 0x72 | .jnb => 0x73 | .je => 0x74 | .jne => 0x75 | .jbe => 0x76 | .jnbe => 0x77
  | .js => 0x78 | .jns => 0x79 | .jp => 0x7A | .jnp => 0x7B | .jl => 0x7C | .jnl => 0x7D | .jle => 0x7E | .jnle => 0x7F
  | .loopnz => 0xE0 | .loopz => 0xE1 | .loop => 0xE2 | .jcxz => 0xE3

/-- The selector of an operation (R90). -/
def ArithOp.selector : ArithOp → BitVec 3
  | .add => 0b000 | .sub => 0b101 | .cmp => 0b111

/-- A one-bit field. -/
def bit (b : Bool) : BitVec 1 := BitVec.ofBool b

/-- `0 0 o o o 0 d w` (R85). -/
def opArithRm (o : ArithOp) (d w : Bool) : Byte := 0b00#2 ++ o.selector ++ 0b0#1 ++ bit d ++ bit w

/-- `0 0 o o o 1 0 w` (R86). -/
def opArithAcc (o : ArithOp) (w : Bool) : Byte := 0b00#2 ++ o.selector ++ 0b10#2 ++ bit w

/-- `1 0 0 0 0 0 s w` (R87). -/
def opImmRm (s w : Bool) : Byte := 0b100000#6 ++ bit s ++ bit w

/-- `1 0 0 0 1 0 d w` (R88). -/
def opMovRm (d w : Bool) : Byte := 0b100010#6 ++ bit d ++ bit w

/-- `1 0 1 1 w r r r` (R89). -/
def opMovImm (w : Bool) (idx : BitVec 3) : Byte := 0b1011#4 ++ bit w ++ idx

/-- `1 1 0 0 0 1 1 w` (R91, R212). -/
def opMovImmRm (w : Bool) : Byte := 0b1100011#7 ++ bit w

/-- `1 0 1 0 0 0 d w` (R91, R213). -/
def opMovAccMem (d w : Bool) : Byte := 0b101000#6 ++ bit d ++ bit w

/-- `m m r r r a a a` (R82). -/
def modrmByte (mod : BitVec 2) (reg rm : BitVec 3) : Byte := mod ++ reg ++ rm

/-- The `mod` field of an operand form (R150). -/
def RmForm.modField : RmForm → BitVec 2
  | .register _ => 0b11
  | .direct _ => 0b00
  | .indirect _ => 0b00
  | .indirect8 _ _ => 0b01
  | .indirect16 _ _ => 0b10

/-- The `rm` field of an operand form (R150). -/
def RmForm.rmField : RmForm → BitVec 3
  | .register rm => rm
  | .direct _ => 0b110
  | .indirect rm => rm
  | .indirect8 rm _ => rm
  | .indirect16 rm _ => rm

/-- The displacement bytes of an operand form, low byte first (R105, R106). -/
def RmForm.dispBytes : RmForm → List Byte
  | .register _ => []
  | .direct a => wordBytes a
  | .indirect _ => []
  | .indirect8 _ b => [b]
  | .indirect16 _ v => wordBytes v

/-- The ModRM byte of an operand form with a given `reg` field. -/
def RmForm.modrm (f : RmForm) (reg : BitVec 3) : Byte := modrmByte f.modField reg f.rmField

/-- The immediate bytes, low byte first (R61). -/
def Imm.bytes : Imm → List Byte
  | .byte b => [b]
  | .word v => wordBytes v

/-- An F-RM instruction's bytes (R81). -/
def encodeRmReg (op : Byte) (reg : BitVec 3) (f : RmForm) : List Byte := op :: f.modrm reg :: f.dispBytes

/-- An F-IRM instruction's bytes (R81): the displacement before the immediate (R80). -/
def encodeImmRm (o : ArithOp) (s w : Bool) (f : RmForm) (imm : Imm) : List Byte :=
  opImmRm s w :: f.modrm o.selector :: (f.dispBytes ++ imm.bytes)

/-- The bytes of an instruction, in stream order. -/
def encode : Instr → List Byte
  | .je b => [opJump .je, b]
  | .jl b => [opJump .jl, b]
  | .jle b => [opJump .jle, b]
  | .jb b => [opJump .jb, b]
  | .jbe b => [opJump .jbe, b]
  | .jp b => [opJump .jp, b]
  | .jo b => [opJump .jo, b]
  | .js b => [opJump .js, b]
  | .jne b => [opJump .jne, b]
  | .jnl b => [opJump .jnl, b]
  | .jnle b => [opJump .jnle, b]
  | .jnb b => [opJump .jnb, b]
  | .jnbe b => [opJump .jnbe, b]
  | .jnp b => [opJump .jnp, b]
  | .jno b => [opJump .jno, b]
  | .jns b => [opJump .jns, b]
  | .loop b => [opJump .loop, b]
  | .loopz b => [opJump .loopz, b]
  | .loopnz b => [opJump .loopnz, b]
  | .jcxz b => [opJump .jcxz, b]
  | .addRmReg d w reg f => encodeRmReg (opArithRm .add d w) reg f
  | .subRmReg d w reg f => encodeRmReg (opArithRm .sub d w) reg f
  | .cmpRmReg d w reg f => encodeRmReg (opArithRm .cmp d w) reg f
  | .addImmRm s w f imm => encodeImmRm .add s w f imm
  | .subImmRm s w f imm => encodeImmRm .sub s w f imm
  | .cmpImmRm s w f imm => encodeImmRm .cmp s w f imm
  | .addImmAcc w imm => opArithAcc .add w :: imm.bytes
  | .subImmAcc w imm => opArithAcc .sub w :: imm.bytes
  | .cmpImmAcc w imm => opArithAcc .cmp w :: imm.bytes
  | .movRmReg d w reg f => encodeRmReg (opMovRm d w) reg f
  | .movImmReg w idx imm => opMovImm w idx :: imm.bytes
  | .movImmRmUnimplemented w => [opMovImmRm w]
  | .movAccMemUnimplemented d w => [opMovAccMem d w]
  | .immRmBadSelector s w mod sel rm => [opImmRm s w, modrmByte mod sel rm]
  | .unsupportedOpcode op => [op]

/-- The bytes an instruction consumes, by rules R95, R97, R98 and R99 for the decodable rows, and one byte or two for the failing
rows (R220, R225). -/
def Instr.size : Instr → Nat
  | .je _ | .jl _ | .jle _ | .jb _ | .jbe _ | .jp _ | .jo _ | .js _ | .jne _ | .jnl _ => 2
  | .jnle _ | .jnb _ | .jnbe _ | .jnp _ | .jno _ | .jns _ | .loop _ | .loopz _ | .loopnz _ | .jcxz _ => 2
  | .addRmReg _ _ _ f | .subRmReg _ _ _ f | .cmpRmReg _ _ _ f | .movRmReg _ _ _ f => 2 + ndisp f.modField f.rmField
  | .addImmRm s w f _ | .subImmRm s w f _ | .cmpImmRm s w f _ => 2 + ndisp f.modField f.rmField + nimm s w
  | .addImmAcc w _ | .subImmAcc w _ | .cmpImmAcc w _ | .movImmReg w _ _ => 2 + w.toNat
  | .movImmRmUnimplemented _ | .movAccMemUnimplemented _ _ => 1
  | .immRmBadSelector _ _ _ _ _ => 2
  | .unsupportedOpcode _ => 1

/-! ## Table words -/

/-- The bytes, in stream order, of an instruction given as a number whose bit 0 is bit 0 of the first byte; every bit from `nbits`
up is 0, up to the longest instruction. -/
def tableBytes (nbits w : Nat) : List Byte :=
  (List.range Config.longest).map fun k => BitVec.ofNat 8 ((w % 2 ^ nbits) >>> (8 * k))

/-- The instruction the decoder reads from such a number. -/
def decodeTableWord (nbits w : Nat) : Option Instr :=
  match decode (tableBytes nbits w) with
  | .ok p => some p.1
  | .error _ => none

end Sys2Proof
end

