-- ==== Sys2Proof/Machine/State.lean ====
section
/-! DEFINITION. The result records (R16, R33 to R39), the byte-serial state register with its live latches (R32, R125), the
machine's State with its reset value (R20, R43), and the reasons a step can stop. -/

namespace Sys2Proof.Machine

/-! ## The result record (R16, R33 to R39) -/

/-- The seven family tags (R34). `movImmToRegMem` occurs in no `Ok` answer (R34, R212). -/
inductive OpcodeFamily where
  | movRegMemToFromReg | movImmToRegMem | movImmToReg | addSubCmpRegMemWithReg | addSubCmpImmToRegMem | addSubCmpImmToAcc
  | conditionalJumpOrLoop
  deriving DecidableEq, Repr

/-- The 24 mnemonics (R35): `mov`, the three arithmetic operations and the 20 jumps and loops. -/
inductive Mnemonic where
  | mov
  | arith (o : ArithOp)
  | jump (j : JumpName)
  deriving DecidableEq, Repr

/-- `Displacement` (R16, R37). -/
inductive Displacement where
  | none
  | direct16 (addr : Word)
  | relative8Extended (v : Word)
  | relative16 (v : Word)
  deriving DecidableEq, Repr

/-- `Operand` (R16, R36). -/
inductive Operand where
  | register (w : Bool) (idx : BitVec 3)
  | memoryIndirect (base : BitVec 3) (disp : Displacement)
  | memoryDirect (addr : Word)
  | immediate (v : Word)
  | accumulator (w : Bool)
  deriving DecidableEq, Repr

/-- The side-band record `DecodeFields` (R38, decision D7). -/
structure DecodeFields where
  start : Nat
  length : Nat
  opcode : Byte
  w : Bool
  d : Bool
  s : Bool
  hasModrm : Bool
  mod : BitVec 2
  reg : BitVec 3
  rm : BitVec 3
  deriving DecidableEq, Repr

/-- `Instruction`, the descriptor of a decoded instruction (R16): operands destination first (R39). -/
structure Instruction where
  family : OpcodeFamily
  mnemonic : Mnemonic
  operands : List Operand
  fields : DecodeFields
  deriving DecidableEq, Repr

/-- `DecodeOutcome` (R16, R250): the three answers that produce no instruction. -/
inductive DecodeOutcome where
  | endOfStream
  | unsupportedEncoding (byteOffset : Nat) (rawByte : Byte)
  | malformedStream (byteOffset : Nat)
  deriving DecidableEq, Repr

/-- `DecodeResult` (R16, R33): the answer to one request. -/
inductive DecodeResult where
  | ok (i : Instruction)
  | fail (o : DecodeOutcome)
  deriving DecidableEq, Repr

/-! ## The byte-serial state register (R125) and its live latches (R32) -/

/-- What an instruction with a ModRM byte has latched from its opcode byte (R125, `S_OPCODE`). -/
inductive RmKind where
  | arith (o : ArithOp) (d w : Bool)
  | mov (d w : Bool)
  | imm (s w : Bool)
  deriving DecidableEq, Repr

/-- The latches that are live once the ModRM byte of an F-RM or F-IRM instruction has been read. -/
structure ModrmLatch where
  start : Nat
  opcode : Byte
  kind : RmKind
  mod : BitVec 2
  reg : BitVec 3
  rm : BitVec 3
  deriving DecidableEq, Repr

/-- The latches that are live while an immediate byte is awaited: of the accumulator form, of the register form, or of the
F-IRM form with "the finished displacement" (R32). -/
inductive ImmLatch where
  | acc (start : Nat) (opcode : Byte) (o : ArithOp) (w : Bool)
  | reg (start : Nat) (opcode : Byte) (w : Bool) (idx : BitVec 3)
  | rm (m : ModrmLatch) (o : ArithOp) (s w : Bool) (disp : Displacement)
  deriving DecidableEq, Repr

/-- The state register of the byte-serial build (R125), "saying which byte it awaits", each state with the latches that are live
in it. `opcode` (`S_OPCODE`) is the instruction boundary: no instruction is in progress, and every latch is dead (R32, U7; log 5). -/
inductive SerialState where
  | opcode
  | jumpOffset (start : Nat) (opcode : Byte) (j : JumpName)
  | modrm (start : Nat) (opcode : Byte) (kind : RmKind)
  | dispLo (m : ModrmLatch)
  | dispHi (m : ModrmLatch) (lo : Byte)
  | immLo (l : ImmLatch)
  | immHi (l : ImmLatch) (lo : Byte)
  deriving DecidableEq, Repr

/-! ## The machine -/

/-- The byte stream `src[0], ..., src[N-1]` (R50) as cells of offset and byte. Its canonical form (`Memory.wf`) lists the
offsets 0 to N-1 in order; an offset that is not listed holds no byte, and a request there is answered `End` (R52, R53; log 2). -/
abbrev Memory := List Host.Cell

/-- Everything the spec gives the machine: the cursor (R20), the byte-serial state register with its live latches (R32, R125), the
stream bound at reset (R52), and the answers given so far, oldest first (R19; the model's own field, log 3). -/
structure State where
  /-- The byte stream; no operation of the hardware changes it (R51, R52). -/
  src : Memory
  /-- "The byte most recently pulled from the source" (R21). -/
  cur : Byte
  /-- How many bits of `cur` have been consumed, from bit 7 downward (R22). -/
  used : Nat
  /-- The end-of-stream flag (R23). -/
  eos : Bool
  /-- The number of bytes pulled, which is the offset of the next byte; the program counter (R24, R25). -/
  pos : Nat
  /-- The byte-serial state register and its live latches (R32, R125). -/
  serial : SerialState
  /-- The answers given so far, oldest first (R19, R33). -/
  results : List DecodeResult
  deriving DecidableEq, Repr

/-- The state after reset (R43, R280): an instruction boundary at offset 0, with the empty stream bound (log 2). The value of
`cur` has no meaning before the first fetch (U6), and no claim may rest on it (log 4). -/
def State.reset : State where
  src := []
  cur := 0x00
  used := 8
  eos := false
  pos := 0
  serial := .opcode
  results := []

/-- Why a step stops: a use of the cursor that its contract forbids, "not a recoverable error" (R256, U3). "The state after it has
no meaning". None is reachable from a request made at an instruction boundary (R71, R130). All are safe. -/
inductive Fault where
  /-- Raised by `advance_byte` when the current byte has unread bits, `used != 8` (R54, R289, D18). Safe. -/
  | advanceWithUnreadBits
  /-- Raised by `peek` and `take` when the count is outside 1..8 or passes the end of the byte (R55, R288). Safe. -/
  | readPastByte
  /-- Raised by `peek` and `take` before the first fetch and after end of stream (R55, R287). Safe. -/
  | readWithoutByte
  /-- Raised by a request for `decode_next` while a byte-serial walk is in progress (R45, R290; log 6). Safe. -/
  | requestInProgress
  deriving DecidableEq, Repr

/-- Why a step has no meaning. -/
inductive Refusal where
  /-- Raised by an arm of `exec` whose instruction has no meaning yet; no arm of this model does. Safe. -/
  | notModelled (mnemonic : String)
  deriving DecidableEq, Repr

/-- The answer of a part of `decode_next`: a value, a failure outcome, which ends the `decode_next` (R15), or a fault. The first
two carry the new state: the cursor is threaded "by value-and-return" (R63). -/
inductive Walk (α : Type) where
  | ok (a : α) (s : State)
  | fail (o : DecodeOutcome) (s : State)
  | fault (f : Fault)
  deriving DecidableEq, Repr

end Sys2Proof.Machine
end

