-- ==== Sys2Proof/Machine/Operands.lean ====
section
/-! DEFINITION. Values formed from the bytes of an instruction (R101 to R108), the operand rule (R140 to R150), and the
descriptors of the six families (R161, R191 to R193, R210, R211). Each is stated once and used by the meanings, by the bit walk
(Machine/DecodeNext.lean) and by the byte-serial machine (Machine/Serial.lean): "the single source of truth ... must not be
duplicated per family". Nothing is added to a base expression, and no effective address is formed (R152). -/

namespace Sys2Proof.Machine

/-! ## Widening (R14, R108) -/

/-- `zext_16(b)` (R14). -/
def zext16 (b : Byte) : Word := b.setWidth 16

/-- `sext_16(b)` (R14): the sign bit replicated into the high byte. -/
def sext16 (b : Byte) : Word := b.signExtend 16

/-- `signed_16(v)` (R14). -/
def signed16 (v : Word) : Int := if v.toNat < 32768 then v.toNat else (v.toNat : Int) - 65536

/-- `signed_8(b)` (R14). -/
def signed8 (b : Byte) : Int := if b.toNat < 128 then b.toNat else (b.toNat : Int) - 256

/-- The widening of a mod=01 displacement byte under `DISP8_EXTEND` (R12). -/
def extendDisp8 : Disp8Extend → Byte → Word
  | .zero => zext16
  | .sign => sext16

/-- A data immediate of one or two bytes with no sign extension (R103, R104). -/
def immValue : Imm → Word
  | .byte b => zext16 b
  | .word v => v

/-- An F-IRM immediate (R102): one byte is sign-extended when `s = 1`, whatever `w` is (D20; log 9). -/
def immRmValue (s : Bool) : Imm → Word
  | .byte b => if s then sext16 b else zext16 b
  | .word v => v

/-! ## Operands (R141 to R150) -/

/-- `reg_operand(w, reg)` (R141). -/
def regOperand (w : Bool) (reg : BitVec 3) : Operand := .register w reg

/-- The displacement value of a mod=01 byte (R105, R146): zero-extended on this hardware (log 8). -/
def disp8 (b : Byte) : Displacement := .relative8Extended (extendDisp8 Config.disp8Extend b)

/-- The operand of an `rm` field and its displacement (R150): a register under mod 11, a direct address, or a base expression with
its displacement (R37: a `Direct16(a)` becomes `MemoryDirect(a)`). -/
def rmOperand (w : Bool) (mod : BitVec 2) (rm : BitVec 3) (disp : Displacement) : Operand :=
  if mod = 0b11 then .register w rm
  else
    match disp with
    | .direct16 a => .memoryDirect a
    | d => .memoryIndirect rm d

/-- The displacement of an operand form (R150). -/
def RmForm.displacement : RmForm → Displacement
  | .register _ => .none
  | .direct a => .direct16 a
  | .indirect _ => .none
  | .indirect8 _ b => disp8 b
  | .indirect16 _ v => .relative16 v

/-- `rm_operand` of an operand form (R142 to R147). -/
def formOperand (w : Bool) (f : RmForm) : Operand := rmOperand w f.modField f.rmField (RmForm.displacement f)

/-- The order of the two operands (R148): "`d=1` → reg is destination". -/
def orderOperands (d : Bool) (regOp rmOp : Operand) : List Operand := if d then [regOp, rmOp] else [rmOp, regOp]

/-! ## Descriptors -/

/-- The descriptor of a jump or loop (R161). -/
def jumpDescriptor (j : JumpName) (opcode off : Byte) (start : Nat) : Instruction where
  family := .conditionalJumpOrLoop
  mnemonic := .jump j
  operands := [.immediate (sext16 off)]
  fields := ⟨start, 2, opcode, false, false, false, false, 0, 0, 0⟩

/-- The descriptor of an F-RM instruction (R191, R210). -/
def rmRegDescriptor (family : OpcodeFamily) (mnemonic : Mnemonic) (opcode : Byte) (d w : Bool) (mod : BitVec 2)
    (reg rm : BitVec 3) (disp : Displacement) (start : Nat) : Instruction where
  family := family
  mnemonic := mnemonic
  operands := orderOperands d (regOperand w reg) (rmOperand w mod rm disp)
  fields := ⟨start, 2 + ndisp mod rm, opcode, w, d, false, true, mod, reg, rm⟩

/-- The descriptor of an F-IRM instruction (R192). -/
def immRmDescriptor (o : ArithOp) (opcode : Byte) (s w : Bool) (mod : BitVec 2) (reg rm : BitVec 3) (disp : Displacement)
    (v : Word) (start : Nat) : Instruction where
  family := .addSubCmpImmToRegMem
  mnemonic := .arith o
  operands := [rmOperand w mod rm disp, .immediate v]
  fields := ⟨start, 2 + ndisp mod rm + nimm s w, opcode, w, false, s, true, mod, reg, rm⟩

/-- The descriptor of an F-IA instruction (R193). -/
def immAccDescriptor (o : ArithOp) (opcode : Byte) (w : Bool) (v : Word) (start : Nat) : Instruction where
  family := .addSubCmpImmToAcc
  mnemonic := .arith o
  operands := [.accumulator w, .immediate v]
  fields := ⟨start, 2 + w.toNat, opcode, w, false, false, false, 0, 0, 0⟩

/-- The descriptor of an F-IR instruction (R211): "the register index is not copied into `fields.reg`". -/
def movImmDescriptor (opcode : Byte) (w : Bool) (idx : BitVec 3) (v : Word) (start : Nat) : Instruction where
  family := .movImmToReg
  mnemonic := .mov
  operands := [.register w idx, .immediate v]
  fields := ⟨start, 2 + w.toNat, opcode, w, false, false, false, 0, 0, 0⟩

end Sys2Proof.Machine
end

