-- ==== Sys2Proof/Machine/Flags.lean ====
section
/-! DEFINITION. The only status flag, `eos` (R23, R40). The hardware has no condition codes: it executes no instruction, so no
carry, zero, sign, overflow, parity or auxiliary flag exists and none is computed (R40, R183, R203). -/

namespace Sys2Proof.Machine

/-- The answer of the byte source to a request (R15, R52, R72): a byte, or that there is none. -/
inductive SrcAnswer where
  | byte (b : Byte)
  | atEnd
  deriving DecidableEq, Repr

/-- `eos` after a request to the source: set by `End`, left alone by a byte, and never cleared (R23, R54, D6). -/
def eosAfter (before : Bool) : SrcAnswer → Bool
  | .byte _ => before
  | .atEnd => true

end Sys2Proof.Machine
end

