-- ==== Sys2Proof/Machine/Memory.lean ====
section
/-! DEFINITION. The byte stream as memory: its canonical form, reading it, and binding one. The hardware writes nothing (R51): the
only operation that makes a stream is the one that binds it (R283). -/

namespace Sys2Proof.Machine

/-- The offsets listed are `a`, `a+1`, ... in order. -/
def Memory.wfFrom : Nat → Memory → Bool
  | _, [] => true
  | a, c :: m => c.1 == a && Memory.wfFrom (a + 1) m

/-- The canonical form: the offsets listed are 0, 1, ..., N-1 in order (R50, R69), so equal streams are equal data. -/
def Memory.wf (m : Memory) : Bool := Memory.wfFrom 0 m

/-- The byte at an offset; `none` where the stream has no byte (R52, R53). -/
def Memory.read : Memory → Nat → Option Byte
  | [], _ => none
  | c :: m, a => if c.1 = a then some c.2 else Memory.read m a

/-- The stream's length `N` (R50). -/
def Memory.size (m : Memory) : Nat := m.length

/-- Up to `n` bytes from offset `a` on, as far as the stream goes. -/
def Memory.bytesAt (m : Memory) (a : Nat) : Nat → List Byte
  | 0 => []
  | n + 1 =>
    match m.read a with
    | some b => b :: Memory.bytesAt m (a + 1) n
    | none => []

/-- Cells for bytes that stand from offset `a` on. -/
def Memory.fromOffset : Nat → List Byte → Memory
  | _, [] => []
  | a, b :: bs => (a, b) :: Memory.fromOffset (a + 1) bs

/-- The stream that holds the given bytes, offset 0 first (R50). -/
def Memory.ofBytes (bs : List Byte) : Memory := Memory.fromOffset 0 bs

/-- The bytes of a stream in offset order. -/
def Memory.bytes (m : Memory) : List Byte := m.map (·.2)

/-- The stream with `bs` standing at offset `a`; the bytes before and after are kept, and a stream that ends before `a` is filled
up with 0x00 (log 20). No operation of the hardware does this: it stands for binding another stream (R283). -/
def Memory.place (m : Memory) (a : Nat) (bs : List Byte) : Memory :=
  let old := m.bytes
  Memory.ofBytes (old.take a ++ List.replicate (a - old.length) 0x00 ++ bs ++ old.drop (a + bs.length))

end Sys2Proof.Machine
end

