-- ==== Sys2Proof/Machine/Ops.lean ====
section
/-! DEFINITION. The cursor operations (R52 to R60), the request and its answer (R45, R121), and the failures, which are the
block's exceptions (R250 to R263). A failure saves nothing and vectors nowhere (R261): "taking" one is answering it to the
caller, one shared operation, `finish`. There is no return from one: the next request is the caller's choice, and there is
"nothing to restore" (R264). -/

namespace Sys2Proof.Machine

/-! ## Sequencing -/

/-- Go on with the value and state of a walk; a failure or a fault ends it (R15). -/
def Walk.bind {α β : Type} (x : Walk α) (f : α → State → Walk β) : Walk β :=
  match x with
  | .ok a s => f a s
  | .fail o s => .fail o s
  | .fault e => .fault e

/-! ## The byte source (R52) -/

/-- `SrcNext()`: "if `pos < N` it returns `Byte(src[pos])`; if `pos >= N` it returns `End`" (R52). -/
def srcNext (s : State) : SrcAnswer :=
  match s.src.read s.pos with
  | some b => .byte b
  | none => .atEnd

/-! ## Cursor operations -/

/-- The cursor after the source has answered (R54). `End` leaves `cur`, `used` and `pos` alone (D6; log 11). -/
def State.receive (s : State) (a : SrcAnswer) : State :=
  match a with
  | .byte b => { s with cur := b, used := 0, pos := s.pos + 1, eos := eosAfter s.eos a }
  | .atEnd => { s with eos := eosAfter s.eos a }

/-- `advance_byte()` (R54). After end of stream the source is not asked again. -/
def advanceByte (s : State) : Walk Unit :=
  if s.used ≠ 8 then .fault .advanceWithUnreadBits
  else if s.eos then .ok () s
  else .ok () (s.receive (srcNext s))

/-- `peek(n)` (R55): `cur[7 - used : 8 - used - n]`, the next `n` bits, most significant first. -/
def peek (n : Nat) (s : State) : Walk (BitVec n) :=
  if ¬(1 ≤ n ∧ n ≤ 8 ∧ s.used + n ≤ 8) then .fault .readPastByte
  else if s.eos = true ∨ s.pos = 0 then .fault .readWithoutByte
  else .ok (s.cur.extractLsb' (8 - s.used - n) n) s

/-- `take(n)` (R56): "same as `peek` but advances `bits_consumed` by `n`". -/
def take (n : Nat) (s : State) : Walk (BitVec n) :=
  (peek n s).bind fun v s => .ok v { s with used := s.used + n }

/-- `need_byte()` (R58): a byte the instruction in progress requires; `MalformedStream` if there is none (R254, R255). -/
def needByte (s : State) : Walk Unit :=
  (advanceByte s).bind fun _ s => if s.eos then .fail (.malformedStream s.pos) s else .ok () s

/-- `fetch8()` (R59). -/
def fetch8 (s : State) : Walk Byte := (needByte s).bind fun _ s => take 8 s

/-- `fetch16()` (R60): low byte first. -/
def fetch16 (s : State) : Walk Word :=
  (fetch8 s).bind fun lo s => (fetch8 s).bind fun hi s => .ok (concatBytes hi lo) s

/-- Fetch and consume `n` bytes. -/
def skip : Nat → State → Walk Unit
  | 0, s => .ok () s
  | n + 1, s => (fetch8 s).bind fun _ s => skip n s

/-! ## The request -/

/-- The first step of `decode_next` (R120, R121): a request is legal only at an instruction boundary (R45, R290; log 6); fetch the
opcode byte, or answer the clean end. The value is `start`, the offset of the opcode byte. -/
def openRequest (s : State) : Walk Nat :=
  if s.serial ≠ .opcode then .fault .requestInProgress
  else (advanceByte s).bind fun _ s => if s.eos then .fail .endOfStream s else .ok (s.pos - 1) s

/-- The same where the stream is known to hold no opcode byte at `pos` (R121): the clean end. -/
def openAtEnd {α : Type} (s : State) : Walk α :=
  if s.serial ≠ .opcode then .fault .requestInProgress
  else (advanceByte s).bind fun _ s => .fail .endOfStream s

/-! ## Failures -/

/-- `unsupported()` (R253): the current byte counts as consumed, and it is reported with its offset. -/
def unsupported {α : Type} (s : State) : Walk α :=
  .fail (.unsupportedEncoding (s.pos - 1) s.cur) { s with used := 8 }

/-- The fetch of a required byte that the stream does not have (R58): `End` is received and `MalformedStream` answered. -/
def missingByte {α : Type} (s : State) : Walk α :=
  (advanceByte s).bind fun _ s => .fail (.malformedStream s.pos) s

/-! ## The answer -/

/-- The answer is handed to the caller (R33, R45). -/
def State.answer (s : State) (r : DecodeResult) : State := { s with results := s.results ++ [r] }

/-- The one end of every `decode_next`: an instruction or a failure is answered (R33, R261), and a fault stops the machine
(R256). -/
def finish (x : Walk Instruction) : Host.Outcome State Fault Refusal :=
  match x with
  | .ok i s => .next (s.answer (.ok i))
  | .fail o s => .next (s.answer (.fail o))
  | .fault f => .fault f

/-! ## Shared shapes of a meaning -/

/-- Consume an instruction of `len` bytes and answer the descriptor `mk` makes of its start (R128: `used = 8`, `pos = start +
length`, `cur` the last byte). A byte that is missing is answered as `EndOfStream` or `MalformedStream` (R260). -/
def retire (len : Nat) (mk : Nat → Instruction) (s : State) : Host.Outcome State Fault Refusal :=
  finish <| (openRequest s).bind fun start s => (take 8 s).bind fun _ s => (skip (len - 1) s).bind fun _ s =>
    .ok (mk start) s

/-- Fail at the opcode byte (R220): one byte is consumed, and it is reported. -/
def failAtOpcode (s : State) : Host.Outcome State Fault Refusal :=
  finish <| (openRequest s).bind fun _ s => unsupported s

/-- Fail at the ModRM byte (R225): two bytes are consumed, and the second is reported (D13, D14; log 10). -/
def failAtModrm (s : State) : Host.Outcome State Fault Refusal :=
  finish <| (openRequest s).bind fun _ s => (take 8 s).bind fun _ s => (needByte s).bind fun _ s => unsupported s

/-- The clean end (R121, R251). -/
def endOfStream (s : State) : Host.Outcome State Fault Refusal :=
  finish (openAtEnd s)

/-- The stream ends after `got` bytes of an instruction (R254): they are consumed, and the next fetch finds none. -/
def cutShort (got : Nat) (s : State) : Host.Outcome State Fault Refusal :=
  finish <| (openRequest s).bind fun _ s => (take 8 s).bind fun _ s => (skip (got - 1) s).bind fun _ s => missingByte s

/-! ## Binding a stream (R283) -/

/-- Reset with a stream bound, positioned at its first byte (R280, R283). -/
def State.boot (bs : List Byte) : State := { State.reset with src := Memory.ofBytes bs }

/-- The bytes the next instruction is read from: at most the longest instruction's, and none after end of stream (R23). -/
def State.window (s : State) : List Byte := if s.eos then [] else s.src.bytesAt s.pos Config.longest

end Sys2Proof.Machine
end

