-- ==== Sys2Proof/Machine/AddSubCmp.lean ====
section
/-! DEFINITION. Families AddSubCmpRegMemWithReg, AddSubCmpImmToRegMem and AddSubCmpImmToAcc (R190 to R203): `add`, `sub` and `cmp`
in three forms each. No arithmetic is performed (R203): the answer is the descriptor. -/

namespace Sys2Proof.Machine

/-- `arith_rm_reg` (R191): 2, 3 or 4 bytes. -/
def arithRmReg (o : ArithOp) (d w : Bool) (reg : BitVec 3) (f : RmForm) (s : State) : Host.Outcome State Fault Refusal :=
  retire (2 + ndisp f.modField f.rmField)
    (rmRegDescriptor .addSubCmpRegMemWithReg (.arith o) (opArithRm o d w) d w f.modField reg f.rmField (RmForm.displacement f)) s

/-- `arith_imm_rm` (R192) with a selector of the set: 3 to 6 bytes. -/
def arithImmRm (o : ArithOp) (sx w : Bool) (f : RmForm) (imm : Imm) (s : State) : Host.Outcome State Fault Refusal :=
  retire (2 + ndisp f.modField f.rmField + nimm sx w)
    (immRmDescriptor o (opImmRm sx w) sx w f.modField o.selector f.rmField (RmForm.displacement f) (immRmValue sx imm)) s

/-- `arith_imm_acc` (R193): 2 or 3 bytes. -/
def arithImmAcc (o : ArithOp) (w : Bool) (imm : Imm) (s : State) : Host.Outcome State Fault Refusal :=
  retire (2 + w.toNat) (immAccDescriptor o (opArithAcc o w) w (immValue imm)) s

/-- `add` register/memory with register (R194). -/
def execAddRmReg (d w : Bool) (reg : BitVec 3) (f : RmForm) (s : State) : Host.Outcome State Fault Refusal :=
  arithRmReg .add d w reg f s

/-- `sub` register/memory with register (R195). -/
def execSubRmReg (d w : Bool) (reg : BitVec 3) (f : RmForm) (s : State) : Host.Outcome State Fault Refusal :=
  arithRmReg .sub d w reg f s

/-- `cmp` register/memory with register (R196). -/
def execCmpRmReg (d w : Bool) (reg : BitVec 3) (f : RmForm) (s : State) : Host.Outcome State Fault Refusal :=
  arithRmReg .cmp d w reg f s

/-- `add` immediate to register/memory (R197). -/
def execAddImmRm (sx w : Bool) (f : RmForm) (imm : Imm) (s : State) : Host.Outcome State Fault Refusal :=
  arithImmRm .add sx w f imm s

/-- `sub` immediate to register/memory (R198). -/
def execSubImmRm (sx w : Bool) (f : RmForm) (imm : Imm) (s : State) : Host.Outcome State Fault Refusal :=
  arithImmRm .sub sx w f imm s

/-- `cmp` immediate to register/memory (R199). -/
def execCmpImmRm (sx w : Bool) (f : RmForm) (imm : Imm) (s : State) : Host.Outcome State Fault Refusal :=
  arithImmRm .cmp sx w f imm s

/-- `add` immediate to accumulator (R200). -/
def execAddImmAcc (w : Bool) (imm : Imm) (s : State) : Host.Outcome State Fault Refusal :=
  arithImmAcc .add w imm s

/-- `sub` immediate to accumulator (R201). -/
def execSubImmAcc (w : Bool) (imm : Imm) (s : State) : Host.Outcome State Fault Refusal :=
  arithImmAcc .sub w imm s

/-- `cmp` immediate to accumulator (R202). -/
def execCmpImmAcc (w : Bool) (imm : Imm) (s : State) : Host.Outcome State Fault Refusal :=
  arithImmAcc .cmp w imm s

end Sys2Proof.Machine
end

