-- ==== Sys2Proof/Machine/JumpLoop.lean ====
section
/-! DEFINITION. Family ConditionalJumpOrLoop (R160 to R184): the 20 jump and loop instructions. No condition is evaluated, nothing
is decremented (R183), and no transfer is followed: the next instruction decoded is the one at `start + 2` (R184). -/

namespace Sys2Proof.Machine

/-- `jump(mnem)` (R161): two bytes are consumed, and the offset byte is answered as `Immediate(sext_16(b))`. -/
def jump (j : JumpName) (off : Byte) (s : State) : Host.Outcome State Fault Refusal :=
  retire 2 (jumpDescriptor j (opJump j) off) s

/-- `je` (R162). -/
def execJe (off : Byte) (s : State) : Host.Outcome State Fault Refusal := jump .je off s

/-- `jl` (R163). -/
def execJl (off : Byte) (s : State) : Host.Outcome State Fault Refusal := jump .jl off s

/-- `jle` (R164). -/
def execJle (off : Byte) (s : State) : Host.Outcome State Fault Refusal := jump .jle off s

/-- `jb` (R165). -/
def execJb (off : Byte) (s : State) : Host.Outcome State Fault Refusal := jump .jb off s

/-- `jbe` (R166). -/
def execJbe (off : Byte) (s : State) : Host.Outcome State Fault Refusal := jump .jbe off s

/-- `jp` (R167). -/
def execJp (off : Byte) (s : State) : Host.Outcome State Fault Refusal := jump .jp off s

/-- `jo` (R168). -/
def execJo (off : Byte) (s : State) : Host.Outcome State Fault Refusal := jump .jo off s

/-- `js` (R169). -/
def execJs (off : Byte) (s : State) : Host.Outcome State Fault Refusal := jump .js off s

/-- `jne` (R170). -/
def execJne (off : Byte) (s : State) : Host.Outcome State Fault Refusal := jump .jne off s

/-- `jnl` (R171). -/
def execJnl (off : Byte) (s : State) : Host.Outcome State Fault Refusal := jump .jnl off s

/-- `jnle` (R172). -/
def execJnle (off : Byte) (s : State) : Host.Outcome State Fault Refusal := jump .jnle off s

/-- `jnb` (R173). -/
def execJnb (off : Byte) (s : State) : Host.Outcome State Fault Refusal := jump .jnb off s

/-- `jnbe` (R174). -/
def execJnbe (off : Byte) (s : State) : Host.Outcome State Fault Refusal := jump .jnbe off s

/-- `jnp` (R175). -/
def execJnp (off : Byte) (s : State) : Host.Outcome State Fault Refusal := jump .jnp off s

/-- `jno` (R176). -/
def execJno (off : Byte) (s : State) : Host.Outcome State Fault Refusal := jump .jno off s

/-- `jns` (R177). -/
def execJns (off : Byte) (s : State) : Host.Outcome State Fault Refusal := jump .jns off s

/-- `loop` (R178). -/
def execLoop (off : Byte) (s : State) : Host.Outcome State Fault Refusal := jump .loop off s

/-- `loopz` (R179). -/
def execLoopz (off : Byte) (s : State) : Host.Outcome State Fault Refusal := jump .loopz off s

/-- `loopnz` (R180). -/
def execLoopnz (off : Byte) (s : State) : Host.Outcome State Fault Refusal := jump .loopnz off s

/-- `jcxz` (R181). -/
def execJcxz (off : Byte) (s : State) : Host.Outcome State Fault Refusal := jump .jcxz off s

end Sys2Proof.Machine
end

