-- ==== Sys2Proof/Machine/Mov.lean ====
section
/-! DEFINITION. Families MovRegMemToFromReg and MovImmToReg, and the two recognised, unimplemented forms (R210 to R214). No `mov`
is executed (R214): the answer is the descriptor. -/

namespace Sys2Proof.Machine

/-- `mov` register/memory to/from register (R210): 2, 3 or 4 bytes. -/
def execMovRmReg (d w : Bool) (reg : BitVec 3) (f : RmForm) (s : State) : Host.Outcome State Fault Refusal :=
  retire (2 + ndisp f.modField f.rmField)
    (rmRegDescriptor .movRegMemToFromReg .mov (opMovRm d w) d w f.modField reg f.rmField (RmForm.displacement f)) s

/-- `mov` immediate to register (R211): 2 or 3 bytes. -/
def execMovImmReg (w : Bool) (idx : BitVec 3) (imm : Imm) (s : State) : Host.Outcome State Fault Refusal :=
  retire (2 + w.toNat) (movImmDescriptor (opMovImm w idx) w idx (immValue imm)) s

/-- `mov` immediate to register/memory, unimplemented (R212): fails at the opcode byte. -/
def execMovImmRmUnimplemented (_w : Bool) (s : State) : Host.Outcome State Fault Refusal := failAtOpcode s

/-- `mov` accumulator to/from memory, unimplemented (R213): fails at the opcode byte. -/
def execMovAccMemUnimplemented (_d _w : Bool) (s : State) : Host.Outcome State Fault Refusal := failAtOpcode s

end Sys2Proof.Machine
end

