-- ==== Sys2Proof/Machine/Unsupported.lean ====
section
/-! DEFINITION. The failing rows outside the `mov` family (R220 to R228): each is answered with `UnsupportedEncoding`, never a
process-ending failure (R220). System, privileged, I/O and prefix bytes of an 8086 are among them (R222, R223). -/

namespace Sys2Proof.Machine

/-- The F-IRM form with a selector outside the set (R225): fails at the ModRM byte. -/
def execImmRmBadSelector (_sx _w : Bool) (_mod : BitVec 2) (_sel _rm : BitVec 3) (s : State) :
    Host.Outcome State Fault Refusal := failAtModrm s

/-- Every other opcode byte (R220): fails at the opcode byte. -/
def execUnsupportedOpcode (_op : Byte) (s : State) : Host.Outcome State Fault Refusal := failAtOpcode s

end Sys2Proof.Machine
end

