-- ==== Sys2Proof/Machine/Dispatch.lean ====
section
/-! DEFINITION. The dispatch: one arm per constructor of `Instr`, each a direct call of its meaning. -/

namespace Sys2Proof.Machine

def exec (i : Instr) (s : State) : Host.Outcome State Fault Refusal :=
  match i with
  | .je off => Sys2Proof.Machine.execJe off s
  | .jl off => Sys2Proof.Machine.execJl off s
  | .jle off => Sys2Proof.Machine.execJle off s
  | .jb off => Sys2Proof.Machine.execJb off s
  | .jbe off => Sys2Proof.Machine.execJbe off s
  | .jp off => Sys2Proof.Machine.execJp off s
  | .jo off => Sys2Proof.Machine.execJo off s
  | .js off => Sys2Proof.Machine.execJs off s
  | .jne off => Sys2Proof.Machine.execJne off s
  | .jnl off => Sys2Proof.Machine.execJnl off s
  | .jnle off => Sys2Proof.Machine.execJnle off s
  | .jnb off => Sys2Proof.Machine.execJnb off s
  | .jnbe off => Sys2Proof.Machine.execJnbe off s
  | .jnp off => Sys2Proof.Machine.execJnp off s
  | .jno off => Sys2Proof.Machine.execJno off s
  | .jns off => Sys2Proof.Machine.execJns off s
  | .loop off => Sys2Proof.Machine.execLoop off s
  | .loopz off => Sys2Proof.Machine.execLoopz off s
  | .loopnz off => Sys2Proof.Machine.execLoopnz off s
  | .jcxz off => Sys2Proof.Machine.execJcxz off s
  | .addRmReg d w reg rm => Sys2Proof.Machine.execAddRmReg d w reg rm s
  | .subRmReg d w reg rm => Sys2Proof.Machine.execSubRmReg d w reg rm s
  | .cmpRmReg d w reg rm => Sys2Proof.Machine.execCmpRmReg d w reg rm s
  | .addImmRm sx w rm imm => Sys2Proof.Machine.execAddImmRm sx w rm imm s
  | .subImmRm sx w rm imm => Sys2Proof.Machine.execSubImmRm sx w rm imm s
  | .cmpImmRm sx w rm imm => Sys2Proof.Machine.execCmpImmRm sx w rm imm s
  | .addImmAcc w imm => Sys2Proof.Machine.execAddImmAcc w imm s
  | .subImmAcc w imm => Sys2Proof.Machine.execSubImmAcc w imm s
  | .cmpImmAcc w imm => Sys2Proof.Machine.execCmpImmAcc w imm s
  | .movRmReg d w reg rm => Sys2Proof.Machine.execMovRmReg d w reg rm s
  | .movImmReg w idx imm => Sys2Proof.Machine.execMovImmReg w idx imm s
  | .movImmRmUnimplemented w => Sys2Proof.Machine.execMovImmRmUnimplemented w s
  | .movAccMemUnimplemented d w => Sys2Proof.Machine.execMovAccMemUnimplemented d w s
  | .immRmBadSelector sx w mod sel rm => Sys2Proof.Machine.execImmRmBadSelector sx w mod sel rm s
  | .unsupportedOpcode op => Sys2Proof.Machine.execUnsupportedOpcode op s

end Sys2Proof.Machine
end

