-- ==== Sys2Proof/Machine/Step.lean ====
section
/-! DEFINITION. One step: one request for `decode_next` (R120). The bytes at `pos` are decoded and the instruction's meaning runs;
where there is no opcode byte the clean end is answered (R121), and where the stream ends inside an instruction the truncation
(R254). -/

namespace Sys2Proof.Machine

def step (s : State) : Host.Outcome State Fault Refusal :=
  match decode s.window with
  | .ok p => exec p.1 s
  | .error .noByte => endOfStream s
  | .error (.cut got) => cutShort got s

/-- `s` with an instruction, given as a table word, standing where the next step fetches: in the stream at `pos`, at an
instruction boundary, with end of stream not yet seen (log 20). -/
def State.withFetchWord (s : State) (nbits w : Nat) : State :=
  { s with src := s.src.place s.pos (tableBytes nbits w), used := 8, eos := false, serial := .opcode }

end Sys2Proof.Machine
end

