-- ==== Sys2Proof/Machine/DecodeNext.lean ====
section
/-! DEFINITION. `decode_next` as the spec's pseudocode has it (R121 to R123, R140 to R149, R161, R191 to R193, R210, R211): a walk
over the stream by `advance_byte`, `peek` and `take`. The step (Machine/Step.lean) reads the same instruction from the opcode map;
that the two agree is an obligation. -/

namespace Sys2Proof.Machine

/-- `read_modrm()` (R140). -/
def readModrm (s : State) : Walk (BitVec 2 × BitVec 3 × BitVec 3) :=
  (needByte s).bind fun _ s => (take 2 s).bind fun mod s => (take 3 s).bind fun reg s => (take 3 s).bind fun rm s =>
    .ok (mod, reg, rm) s

/-- `rm_operand(w, mod, rm)`, the part that fetches: the displacement (R142 to R147). -/
def fetchDisp (mod : BitVec 2) (rm : BitVec 3) (s : State) : Walk Displacement :=
  if mod = 0b11 then .ok .none s
  else if mod = 0b00 then
    if rm = 0b110 then (fetch16 s).bind fun a s => .ok (.direct16 a) s else .ok .none s
  else if mod = 0b01 then (fetch8 s).bind fun b s => .ok (disp8 b) s
  else (fetch16 s).bind fun v s => .ok (.relative16 v) s

/-- `jump(mnem)` (R161), entered with the opcode byte peeked and not consumed. -/
def walkJump (start : Nat) (op : Byte) (j : JumpName) (s : State) : Walk Instruction :=
  (take 8 s).bind fun _ s => (fetch8 s).bind fun b s => .ok (jumpDescriptor j op b start) s

/-- `arith_rm_reg` (R191) and `mov_rm_reg` (R210), with `two_operands` (R148). -/
def walkRmReg (family : OpcodeFamily) (mnemonic : Mnemonic) (start : Nat) (op : Byte) (d w : Bool) (s : State) :
    Walk Instruction :=
  (readModrm s).bind fun m s => (fetchDisp m.1 m.2.2 s).bind fun disp s =>
    .ok (rmRegDescriptor family mnemonic op d w m.1 m.2.1 m.2.2 disp start) s

/-- `arith_imm_rm` (R192). -/
def walkImmRm (start : Nat) (op : Byte) (sx w : Bool) (s : State) : Walk Instruction :=
  (readModrm s).bind fun m s =>
    match selectOp m.2.1 with
    | none => unsupported s
    | some o => (fetchDisp m.1 m.2.2 s).bind fun disp s =>
        if sx = false ∧ w = true then
          (fetch16 s).bind fun v s => .ok (immRmDescriptor o op sx w m.1 m.2.1 m.2.2 disp v start) s
        else
          (fetch8 s).bind fun b s =>
            .ok (immRmDescriptor o op sx w m.1 m.2.1 m.2.2 disp (if sx then sext16 b else zext16 b) start) s

/-- The immediate of the accumulator and register forms (R193, R211): two bytes when `w = 1`, else one, zero-extended. -/
def fetchImm (w : Bool) (s : State) : Walk Word :=
  if w then fetch16 s else (fetch8 s).bind fun b s => .ok (zext16 b) s

/-- `arith_imm_acc` (R193). -/
def walkImmAcc (start : Nat) (op : Byte) (o : ArithOp) (w : Bool) (s : State) : Walk Instruction :=
  (fetchImm w s).bind fun v s => .ok (immAccDescriptor o op w v start) s

/-- `mov_imm_reg` (R211). -/
def walkMovImm (start : Nat) (op : Byte) (w : Bool) (idx : BitVec 3) (s : State) : Walk Instruction :=
  (fetchImm w s).bind fun v s => .ok (movImmDescriptor op w idx v start) s

/-- A one-bit `take` as a Boolean. -/
def takeBit (s : State) : Walk Bool := (take 1 s).bind fun b s => .ok (b == 1) s

/-- The branch of `classify()` for `op[7] = 0` (R123), with that bit taken. -/
def classifyLow (start : Nat) (op : Byte) (s : State) : Walk Instruction :=
  (takeBit s).bind fun b6 s => if b6 then unsupported s else
  (take 3 s).bind fun sel s =>
    match selectOp sel with
    | none => unsupported s
    | some o => (takeBit s).bind fun form s =>
        if form = false then
          (takeBit s).bind fun d s => (takeBit s).bind fun w s =>
            walkRmReg .addSubCmpRegMemWithReg (.arith o) start op d w s
        else
          (takeBit s).bind fun b1 s => if b1 then unsupported s else
            (takeBit s).bind fun w s => walkImmAcc start op o w s

/-- The branch of `classify()` for `op[7] = 1` (R123), with that bit taken. -/
def classifyHigh (start : Nat) (op : Byte) (s : State) : Walk Instruction :=
  (peek 5 s).bind fun p5 s =>
    if p5 = 0b00000 then
      (take 5 s).bind fun _ s => (takeBit s).bind fun sx s => (takeBit s).bind fun w s => walkImmRm start op sx w s
    else if p5 = 0b00010 then
      (take 5 s).bind fun _ s => (takeBit s).bind fun d s => (takeBit s).bind fun w s =>
        walkRmReg .movRegMemToFromReg .mov start op d w s
    else (peek 3 s).bind fun p3 s =>
      if p3 = 0b011 then
        (take 3 s).bind fun _ s => (takeBit s).bind fun w s => (take 3 s).bind fun idx s => walkMovImm start op w idx s
      else unsupported s

/-- `classify()` (R123), entered with `used = 0`. -/
def classifyWalk (start : Nat) (op : Byte) (s : State) : Walk Instruction :=
  (takeBit s).bind fun b7 s => if b7 then classifyHigh start op s else classifyLow start op s

/-- "Exact full-byte match against the fixed table of 20 single-byte jump/loop opcodes" (R122). -/
def lookupJump (op : Byte) : Option JumpName := (jumpTable.find? (·.1 == op)).map (·.2)

/-- `decode_next()` (R121, R122) up to its answer. -/
def decodeNextWalk (s : State) : Walk Instruction :=
  (openRequest s).bind fun start s => (peek 8 s).bind fun op s =>
    match lookupJump op with
    | some j => walkJump start op j s
    | none => classifyWalk start op s

/-- `decode_next()`: the walk, and its answer handed to the caller. -/
def decodeNext (s : State) : Host.Outcome State Fault Refusal := finish (decodeNextWalk s)

end Sys2Proof.Machine
end

