-- ==== Sys2Proof/Machine/Ports.lean ====
section
/-! DEFINITION. The suggested ports (R46, R73) as functions of the answers: they "add nothing" to the behaviour and "carry no
timing". A request (`dec_req`) is one `decode_next`; `src_ready` is asserted exactly when `advance_byte` asks the source. -/

namespace Sys2Proof.Machine

/-- The decoder's side of an answer (R46). `resInstr`, `resOffset` and `resByte` hold a value where R46 calls them meaningful. -/
structure ResPort where
  resValid : Bool
  resStatus : BitVec 2
  resInstr : Option Instruction
  resOffset : Option Nat
  resByte : Option Byte
  deriving DecidableEq, Repr

/-- `res_status` (R258): 0 `Ok`, 1 `EndOfStream`, 2 `UnsupportedEncoding`, 3 `MalformedStream`. -/
def resStatus : DecodeResult → BitVec 2
  | .ok _ => 0
  | .fail .endOfStream => 1
  | .fail (.unsupportedEncoding _ _) => 2
  | .fail (.malformedStream _) => 3

/-- The signals of one answer (R46). -/
def resPort (r : DecodeResult) : ResPort where
  resValid := true
  resStatus := resStatus r
  resInstr :=
    match r with
    | .ok i => some i
    | .fail _ => none
  resOffset :=
    match r with
    | .fail (.unsupportedEncoding o _) => some o
    | .fail (.malformedStream o) => some o
    | .fail .endOfStream | .ok _ => none
  resByte :=
    match r with
    | .fail (.unsupportedEncoding _ b) => some b
    | .fail (.malformedStream _) | .fail .endOfStream | .ok _ => none

/-- The source's side of a transfer (R73). -/
structure SrcPort where
  srcValid : Bool
  srcData : Option Byte
  srcEnd : Bool
  deriving DecidableEq, Repr

/-- The signals of one answer of the source (R73): `src_end` is "never asserted together with `src_valid`". -/
def srcPort : SrcAnswer → SrcPort
  | .byte b => ⟨true, some b, false⟩
  | .atEnd => ⟨false, none, true⟩

/-- `src_ready` during an `advance_byte` (R54, R72, R73): the source is asked unless it has answered `End`. -/
def srcReady (s : State) : Bool := !s.eos

end Sys2Proof.Machine
end

