-- ==== Sys2Proof/Machine/Serial.lean ====
section
/-! DEFINITION. The byte-serial state machine (R125, R126): the same State, one byte request per step. "This table is a restatement
... not a second definition"; that a walk of it from `S_OPCODE` back to `S_OPCODE` equals one step of the machine is an
obligation. -/

namespace Sys2Proof.Machine

/-- The row of rule R125 for the byte just received has gone on to another state, or has emitted an answer and is back in
`S_OPCODE`. -/
def State.goto (s : State) (st : SerialState) : State := { s with serial := st }

/-- "emit": hand the answer over and go to `S_OPCODE` (R125). -/
def State.emit (s : State) (r : DecodeResult) : State := (s.answer r).goto .opcode

/-- `S_OPCODE` on a byte: latch what the opcode byte gives and go on, or emit `UnsupportedEncoding` (R125). -/
def serialOpcode (b : Byte) (s : State) : State :=
  let start := s.pos - 1
  match classify b with
  | .jump j => s.goto (.jumpOffset start b j)
  | .arithRm o => s.goto (.modrm start b (.arith o (bitOf b 1) (bitOf b 0)))
  | .movRm => s.goto (.modrm start b (.mov (bitOf b 1) (bitOf b 0)))
  | .immRm => s.goto (.modrm start b (.imm (bitOf b 1) (bitOf b 0)))
  | .arithAcc o => s.goto (.immLo (.acc start b o (bitOf b 0)))
  | .movImm => s.goto (.immLo (.reg start b (bitOf b 3) (rmOf b)))
  | .movImmRmUnimplemented | .movAccMemUnimplemented | .other => s.emit (.fail (.unsupportedEncoding (s.pos - 1) b))

/-- What follows a finished displacement (R125): F-RM emits `Ok`, F-IRM awaits its immediate. -/
def serialDisp (m : ModrmLatch) (disp : Displacement) (s : State) : State :=
  match m.kind with
  | .arith o d w =>
    s.emit (.ok (rmRegDescriptor .addSubCmpRegMemWithReg (.arith o) m.opcode d w m.mod m.reg m.rm disp m.start))
  | .mov d w => s.emit (.ok (rmRegDescriptor .movRegMemToFromReg .mov m.opcode d w m.mod m.reg m.rm disp m.start))
  | .imm sx w =>
    match selectOp m.reg with
    | some o => s.goto (.immLo (.rm m o sx w disp))
    | none => s.emit (.fail (.unsupportedEncoding (s.pos - 1) s.cur))

/-- Whether a ModRM byte's selector fails its instruction (R225). -/
def selectorFails (kind : RmKind) (reg : BitVec 3) : Bool :=
  match kind with
  | .imm _ _ => (selectOp reg).isNone
  | .arith _ _ _ | .mov _ _ => false

/-- `S_MODRM` on a byte (R125). -/
def serialModrm (start : Nat) (op : Byte) (kind : RmKind) (b : Byte) (s : State) : State :=
  let m : ModrmLatch := ⟨start, op, kind, modOf b, regOf b, rmOf b⟩
  if selectorFails kind m.reg then s.emit (.fail (.unsupportedEncoding (s.pos - 1) b))
  else if ndisp m.mod m.rm > 0 then s.goto (.dispLo m)
  else serialDisp m .none s

/-- `S_DISP_HI` on a byte: "displacement or direct address is `b:latched`" (R125, R150). -/
def dispOfWord (mod : BitVec 2) (v : Word) : Displacement := if mod = 0b00 then .direct16 v else .relative16 v

/-- Whether an immediate has a second byte (R125, `S_IMM_LO`). -/
def ImmLatch.wide : ImmLatch → Bool
  | .acc _ _ _ w => w
  | .reg _ _ w _ => w
  | .rm _ _ sx w _ => wideImmRm sx w

/-- The value of a one-byte immediate (R125, `S_IMM_LO`): sign-extended for F-IRM with `s = 1`, zero-extended otherwise. -/
def ImmLatch.byteValue (b : Byte) : ImmLatch → Word
  | .acc _ _ _ _ | .reg _ _ _ _ => zext16 b
  | .rm _ _ sx _ _ => if sx then sext16 b else zext16 b

/-- The descriptor of an instruction whose immediate is finished. -/
def ImmLatch.descriptor (v : Word) : ImmLatch → Instruction
  | .acc start op o w => immAccDescriptor o op w v start
  | .reg start op w idx => movImmDescriptor op w idx v start
  | .rm m o sx w disp => immRmDescriptor o m.opcode sx w m.mod m.reg m.rm disp v m.start

/-- The column "On `Byte(b)`" of rule R125, with the byte already in `cur` and consumed. -/
def serialByte (b : Byte) (s : State) : State :=
  match s.serial with
  | .opcode => serialOpcode b s
  | .jumpOffset start op j => s.emit (.ok (jumpDescriptor j op b start))
  | .modrm start op kind => serialModrm start op kind b s
  | .dispLo m => if ndisp m.mod m.rm = 2 then s.goto (.dispHi m b) else serialDisp m (disp8 b) s
  | .dispHi m lo => serialDisp m (dispOfWord m.mod (concatBytes b lo)) s
  | .immLo l => if l.wide then s.goto (.immHi l b) else s.emit (.ok (l.descriptor (l.byteValue b)))
  | .immHi l lo => s.emit (.ok (l.descriptor (concatBytes b lo)))

/-- The column "On `End`" of rule R125. -/
def serialEnd (s : State) : State :=
  match s.serial with
  | .opcode => s.emit (.fail .endOfStream)
  | .jumpOffset _ _ _ | .modrm _ _ _ | .dispLo _ | .dispHi _ _ | .immLo _ | .immHi _ _ =>
    s.emit (.fail (.malformedStream s.pos))

/-- One byte request of the byte-serial machine (R125). -/
def serialStep (s : State) : Host.Outcome State Fault Refusal :=
  match advanceByte s with
  | .ok _ s => if s.eos then .next (serialEnd s) else .next (serialByte s.cur { s with used := 8 })
  | .fail o s => .next (s.emit (.fail o))
  | .fault f => .fault f

/-- Byte requests until the machine is back in `S_OPCODE`, at most `n`. -/
def serialWalk : Nat → State → Host.Outcome State Fault Refusal
  | 0, s => .next s
  | n + 1, s =>
    if s.serial = .opcode then .next s
    else
      match serialStep s with
      | .next s => serialWalk n s
      | .fault f => .fault f
      | .refused r => .refused r

/-- One whole request: the first byte request, made in `S_OPCODE`, and those after it. "No state is visited twice in one walk" and
the longest walk has six bytes (R126). -/
def serialDecode (s : State) : Host.Outcome State Fault Refusal :=
  match serialStep s with
  | .next s => serialWalk (Config.longest - 1) s
  | .fault f => .fault f
  | .refused r => .refused r

end Sys2Proof.Machine
end

