-- ==== Sys2Proof/Machine/Formatter.lean ====
section
/-! DEFINITION. The reference text form (R230 to R244): a pure function of the descriptor, outside the hardware block (R7), kept
because the scenarios state their results as text. -/

namespace Sys2Proof.Machine

/-- The name of a jump or loop (R35, R160). -/
def jumpText : JumpName → String
  | .je => "je" | .jl => "jl" | .jle => "jle" | .jb => "jb" | .jbe => "jbe" | .jp => "jp" | .jo => "jo" | .js => "js"
  | .jne => "jne" | .jnl => "jnl" | .jnle => "jnle" | .jnb => "jnb" | .jnbe => "jnbe" | .jnp => "jnp" | .jno => "jno"
  | .jns => "jns" | .loop => "loop" | .loopz => "loopz" | .loopnz => "loopnz" | .jcxz => "jcxz"

/-- The lower-case mnemonic (R35, R232). -/
def mnemonicText : Mnemonic → String
  | .mov => "mov"
  | .arith .add => "add"
  | .arith .sub => "sub"
  | .arith .cmp => "cmp"
  | .jump j => jumpText j

/-- The byte register names in index order (R29). -/
def byteNames : List String := ["al", "cl", "dl", "bl", "ah", "ch", "dh", "bh"]

/-- The word register names in index order (R29). -/
def wordNames : List String := ["ax", "cx", "dx", "bx", "sp", "bp", "si", "di"]

/-- `regname(w, idx)` (R29, R233). -/
def regname (w : Bool) (idx : BitVec 3) : String := (if w then wordNames else byteNames).getD idx.toNat ""

/-- `base_expr(rm)` (R30; the spec's general knowledge G2, log 7). -/
def baseExpr (rm : BitVec 3) : String :=
  ["bx + si", "bx + di", "bp + si", "bp + di", "si", "di", "bp", "bx"].getD rm.toNat ""

/-- One decimal digit. -/
def digit (n : Nat) : Char := ['0', '1', '2', '3', '4', '5', '6', '7', '8', '9'].getD n '0'

/-- The decimal digits of a number below `10 ^ fuel`, most significant first. -/
def decDigits : Nat → Nat → List Char
  | 0, _ => []
  | fuel + 1, n => if n < 10 then [digit n] else decDigits fuel (n / 10) ++ [digit (n % 10)]

/-- `dec(n)` for `0 <= n <= 65535` (R240): the shortest decimal numeral, at most five digits. -/
def dec (n : Nat) : String := String.ofList (decDigits 5 n)

/-- A jump offset (R239): a leading `-` for negative values, no sign otherwise. -/
def signedDec (v : Word) : String :=
  if signed16 v < 0 then "-" ++ dec (-(signed16 v)).toNat else dec (signed16 v).toNat

/-- An operand's text (R233 to R239). `offset` says that an immediate is a jump offset and is shown signed. -/
def operandText (offset : Bool) : Operand → String
  | .register w idx => regname w idx
  | .accumulator w => if w then "ax" else "al"
  | .memoryIndirect base .none => "[" ++ baseExpr base ++ "]"
  | .memoryIndirect base (.relative8Extended v) => "[" ++ baseExpr base ++ " + " ++ dec v.toNat ++ "]"
  | .memoryIndirect base (.relative16 v) => "[" ++ baseExpr base ++ " + " ++ dec v.toNat ++ "]"
  | .memoryIndirect _ (.direct16 a) => "[" ++ dec a.toNat ++ "]"
  | .memoryDirect a => "[" ++ dec a.toNat ++ "]"
  | .immediate v => if offset then signedDec v else dec v.toNat

/-- Operands in order, separated by a comma and one space (R231). -/
def operandsText (offset : Bool) (ops : List Operand) : String := ", ".intercalate (ops.map (operandText offset))

/-- `format` (R230, R231): the mnemonic, one space, the operands. -/
def format (i : Instruction) : String :=
  mnemonicText i.mnemonic ++ " " ++ operandsText (i.family = .conditionalJumpOrLoop) i.operands

end Sys2Proof.Machine
end

