-- ==== Sys2Proof/Machine/Driver.lean ====
section
/-! DEFINITION. The caller's loop (R285) and the end of a run (R19). The caller is environment, not part of the hardware (R7): the
step does not depend on it. -/

namespace Sys2Proof.Machine

/-- Whether the caller stops after an answer (R19, R285): at the clean end, at a truncation, and at an `UnsupportedEncoding` under
the policy `abort` (R11). -/
def callerStops (policy : OnUnsupported) : DecodeResult → Bool
  | .ok _ => false
  | .fail .endOfStream => true
  | .fail (.malformedStream _) => true
  | .fail (.unsupportedEncoding _ _) => policy = .abort

/-- Whether the caller stops, by the latest answer. -/
def State.callerDone (policy : OnUnsupported) (s : State) : Bool :=
  match s.results.getLast? with
  | some r => callerStops policy r
  | none => false

/-- At most `n` requests, stopping as the caller does (R285). -/
def driver (policy : OnUnsupported) : Nat → State → Host.Outcome State Fault Refusal
  | 0, s => .next s
  | n + 1, s =>
    match step s with
    | .next s => if s.callerDone policy then .next s else driver policy n s
    | .fault f => .fault f
    | .refused r => .refused r

/-- A whole run (R19): one request more than there are bytes left is enough, since each request consumes a byte or ends the run. -/
def run (policy : OnUnsupported) (s : State) : Host.Outcome State Fault Refusal := driver policy (s.src.size + 1 - s.pos) s

/-- The lines the caller emits (R231, R244, R285): one for each `Ok` answer, none for a failure. -/
def emittedLines (rs : List DecodeResult) : List String :=
  rs.filterMap fun
    | .ok i => some (format i)
    | .fail _ => none

end Sys2Proof.Machine
end

