-- ==== Sys2Proof/Safety.lean ====
section
/-! DEFINITION. What a safe state and a sound list of answers are, in the terms the statements use. -/

namespace Sys2Proof.Machine

/-- The cursor invariants (R26, R50): the stream is in canonical form, `0 <= used <= 8`, `pos` has not passed the end, `eos` means
that the end has been reached, and once a byte has been fetched `cur` is the byte at `pos - 1`. -/
structure State.Inv (s : State) : Prop where
  srcWf : s.src.wf = true
  usedLe : s.used ≤ 8
  posLe : s.pos ≤ s.src.size
  eosAtEnd : s.eos = true → s.pos = s.src.size
  curIsLast : 0 < s.pos → s.src.read (s.pos - 1) = some s.cur

/-- The instruction boundary (R27, R45): the current byte is consumed and no byte-serial walk is in progress. -/
structure State.Boundary (s : State) : Prop where
  used : s.used = 8
  serial : s.serial = .opcode

/-- The stream holds `bs` from `pos` on. -/
def State.Holds (s : State) (bs : List Byte) : Prop := ∀ k, k < bs.length → s.src.read (s.pos + k) = bs[k]?

/-- At a boundary, with end of stream not seen, and the bytes `bs` next in the stream. -/
structure State.Ready (s : State) (bs : List Byte) : Prop where
  boundary : s.Boundary
  open_ : s.eos = false
  holds : s.Holds bs

/-- The cursor after the bytes `bs` have been fetched and consumed (R128): `cur` the last of them, `used = 8`, `pos` past them. -/
def State.passed (s : State) (bs : List Byte) : State :=
  { s with cur := bs.getLastD s.cur, used := 8, pos := s.pos + bs.length }

/-- The state once the source has answered `End` (R54): `eos` is set, everything else keeps its value (D6; log 11). -/
def State.ended (s : State) : State := { s with eos := true }

/-- An instruction that is decoded: where the stream holds its bytes, they are consumed and the descriptor is answered; where the
stream holds only the first `k` of them and ends, `MalformedStream` is answered. (What the state is then is the statement
TruncatedExecutionIsMalformed.) -/
def Retires (i : Instr) (descriptor : Nat → Instruction) : Prop :=
  (∀ s : State, s.Ready (encode i) → exec i s = .next ((s.passed (encode i)).answer (.ok (descriptor s.pos)))) ∧
  ∀ (s : State) (k : Nat), 0 < k → k < (encode i).length → s.Ready ((encode i).take k) → s.src.read (s.pos + k) = none →
    ∃ t o, exec i s = .next t ∧ t.results = s.results ++ [.fail (.malformedStream o)]

/-- The failing opcode bytes, by the ranges of rule R221. -/
def failingOpcode (op : Byte) : Bool :=
  let n := op.toNat
  (0x06 ≤ n && n ≤ 0x27) || (0x2E ≤ n && n ≤ 0x37) || (0x3E ≤ n && n ≤ 0x6F) || (0x84 ≤ n && n ≤ 0x87) ||
  (0x8C ≤ n && n ≤ 0xAF) || (0xC0 ≤ n && n ≤ 0xDF) || 0xE4 ≤ n

/-- The F-IRM opcode bytes 0x80 to 0x83 (R87). -/
def immRmOpcode (op : Byte) : Bool := 0x80 ≤ op.toNat && op.toNat ≤ 0x83

/-- A ModRM byte whose bits `[5:3]` are 001, 010, 011, 100 or 110 (R225). -/
def failingSelector (m : Byte) : Bool := m.extractLsb' 3 3 ∈ [0b001#3, 0b010#3, 0b011#3, 0b100#3, 0b110#3]

/-- The opcode bytes of the forms with a ModRM byte (R85, R87, R88). -/
def hasModrm (op : Byte) : Bool :=
  let n := op.toNat
  n ≤ 0x03 || (0x28 ≤ n && n ≤ 0x2B) || (0x38 ≤ n && n ≤ 0x3B) || (0x80 ≤ n && n ≤ 0x83) || (0x88 ≤ n && n ≤ 0x8B)

/-- The length of a decodable instruction by rules R95 to R99, from its opcode byte and, where it has one, its ModRM byte `m`. -/
def lengthByRules (op m : Byte) : Nat :=
  let mod := m.extractLsb' 6 2
  let disp := if mod = 0b01 then 1 else if mod = 0b10 ∨ (mod = 0b00 ∧ m.extractLsb' 0 3 = 0b110#3) then 2 else 0
  if immRmOpcode op then 2 + disp + (if op = 0x81 then 2 else 1)
  else if hasModrm op then 2 + disp
  else if op ∈ [0x05#8, 0x2D#8, 0x3D#8] ∨ (0xB8 ≤ op.toNat ∧ op.toNat ≤ 0xBF) then 3
  else 2

/-- Where the stream stands after an answer given at offset `a`, if the answer fits there (the last row of Part 5 of the test
vectors; R128): an instruction starts at `a` and passes its length; an `UnsupportedEncoding` reports the byte at `a` or the one
after it, and the next instruction is sought after that byte (R264); a truncation reports the end (R255); the clean end passes
nothing (R251). -/
def DecodeResult.advance (a : Nat) : DecodeResult → Option Nat
  | .ok i => if i.fields.start = a ∧ 2 ≤ i.fields.length ∧ i.fields.length ≤ 6 then some (a + i.fields.length) else none
  | .fail .endOfStream => some a
  | .fail (.unsupportedEncoding o _) => if o = a ∨ o = a + 1 then some (o + 1) else none
  | .fail (.malformedStream n) => if a < n ∧ n ≤ a + 5 then some n else none

/-- Where the stream stands after a list of answers that begins at offset `a`, if each fits where the one before it ended. -/
def tile : Nat → List DecodeResult → Option Nat
  | a, [] => some a
  | a, r :: rs => (r.advance a).bind fun b => tile b rs

/-- The answers given so far account for every byte fetched, without gap or overlap. -/
def State.Tiled (s : State) : Prop := tile 0 s.results = some s.pos

/-- An operand that names memory. -/
def Operand.isMemory : Operand → Bool
  | .memoryIndirect _ _ | .memoryDirect _ => true
  | .register _ _ | .immediate _ | .accumulator _ => false

/-- An `Immediate` operand. -/
def Operand.isImmediate : Operand → Bool
  | .immediate _ => true
  | .register _ _ | .memoryIndirect _ _ | .memoryDirect _ | .accumulator _ => false

/-- An operand as rule R37 has it: "a `Direct16(a)` never appears inside a `MemoryIndirect`". -/
def Operand.wellShaped : Operand → Bool
  | .memoryIndirect _ (.direct16 _) => false
  | .memoryIndirect _ .none | .memoryIndirect _ (.relative8Extended _) | .memoryIndirect _ (.relative16 _) => true
  | .register _ _ | .memoryDirect _ | .immediate _ | .accumulator _ => true

/-- The shape of an `Instruction` (R34, R37, R39): one `Immediate` operand for a jump or loop, two operands for every other family,
at most one memory operand and at most one `Immediate`; the tag `MovImmToRegMem` never occurs. -/
def Instruction.wellShaped (i : Instruction) : Bool :=
  i.operands.all Operand.wellShaped &&
  i.operands.countP Operand.isMemory ≤ 1 && i.operands.countP Operand.isImmediate ≤ 1 &&
  match i.family with
  | .conditionalJumpOrLoop => i.operands.length = 1 && i.operands.all Operand.isImmediate
  | .movImmToRegMem => false
  | .movRegMemToFromReg | .movImmToReg | .addSubCmpRegMemWithReg | .addSubCmpImmToRegMem | .addSubCmpImmToAcc =>
    i.operands.length = 2

end Sys2Proof.Machine
end

