-- ==== Sys2Proof/Certificates/Slice0/Obligations.lean ====
section
/-! DEFINITION. The statements for the provers. Each docstring names the rules it formalises. "Decision D<n>" is a row of
spec/92_eei_decisions.md: the spec marks the point as its own choice, so a statement that rests on it has basis `derived`. -/

open Sys2Proof Sys2Proof.Machine

/-! ## Reset and the invariants -/

/-- R43, R280, R282: reset is an instruction boundary at offset 0 with end of stream not seen (the spec's own choice, decision D10;
log 4). Nothing is said of `cur` (U6). -/
def Obligations.ResetStandsAtABoundaryAtOffsetZero : Prop :=
  State.reset.Boundary ∧ State.reset.eos = false ∧ State.reset.pos = 0 ∧ State.reset.results = [] ∧
  ∀ bs : List Byte, (State.boot bs).Boundary ∧ (State.boot bs).eos = false ∧ (State.boot bs).pos = 0 ∧
    ∀ a, (State.boot bs).src.read a = bs[a]?

/-- R26: the invariants hold after reset, whatever stream is bound. -/
def Obligations.ResetSatisfiesTheCursorInvariants : Prop :=
  State.reset.Inv ∧ State.reset.Tiled ∧ ∀ bs : List Byte, (State.boot bs).Inv ∧ (State.boot bs).Tiled

/-- R26, R128: every step keeps the cursor invariants, and it ends at an instruction boundary. -/
def Obligations.StepKeepsTheCursorInvariants : Prop :=
  ∀ s t : State, s.Inv → step s = .next t → t.Inv ∧ t.Boundary

/-- R26: every byte request of the byte-serial machine keeps the cursor invariants. -/
def Obligations.ByteRequestKeepsTheCursorInvariants : Prop :=
  ∀ s t : State, s.Inv → serialStep s = .next t → t.Inv

/-- R26: every cursor operation that meets its precondition keeps the invariants, and none of them adds an answer. -/
def Obligations.CursorOperationsKeepTheInvariants : Prop :=
  ∀ s : State, s.Inv →
    (∀ t, advanceByte s = .ok () t → t.Inv ∧ t.results = s.results) ∧
    (∀ n v t, peek n s = .ok v t → t = s) ∧
    (∀ n v t, take n s = .ok v t → t.Inv ∧ t.results = s.results) ∧
    (∀ b t, fetch8 s = .ok b t → t.Inv ∧ t.results = s.results ∧ t.used = 8 ∧ t.cur = b) ∧
    (∀ o t, (unsupported s : Walk Unit) = .fail o t → t.Inv ∧ t.results = s.results)

/-- R128, R129, and the last row of Part 5 of the test vectors: the answers account for every byte fetched, without gap or overlap,
and every step keeps that so. Where an answer leaves the stream rests on the spec's own choices: `MalformedStream` reports the end of
the stream (decision D16; log 12), and `UnsupportedEncoding` is raised at and reports the opcode byte or, for a bad F-IRM selector,
the ModRM byte (decisions D13, D14; log 10). -/
def Obligations.StepKeepsTheAnswersTiled : Prop :=
  ∀ s t : State, s.Tiled → step s = .next t → t.Tiled

/-- R130: a request at a boundary always completes with exactly one more answer and never faults. -/
def Obligations.RequestAtABoundaryIsAlwaysAnswered : Prop :=
  ∀ s : State, s.Boundary → ∃ t r, step s = .next t ∧ t.Boundary ∧ t.results = s.results ++ [r]

/-- R289, R290 (decision D18; log 6): a request away from a boundary is a fault, named. -/
def Obligations.RequestOffTheBoundaryFaults : Prop :=
  ∀ s : State,
    (s.serial ≠ .opcode → step s = .fault .requestInProgress) ∧
    (s.serial = .opcode → s.used ≠ 8 → step s = .fault .advanceWithUnreadBits)

/-! ## The step -/

/-- A step runs the instruction that the bytes at `pos` decode to; without an opcode byte it answers the clean end, and a
truncated instruction is cut short. -/
def Obligations.StepRunsTheDecodedInstruction : Prop :=
  ∀ s : State,
    (∀ i rest, decode s.window = .ok (i, rest) → step s = exec i s) ∧
    (decode s.window = .error .noByte → step s = endOfStream s) ∧
    (∀ n, decode s.window = .error (.cut n) → step s = cutShort n s)

/-- Where the stream holds the encoding of a well-formed instruction, the step is that instruction's meaning. -/
def Obligations.StepExecutesTheEncodedInstruction : Prop :=
  ∀ (i : Instr) (s : State), i.wf = true → s.Ready (encode i) → step s = exec i s

/-- R121, R251: `EndOfStream` is answered exactly when the request finds no opcode byte; `eos` is then set and the rest of the cursor
keeps its values (decision D6; log 11). -/
def Obligations.EndOfStreamIsAnsweredExactlyWhenNoByteIsPending : Prop :=
  ∀ s : State, s.Boundary →
    ((s.eos = true ∨ s.src.read s.pos = none) →
      step s = .next (State.answer s.ended (.fail .endOfStream))) ∧
    ∀ t, step s = .next t → t.results = s.results ++ [.fail .endOfStream] → s.eos = true ∨ s.src.read s.pos = none

/-- R23, R121 (decision D6; log 11): once `eos` is set it stays set, and every later request is answered `EndOfStream`. -/
def Obligations.EndOfStreamStaysSet : Prop :=
  ∀ (k : Nat) (s : State), s.Boundary → s.eos = true →
    Host.Core.run core k s = .next { s with results := s.results ++ List.replicate k (.fail .endOfStream) }

/-- R254, R255, R263 (decisions D6, D16; logs 11, 12): a stream that ends inside an instruction is answered `MalformedStream` with the
stream's length; its bytes are consumed and `eos` is set. -/
def Obligations.TruncatedInstructionIsMalformed : Prop :=
  ∀ (s : State) (bs : List Byte) (n : Nat), s.Ready bs → decode bs = .error (.cut n) → s.src.read (s.pos + bs.length) = none →
    step s = .next (State.answer (s.passed bs).ended (.fail (.malformedStream (s.pos + bs.length))))

/-- The same for every instruction as `exec` runs it: where the stream holds the first `k` bytes of its encoding and ends, they are
consumed, the end is seen, and `MalformedStream` is answered with the offset of the missing byte (decisions D6, D16; logs 11, 12). -/
def Obligations.TruncatedExecutionIsMalformed : Prop :=
  ∀ (i : Instr) (s : State) (k : Nat), i.wf = true → 0 < k → k < (encode i).length → s.Ready ((encode i).take k) →
    s.src.read (s.pos + k) = none →
    exec i s = .next (State.answer (s.passed ((encode i).take k)).ended (.fail (.malformedStream (s.pos + k))))

/-- R129: `decode_next` is a function of the cursor state and the stream contents from `pos` on; neither `cur`, nor the bytes before
`pos`, nor what was answered before matters. Over any number of requests, two such runs return the same list of new results, and the
results before them stand. -/
def Obligations.AnswersDependOnTheStreamFromPosOn : Prop :=
  ∀ (k : Nat) (s t s' : State), t.pos = s.pos → t.used = s.used → t.eos = s.eos → t.serial = s.serial →
    (∀ a, s.pos ≤ a → t.src.read a = s.src.read a) → Host.Core.run core k s = .next s' →
    ∃ t' rs, Host.Core.run core k t = .next t' ∧ rs.length = k ∧ s'.results = s.results ++ rs ∧ t'.results = t.results ++ rs ∧
      t'.pos = s'.pos ∧ t'.used = s'.used ∧ t'.eos = s'.eos ∧ t'.serial = s'.serial

/-! ## What an instruction leaves unchanged -/

/-- The frame of all 35 instructions, when `exec` gives a next state: the stream reads as before at every offset, the byte-serial
register is unchanged, exactly one answer is added, `used` is 8, `pos` never decreases and passes at most 6 bytes (R9, R25, R51); the
only other state written is `cur`, the last byte fetched (unchanged if none was), and `eos`, set only at the end of the stream. -/
def Obligations.ExecFrame : Prop :=
  ∀ (i : Instr) (s t : State), exec i s = .next t →
    t.src = s.src ∧ (∀ a, t.src.read a = s.src.read a) ∧ t.serial = s.serial ∧ t.used = 8 ∧
    (∃ r, t.results = s.results ++ [r]) ∧ s.pos ≤ t.pos ∧ t.pos ≤ s.pos + i.size ∧
    (t.pos = s.pos → t.cur = s.cur) ∧ (s.pos < t.pos → t.src.read (t.pos - 1) = some t.cur) ∧
    (t.eos = s.eos ∨ (t.eos = true ∧ s.src.read t.pos = none))

/-- The same frame for a whole step, whatever the stream holds; and a step that finds a byte moves `pos` on by 1 to 6 (R9, R25). -/
def Obligations.StepFrame : Prop :=
  ∀ s t : State, step s = .next t →
    t.src = s.src ∧ t.serial = s.serial ∧ t.used = 8 ∧ (∃ r, t.results = s.results ++ [r]) ∧
    (t.pos = s.pos → t.cur = s.cur ∧ t.eos = true) ∧ s.pos ≤ t.pos ∧ t.pos ≤ s.pos + 6 ∧
    (s.pos < t.pos → s.eos = false ∧ t.src.read (t.pos - 1) = some t.cur) ∧
    (t.eos = s.eos ∨ (t.eos = true ∧ s.src.read t.pos = none))

/-! ## What an instruction answers -/

/-- R161 with R162 to R181: `je jl jle jb jbe jp jo js jne jnl jnle jnb jnbe jnp jno jns loop loopz loopnz jcxz`. Two bytes are
consumed and the descriptor is answered, with the opcode bytes of R84 (the spec's general knowledge G1 for all but 0x75; log 7). -/
def Obligations.JumpsAndLoopsAnswerTheirOffset : Prop :=
  ∀ p ∈ ([(.je, 0x74, .je), (.jl, 0x7C, .jl), (.jle, 0x7E, .jle), (.jb, 0x72, .jb), (.jbe, 0x76, .jbe), (.jp, 0x7A, .jp),
      (.jo, 0x70, .jo), (.js, 0x78, .js), (.jne, 0x75, .jne), (.jnl, 0x7D, .jnl), (.jnle, 0x7F, .jnle), (.jnb, 0x73, .jnb),
      (.jnbe, 0x77, .jnbe), (.jnp, 0x7B, .jnp), (.jno, 0x71, .jno), (.jns, 0x79, .jns), (.loop, 0xE2, .loop),
      (.loopz, 0xE1, .loopz), (.loopnz, 0xE0, .loopnz), (.jcxz, 0xE3, .jcxz)] : List (JumpName × Byte × (Byte → Instr))),
    ∀ off : Byte, encode (p.2.2 off) = [p.2.1, off] ∧
      Retires (p.2.2 off) fun start =>
        { family := .conditionalJumpOrLoop, mnemonic := .jump p.1, operands := [.immediate (sext16 off)],
          fields := { start := start, length := 2, opcode := p.2.1, w := false, d := false, s := false, hasModrm := false,
                      mod := 0, reg := 0, rm := 0 } }

/-- R191 with R194 to R196: `addRmReg`, `subRmReg`, `cmpRmReg`, for every `d`, `w`, `reg` and operand form. -/
def Obligations.ArithmeticWithARegisterAnswersBothOperands : Prop :=
  ∀ p ∈ ([(.add, 0b000, .addRmReg), (.sub, 0b101, .subRmReg), (.cmp, 0b111, .cmpRmReg)] :
      List (ArithOp × BitVec 3 × (Bool → Bool → BitVec 3 → RmForm → Instr))),
    ∀ (d w : Bool) (reg : BitVec 3) (f : RmForm), f.wf = true →
      Retires (p.2.2 d w reg f) fun start =>
        { family := .addSubCmpRegMemWithReg, mnemonic := .arith p.1,
          operands := if d then [.register w reg, formOperand w f] else [formOperand w f, .register w reg],
          fields := { start := start, length := 2 + ndisp f.modField f.rmField,
                      opcode := 0b00#2 ++ p.2.1 ++ 0b0#1 ++ BitVec.ofBool d ++ BitVec.ofBool w, w := w, d := d, s := false,
                      hasModrm := true, mod := f.modField, reg := reg, rm := f.rmField } }

/-- R192 with R197 to R199: `addImmRm`, `subImmRm`, `cmpImmRm`, for every `s`, `w`, operand form and immediate of the width R102
gives. The sign extension depends on `s` alone (decision D20; log 9). -/
def Obligations.ArithmeticWithAnImmediateAnswersTheWidenedImmediate : Prop :=
  ∀ p ∈ ([(.add, 0b000, .addImmRm), (.sub, 0b101, .subImmRm), (.cmp, 0b111, .cmpImmRm)] :
      List (ArithOp × BitVec 3 × (Bool → Bool → RmForm → Imm → Instr))),
    ∀ (sx w : Bool) (f : RmForm) (v : Word) (imm : Imm), f.wf = true →
      ((sx = false ∧ w = true ∧ imm = .word v) ∨
       ((sx = true ∨ w = false) ∧ ∃ b, imm = .byte b ∧ v = if sx then sext16 b else zext16 b)) →
      Retires (p.2.2 sx w f imm) fun start =>
        { family := .addSubCmpImmToRegMem, mnemonic := .arith p.1, operands := [formOperand w f, .immediate v],
          fields := { start := start, length := 2 + ndisp f.modField f.rmField + (if sx = false ∧ w = true then 2 else 1),
                      opcode := 0b100000#6 ++ BitVec.ofBool sx ++ BitVec.ofBool w, w := w, d := false, s := sx,
                      hasModrm := true, mod := f.modField, reg := p.2.1, rm := f.rmField } }

/-- R193 with R200 to R202: `addImmAcc`, `subImmAcc`, `cmpImmAcc`; one byte zero-extended when `w = 0`, two bytes when `w = 1`. That
bit 1 of the opcode byte `00 ooo 10 w` is 0 is the spec's general knowledge G3 and its own choice (decision D11; log 7). -/
def Obligations.ArithmeticWithTheAccumulatorAnswersTheImmediate : Prop :=
  ∀ p ∈ ([(.add, 0b000, .addImmAcc), (.sub, 0b101, .subImmAcc), (.cmp, 0b111, .cmpImmAcc)] :
      List (ArithOp × BitVec 3 × (Bool → Imm → Instr))),
    ∀ (w : Bool) (v : Word) (imm : Imm),
      ((w = true ∧ imm = .word v) ∨ (w = false ∧ ∃ b, imm = .byte b ∧ v = zext16 b)) →
      Retires (p.2.2 w imm) fun start =>
        { family := .addSubCmpImmToAcc, mnemonic := .arith p.1, operands := [.accumulator w, .immediate v],
          fields := { start := start, length := if w then 3 else 2,
                      opcode := 0b00#2 ++ p.2.1 ++ 0b10#2 ++ BitVec.ofBool w, w := w, d := false, s := false,
                      hasModrm := false, mod := 0, reg := 0, rm := 0 } }

/-- R210: `movRmReg`, for every `d`, `w`, `reg` and operand form. -/
def Obligations.MovRegisterMemoryAnswersBothOperands : Prop :=
  ∀ (d w : Bool) (reg : BitVec 3) (f : RmForm), f.wf = true →
    Retires (.movRmReg d w reg f) fun start =>
      { family := .movRegMemToFromReg, mnemonic := .mov,
        operands := if d then [.register w reg, formOperand w f] else [formOperand w f, .register w reg],
        fields := { start := start, length := 2 + ndisp f.modField f.rmField,
                    opcode := 0b100010#6 ++ BitVec.ofBool d ++ BitVec.ofBool w, w := w, d := d, s := false,
                    hasModrm := true, mod := f.modField, reg := reg, rm := f.rmField } }

/-- R211: `movImmReg`, for every `w` and register index; the immediate is never sign-extended. -/
def Obligations.MovImmediateAnswersTheRegisterAndTheImmediate : Prop :=
  ∀ (w : Bool) (idx : BitVec 3) (v : Word) (imm : Imm),
    ((w = true ∧ imm = .word v) ∨ (w = false ∧ ∃ b, imm = .byte b ∧ v = zext16 b)) →
    Retires (.movImmReg w idx imm) fun start =>
      { family := .movImmToReg, mnemonic := .mov, operands := [.register w idx, .immediate v],
        fields := { start := start, length := if w then 3 else 2, opcode := 0b1011#4 ++ BitVec.ofBool w ++ idx, w := w,
                    d := false, s := false, hasModrm := false, mod := 0, reg := 0, rm := 0 } }

/-- R212, R213, R220, R253: `movImmRmUnimplemented`, `movAccMemUnimplemented` and `unsupportedOpcode` consume their opcode byte and
answer it with its offset. (The bytes of the two `mov` forms are the spec's general knowledge G4; log 7.) -/
def Obligations.UnsupportedOpcodeBytesAreReported : Prop :=
  ∀ (s : State) (op : Byte), s.Ready [op] →
    (∀ w : Bool, exec (.movImmRmUnimplemented w) s = .next ((s.passed [op]).answer (.fail (.unsupportedEncoding s.pos op)))) ∧
    (∀ d w : Bool, exec (.movAccMemUnimplemented d w) s = .next ((s.passed [op]).answer (.fail (.unsupportedEncoding s.pos op)))) ∧
    exec (.unsupportedOpcode op) s = .next ((s.passed [op]).answer (.fail (.unsupportedEncoding s.pos op)))

/-- R225, R253 (decisions D13, D14; log 10): `immRmBadSelector` consumes its opcode byte and its ModRM byte, fetches nothing after
it, and answers the ModRM byte with its offset. -/
def Obligations.BadSelectorReportsTheModrmByte : Prop :=
  ∀ (s : State) (op m : Byte) (sx w : Bool) (mod : BitVec 2) (sel rm : BitVec 3), s.Ready [op, m] →
    exec (.immRmBadSelector sx w mod sel rm) s =
      .next ((s.passed [op, m]).answer (.fail (.unsupportedEncoding (s.pos + 1) m)))

/-- R221: an opcode byte is answered `UnsupportedEncoding` at its own offset exactly when it is in the failing ranges, and there are
194 such byte values. -/
def Obligations.ExactlyTheFailingRangesFailAtTheOpcodeByte : Prop :=
  (∀ (s : State) (op : Byte), s.Ready [op] →
    ((∃ t b, step s = .next t ∧ t.results = s.results ++ [.fail (.unsupportedEncoding s.pos b)]) ↔ failingOpcode op = true)) ∧
  ((List.range 256).countP fun n => failingOpcode (BitVec.ofNat 8 n)) = 194

/-- R225 (decisions D13, D14; log 10): after 0x80 to 0x83, 160 of the 256 ModRM values fail, at the ModRM byte, and no other does. -/
def Obligations.ExactlyTheFailingSelectorsFailAtTheModrmByte : Prop :=
  (∀ (s : State) (op m : Byte), immRmOpcode op = true → s.Ready [op, m] →
    (failingSelector m = true →
      step s = .next ((s.passed [op, m]).answer (.fail (.unsupportedEncoding (s.pos + 1) m)))) ∧
    (failingSelector m = false →
      ∀ t o b, step s = .next t → t.results ≠ s.results ++ [.fail (.unsupportedEncoding o b)])) ∧
  ((List.range 256).countP fun n => failingSelector (BitVec.ofNat 8 n)) = 160

/-- R252: `UnsupportedEncoding` is raised at the opcode byte or at the ModRM byte of an F-IRM instruction, and never by a
displacement, immediate or offset byte. -/
def Obligations.UnsupportedEncodingIsRaisedAtTwoPlacesOnly : Prop :=
  ∀ (s t : State) (o : Nat) (b : Byte), step s = .next t → t.results = s.results ++ [.fail (.unsupportedEncoding o b)] →
    s.src.read o = some b ∧
    ((o = s.pos ∧ failingOpcode b = true) ∨
     (o = s.pos + 1 ∧ failingSelector b = true ∧ ∃ op, s.src.read s.pos = some op ∧ immRmOpcode op = true))

/-- R95, R182: every entry of the jump/loop table consumes exactly two bytes, whatever its offset byte and whatever stands around
it, and the next request looks for an instruction right after them (R184). -/
def Obligations.EveryJumpConsumesExactlyTwoBytes : Prop :=
  ∀ (s : State) (off : Byte), ∀ p ∈ jumpTable, s.Ready [p.1, off] →
    ∃ t i, step s = .next t ∧ t.results = s.results ++ [.ok i] ∧ i.family = .conditionalJumpOrLoop ∧ i.mnemonic = .jump p.2 ∧
      i.fields.length = 2 ∧ t.pos = s.pos + 2 ∧ t.window = s.src.bytesAt (s.pos + 2) 6

/-- R34, R37, R39: every answered descriptor has the shape the rules give it. -/
def Obligations.AnsweredDescriptorsAreWellShaped : Prop :=
  ∀ (s t : State) (i : Instruction), step s = .next t → t.results = s.results ++ [.ok i] → i.wellShaped = true

/-! ## Encoding -/

/-- Decoding the encoding of a well-formed instruction gives it back, every operand at every value, and leaves the bytes after it. -/
def Obligations.DecodingReadsBackEveryEncoding : Prop :=
  ∀ (i : Instr) (rest : List Byte), i.wf = true → decode (encode i ++ rest) = .ok (i, rest)

/-- Each byte string has one meaning: what is decoded is well-formed, and its encoding is the bytes that were read. -/
def Obligations.DecodedInstructionsReencodeToTheirBytes : Prop :=
  ∀ (bs rest : List Byte) (i : Instr), decode bs = .ok (i, rest) → i.wf = true ∧ encode i ++ rest = bs

/-- R9, R130: decoding stops for want of an opcode byte exactly on the empty string, and inside an instruction only after 1 to 5
bytes, where some further bytes complete it. -/
def Obligations.DecodingStopsOnlyForWantOfBytes : Prop :=
  ∀ bs : List Byte, (decode bs = .error .noByte ↔ bs = []) ∧
    ∀ n, decode bs = .error (.cut n) →
      n = bs.length ∧ 1 ≤ n ∧ n ≤ 5 ∧ ∃ (more : List Byte) (i : Instr), decode (bs ++ more) = .ok (i, []) ∧ n < i.size

/-- R84, R160 (the spec's general knowledge G1 for all but 0x75; log 7): the jump/loop opcode bytes. -/
def Obligations.JumpTableBytes : Prop :=
  ∀ (off : Byte) (rest : List Byte),
    ∀ p ∈ ([(0x70, .jo off), (0x71, .jno off), (0x72, .jb off), (0x73, .jnb off), (0x74, .je off), (0x75, .jne off),
        (0x76, .jbe off), (0x77, .jnbe off), (0x78, .js off), (0x79, .jns off), (0x7A, .jp off), (0x7B, .jnp off),
        (0x7C, .jl off), (0x7D, .jnl off), (0x7E, .jle off), (0x7F, .jnle off), (0xE0, .loopnz off), (0xE1, .loopz off),
        (0xE2, .loop off), (0xE3, .jcxz off)] : List (Byte × Instr)),
      decode (p.1 :: off :: rest) = .ok (p.2, rest)

/-- A few encodings written out bit by bit from R81 and R82 decode to the instructions they stand for. -/
def Obligations.WrittenOutWordsDecode : Prop :=
  decode [0b10001001, 0b11011001] = .ok (.movRmReg false true 0b011 (.register 0b001), []) ∧
  decode [0b01110101, 0b11111110] = .ok (.jne 0xFE, []) ∧
  decode [0b10111000, 0x05, 0x00] = .ok (.movImmReg true 0b000 (.word 0x0005), []) ∧
  decode [0b11110110] = .ok (.unsupportedOpcode 0xF6, []) ∧
  decode [0b00101011, 0b00001110, 0x00, 0x10] = .ok (.subRmReg true true 0b001 (.direct 0x1000), []) ∧
  decode [0b10000011, 0b01111110, 0x04, 0x80] = .ok (.cmpImmRm true true (.indirect8 0b110 0x04) (.byte 0x80), []) ∧
  decode [0b00101101, 0x00, 0x80] = .ok (.subImmAcc true (.word 0x8000), [])

/-- R93: no two rows of the opcode map accept one byte. -/
def Obligations.NoTwoRowsAcceptOneByte : Prop :=
  ∀ op : Byte, opcodeTable.countP (·.accepts op) ≤ 1

/-- R95 to R99, with R96's table: the bytes a decodable instruction takes, from its opcode byte and its ModRM byte. -/
def Obligations.DecodedLengthsFollowTheRules : Prop :=
  ∀ (op m : Byte) (t rest : List Byte) (i : Instr), failingOpcode op = false → (immRmOpcode op && failingSelector m) = false →
    decode (op :: m :: t) = .ok (i, rest) →
    (op :: m :: t).length = rest.length + lengthByRules op m ∧ i.size = lengthByRules op m

/-- R100: the bytes an instruction takes are known after its opcode byte, or after its ModRM byte where it has one; no
displacement, immediate or offset byte changes how many follow. -/
def Obligations.ByteCountsAreKnownBeforeTheBytesAreRead : Prop :=
  (∀ (op : Byte) (t t' rest rest' : List Byte) (i i' : Instr), hasModrm op = false →
    decode (op :: t) = .ok (i, rest) → decode (op :: t') = .ok (i', rest') →
    t.length + rest'.length = t'.length + rest.length) ∧
  ∀ (op m : Byte) (t t' rest rest' : List Byte) (i i' : Instr), hasModrm op = true →
    decode (op :: m :: t) = .ok (i, rest) → decode (op :: m :: t') = .ok (i', rest') →
    t.length + rest'.length = t'.length + rest.length

/-! ## Operands and values -/

/-- R150 (R142 to R147): the displacement rule as one table, for both widths and every `rm`. -/
def Obligations.DisplacementRuleTable : Prop :=
  ∀ (w : Bool) (rm : BitVec 3) (lo hi : Byte) (t : List Byte),
    let read := fun mod bs => (decodeRm mod rm bs).map fun p => (formOperand w p.1, p.2)
    (rm ≠ 0b110 → read 0b00 t = some (.memoryIndirect rm .none, t)) ∧
    (rm = 0b110 → read 0b00 (lo :: hi :: t) = some (.memoryDirect (BitVec.ofNat 16 (hi.toNat * 256 + lo.toNat)), t)) ∧
    read 0b01 (lo :: t) = some (.memoryIndirect rm (.relative8Extended (BitVec.ofNat 16 lo.toNat)), t) ∧
    read 0b10 (lo :: hi :: t) = some (.memoryIndirect rm (.relative16 (BitVec.ofNat 16 (hi.toNat * 256 + lo.toNat))), t) ∧
    read 0b11 t = some (.register w rm, t)

/-- R14, R101, R108: the widening functions and their signed reading; the offset of a jump reads from -128 to 127. -/
def Obligations.WideningFollowsItsDefinition : Prop :=
  ∀ hi lo : Byte,
    (zext16 lo).toNat = lo.toNat ∧
    (sext16 lo).toNat = (if lo.toNat < 128 then lo.toNat else 0xFF00 + lo.toNat) ∧
    signed16 (sext16 lo) = signed8 lo ∧ -128 ≤ signed8 lo ∧ signed8 lo ≤ 127 ∧
    (concatBytes hi lo).toNat = hi.toNat * 256 + lo.toNat

/-! ## Cursor operations -/

/-- R55: `peek(n)` gives `cur[7 - used : 8 - used - n]` and changes nothing; outside its precondition it is a violation. -/
def Obligations.PeekReadsTheNextBits : Prop :=
  ∀ (n : Nat) (s : State),
    (1 ≤ n ∧ n ≤ 8 ∧ s.used + n ≤ 8 ∧ s.eos = false ∧ 1 ≤ s.pos →
      ∃ v, peek n s = .ok v s ∧ v.toNat = s.cur.toNat / 2 ^ (8 - s.used - n) % 2 ^ n) ∧
    (¬(1 ≤ n ∧ n ≤ 8 ∧ s.used + n ≤ 8 ∧ s.eos = false ∧ 1 ≤ s.pos) → ∃ f, peek n s = .fault f)

/-- R56: `take(n)` is the "same as `peek` but advances `bits_consumed` by `n`". -/
def Obligations.TakeIsPeekThatAdvances : Prop :=
  ∀ (n : Nat) (s : State),
    (∀ v t, peek n s = .ok v t → take n s = .ok v { t with used := t.used + n }) ∧
    (∀ f, peek n s = .fault f → take n s = .fault f)

/-- R55, R56: bits are consumed from the most significant end: taking `a` bits and then `b` gives what taking `a + b` at once gives,
the first `a` on top. -/
def Obligations.TakingTwiceIsTakingOnce : Prop :=
  ∀ (a b : Nat) (s t u : State) (x : BitVec a) (y : BitVec b), take a s = .ok x t → take b t = .ok y u →
    ∃ z, take (a + b) s = .ok z u ∧ z.toNat = x.toNat * 2 ^ b + y.toNat

/-- R54 (with decisions D6, D18; logs 11, 13): `advance_byte`. -/
def Obligations.AdvanceBytePullsTheNextByte : Prop :=
  ∀ s : State,
    (s.used ≠ 8 → advanceByte s = .fault .advanceWithUnreadBits) ∧
    (s.used = 8 → s.eos = true → advanceByte s = .ok () s) ∧
    (s.used = 8 → s.eos = false → ∀ b, s.src.read s.pos = some b →
      advanceByte s = .ok () { s with cur := b, used := 0, pos := s.pos + 1 }) ∧
    (s.used = 8 → s.eos = false → s.src.read s.pos = none → advanceByte s = .ok () s.ended)

/-- R60, R61: `fetch16` reads the low byte first; if the stream ends after it, the `MalformedStream` of the second byte is the
result and the low byte is discarded. -/
def Obligations.Fetch16IsLittleEndian : Prop :=
  ∀ (s : State) (lo : Byte), s.used = 8 → s.eos = false → s.src.read s.pos = some lo →
    (∀ hi, s.src.read (s.pos + 1) = some hi →
      ∃ v, fetch16 s = .ok v (s.passed [lo, hi]) ∧ v.toNat = hi.toNat * 256 + lo.toNat) ∧
    (s.src.read (s.pos + 1) = none → ∃ o t, fetch16 s = .fail (.malformedStream o) t)

/-! ## The other two descriptions of the decoder -/

/-- R121 to R123, R140 to R149, R161, R191 to R193, R210, R211: the pseudocode's walk over the stream by `advance_byte`, `peek` and
`take` answers exactly as the step does, from every state. -/
def Obligations.PseudocodeWalkEqualsStep : Prop :=
  ∀ s : State, decodeNext s = step s

/-- R125, R126: one walk of the byte-serial machine from `S_OPCODE` back to `S_OPCODE`, of at most six byte requests that are
answered with a byte, is one step, from every state. -/
def Obligations.ByteSerialWalkEqualsStep : Prop :=
  ∀ s : State, s.serial = .opcode → serialDecode s = step s

/-- R125, R126: from every state, mid-instruction ones among them, the byte-serial machine is back in `S_OPCODE` after at most five
byte requests, one fewer than a whole walk of R126 has. -/
def Obligations.ByteSerialWalkReturnsToOpcode : Prop :=
  ∀ s t : State, serialWalk 5 s = .next t → t.serial = .opcode

/-! ## The caller -/

/-- R19 and Part 5 of the test vectors: under `resync` a run ends with the whole stream consumed, on `EndOfStream` or
`MalformedStream`. That `MalformedStream` carries the stream's length is the spec's own choice (decision D16; log 12), and the run is
that of the model's caller, which is environment (log 17). -/
def Obligations.ResyncRunConsumesTheWholeStream : Prop :=
  ∀ s : State, s.Inv → s.Boundary →
    ∃ t, run .resync s = .next t ∧ t.eos = true ∧ t.pos = s.src.size ∧ t.src = s.src ∧
      (t.results.getLast? = some (.fail .endOfStream) ∨ t.results.getLast? = some (.fail (.malformedStream s.src.size)))

/-- R11, R261, R264: what a caller that aborts has seen is an initial part of what a caller that resynchronises sees: a failure never
corrupts the answers before it. Both runs are those of the model's caller (log 17). -/
def Obligations.AbortedRunIsAnInitialPartOfAResynchronisedRun : Prop :=
  ∀ (n : Nat) (s a b : State), driver .abort n s = .next a → driver .resync n s = .next b → a.results <+: b.results

/-! ## Text and ports -/

/-- R29, R44: the register names, all sixteen distinct. -/
def Obligations.RegisterNamesNeverAlias : Prop :=
  (List.map (fun n => regname false (BitVec.ofNat 3 n)) (List.range 8) = ["al", "cl", "dl", "bl", "ah", "ch", "dh", "bh"]) ∧
  (List.map (fun n => regname true (BitVec.ofNat 3 n)) (List.range 8) = ["ax", "cx", "dx", "bx", "sp", "bp", "si", "di"]) ∧
  ∀ (w w' : Bool) (i i' : BitVec 3), regname w i = regname w' i' → w = w' ∧ i = i'

/-- R240: `dec(n)` is the shortest decimal numeral of `n`. -/
def Obligations.DecimalNumeralsAreShortest : Prop :=
  ∀ n : Nat, n ≤ 65535 →
    ∃ cs : List Char, dec n = String.ofList cs ∧ (∀ c ∈ cs, '0' ≤ c ∧ c ≤ '9') ∧
      cs.foldl (fun v c => 10 * v + (c.toNat - '0'.toNat)) 0 = n ∧ (cs.head? = some '0' → n = 0 ∧ cs = ['0']) ∧ cs ≠ []

/-- R231, R239: a jump renders as its mnemonic, one space, and its offset shown signed. The sign convention, a minus for negative
values and no sign otherwise, is the spec's own choice (decision D15; log 16). -/
def Obligations.JumpTextShowsTheSignedOffset : Prop :=
  ∀ (j : JumpName) (op off : Byte) (start : Nat),
    format (jumpDescriptor j op off start) =
      mnemonicText (.jump j) ++ " " ++
        (if off.toNat < 128 then dec off.toNat else "-" ++ dec (256 - off.toNat))

/-- The four scenarios of the source (S1 to S4) as text, from their bytes. -/
def Obligations.SourceScenariosRender : Prop :=
  ∀ p ∈ ([([0x89, 0xD9], ["mov cx, bx"]), ([0x75, 0xFE], ["jne -2"]), ([0xB8, 0x05, 0x00], ["mov ax, 5"]), ([0xF6], [])] :
      List (List Byte × List String)),
    ∃ t, run .abort (State.boot p.1) = .next t ∧ emittedLines t.results = p.2

/-- R241: the text form loses the width of an immediate-to-memory instruction; `fields.w` keeps it. -/
def Obligations.TextFormLosesTheOperandWidth : Prop :=
  ∃ t u i k, step (State.boot [0x80, 0x07, 0xFF]) = .next t ∧ t.results = [.ok i] ∧
    step (State.boot [0x81, 0x07, 0xFF, 0x00]) = .next u ∧ u.results = [.ok k] ∧
    format i = "add [bx], 255" ∧ format k = "add [bx], 255" ∧ i.fields.w = false ∧ k.fields.w = true

/-- R46, R73, R258 (decisions D5, D17; log 18): the suggested ports. -/
def Obligations.PortsCarryTheAnswer : Prop :=
  (∀ i, resPort (.ok i) = ⟨true, 0, some i, none, none⟩) ∧
  resPort (.fail .endOfStream) = ⟨true, 1, none, none, none⟩ ∧
  (∀ o b, resPort (.fail (.unsupportedEncoding o b)) = ⟨true, 2, none, some o, some b⟩) ∧
  (∀ o, resPort (.fail (.malformedStream o)) = ⟨true, 3, none, some o, none⟩) ∧
  ∀ a, ((srcPort a).srcValid && (srcPort a).srcEnd) = false
end

