-- ==== Sys2Proof/Laws/Encoding.lean ====
section
/-! SUPPORT. The parts of the encoding, each with its inverse: bit fields, 16-bit fields, displacements, immediates, opcode bytes. -/

namespace Sys2Proof

/-! ## Bit fields -/

@[simp] theorem modOf_modrmByte : ∀ (mod : BitVec 2) (reg rm : BitVec 3), modOf (modrmByte mod reg rm) = mod := by decide
@[simp] theorem regOf_modrmByte : ∀ (mod : BitVec 2) (reg rm : BitVec 3), regOf (modrmByte mod reg rm) = reg := by decide
@[simp] theorem rmOf_modrmByte : ∀ (mod : BitVec 2) (reg rm : BitVec 3), rmOf (modrmByte mod reg rm) = rm := by decide
@[simp] theorem modrmByte_fields : ∀ b : Byte, modrmByte (modOf b) (regOf b) (rmOf b) = b := by decide

@[simp] theorem modOf_modrm (f : RmForm) (reg : BitVec 3) : modOf (f.modrm reg) = f.modField := by simp [RmForm.modrm]
@[simp] theorem regOf_modrm (f : RmForm) (reg : BitVec 3) : regOf (f.modrm reg) = reg := by simp [RmForm.modrm]
@[simp] theorem rmOf_modrm (f : RmForm) (reg : BitVec 3) : rmOf (f.modrm reg) = f.rmField := by simp [RmForm.modrm]

/-! ## 16-bit fields (R60, R61) -/

theorem concatBytes_toNat (hi lo : Byte) : (concatBytes hi lo).toNat = hi.toNat * 256 + lo.toNat := by
  have := lo.isLt
  simp only [concatBytes, BitVec.toNat_append]
  rw [← Nat.shiftLeft_add_eq_or_of_lt this, Nat.shiftLeft_eq]

@[simp] theorem concatBytes_wordBytes (v : Word) : concatBytes (v.extractLsb' 8 8) (v.extractLsb' 0 8) = v := by
  apply BitVec.eq_of_toNat_eq
  have := v.isLt
  rw [concatBytes_toNat]
  simp only [BitVec.extractLsb'_toNat, Nat.shiftRight_eq_div_pow]
  omega

@[simp] theorem wordBytes_concatBytes (hi lo : Byte) : wordBytes (concatBytes hi lo) = [lo, hi] := by
  have h1 := lo.isLt
  have h2 := hi.isLt
  simp only [wordBytes, List.cons.injEq, and_true]
  constructor <;> apply BitVec.eq_of_toNat_eq <;>
    simp only [BitVec.extractLsb'_toNat, Nat.shiftRight_eq_div_pow, concatBytes_toNat] <;> omega

@[simp] theorem decodeWord_wordBytes (v : Word) (t : List Byte) : decodeWord (wordBytes v ++ t) = some (v, t) := by
  simp [decodeWord, wordBytes]

theorem decodeWord_some {bs t : List Byte} {v : Word} (h : decodeWord bs = some (v, t)) : bs = wordBytes v ++ t := by
  match bs, h with
  | lo :: hi :: u, h =>
    simp only [decodeWord, Option.some.injEq, Prod.mk.injEq] at h
    obtain ⟨rfl, rfl⟩ := h
    simp

theorem decodeWord_none {bs : List Byte} : decodeWord bs = none ↔ bs.length < 2 := by
  match bs with
  | [] => simp [decodeWord]
  | [_] => simp [decodeWord]
  | _ :: _ :: _ => simp [decodeWord]

@[simp] theorem wordBytes_length (v : Word) : (wordBytes v).length = 2 := rfl

/-! ## The displacement rule (R150) -/

theorem mod_cases : ∀ mod : BitVec 2, mod = 0b00 ∨ mod = 0b01 ∨ mod = 0b10 ∨ mod = 0b11 := by decide

theorem decodeRm_dispBytes {f : RmForm} (h : f.wf = true) (t : List Byte) :
    decodeRm f.modField f.rmField (f.dispBytes ++ t) = some (f, t) := by
  cases f with
  | register rm => simp [decodeRm, RmForm.modField, RmForm.rmField, RmForm.dispBytes]
  | direct a => simp [decodeRm, RmForm.modField, RmForm.rmField, RmForm.dispBytes]
  | indirect rm =>
    have : ¬ rm = 6#3 := by simpa [RmForm.wf] using h
    simp [decodeRm, RmForm.modField, RmForm.rmField, RmForm.dispBytes, this]
  | indirect8 rm b => simp [decodeRm, RmForm.modField, RmForm.rmField, RmForm.dispBytes]
  | indirect16 rm v => simp [decodeRm, RmForm.modField, RmForm.rmField, RmForm.dispBytes]

/-- What the displacement rule reads is well-formed and is the bytes that were there. -/
theorem decodeRm_some {mod : BitVec 2} {rm : BitVec 3} {bs t : List Byte} {f : RmForm} (h : decodeRm mod rm bs = some (f, t)) :
    f.wf = true ∧ f.modField = mod ∧ f.rmField = rm ∧ bs = f.dispBytes ++ t := by
  rcases mod_cases mod with rfl | rfl | rfl | rfl
  · by_cases hrm : rm = 6#3
    · subst hrm
      cases hw : decodeWord bs with
      | none => simp [decodeRm, hw] at h
      | some p =>
        simp only [decodeRm, hw] at h
        simp at h
        obtain ⟨rfl, rfl⟩ := h
        exact ⟨rfl, rfl, rfl, decodeWord_some hw⟩
    · simp [decodeRm, hrm] at h
      obtain ⟨rfl, rfl⟩ := h
      exact ⟨by simpa [RmForm.wf] using hrm, rfl, rfl, rfl⟩
  · cases bs with
    | nil => simp [decodeRm] at h
    | cons b bs =>
      simp [decodeRm] at h
      obtain ⟨rfl, rfl⟩ := h
      exact ⟨rfl, rfl, rfl, rfl⟩
  · cases hw : decodeWord bs with
    | none => simp [decodeRm, hw] at h
    | some p =>
      simp only [decodeRm, hw] at h
      simp at h
      obtain ⟨rfl, rfl⟩ := h
      exact ⟨rfl, rfl, rfl, decodeWord_some hw⟩
  · simp [decodeRm] at h
    obtain ⟨rfl, rfl⟩ := h
    exact ⟨rfl, rfl, rfl, rfl⟩

/-- The displacement rule fails exactly when fewer bytes are left than `ndisp` asks for (R96, R100). -/
theorem decodeRm_none {mod : BitVec 2} {rm : BitVec 3} {bs : List Byte} :
    decodeRm mod rm bs = none ↔ bs.length < ndisp mod rm := by
  rcases mod_cases mod with rfl | rfl | rfl | rfl
  · by_cases hrm : rm = 6#3
    · simp [decodeRm, ndisp, hrm, decodeWord_none]
    · simp [decodeRm, ndisp, hrm]
  · cases bs <;> simp [decodeRm, ndisp]
  · simp [decodeRm, ndisp, decodeWord_none]
  · simp [decodeRm, ndisp]

/-- An operand form has as many displacement bytes as R96 says. -/
theorem dispBytes_length {f : RmForm} (h : f.wf = true) : f.dispBytes.length = ndisp f.modField f.rmField := by
  cases f with
  | register rm => simp [ndisp, RmForm.modField, RmForm.dispBytes]
  | direct a => simp [ndisp, RmForm.modField, RmForm.rmField, RmForm.dispBytes]
  | indirect rm =>
    have : ¬ rm = 6#3 := by simpa [RmForm.wf] using h
    simp [ndisp, RmForm.modField, RmForm.rmField, RmForm.dispBytes, this]
  | indirect8 rm b => simp [ndisp, RmForm.modField, RmForm.dispBytes]
  | indirect16 rm v => simp [ndisp, RmForm.modField, RmForm.dispBytes]

theorem ndisp_le (mod : BitVec 2) (rm : BitVec 3) : ndisp mod rm ≤ 2 := by
  unfold ndisp; split <;> (try split) <;> (try split) <;> omega

/-! ## Immediates (R102 to R104) -/

theorem decodeImm_bytes {wide : Bool} {imm : Imm} (h : imm.fits wide = true) (t : List Byte) :
    decodeImm wide (imm.bytes ++ t) = some (imm, t) := by
  cases imm <;> cases wide <;> simp_all [Imm.fits, decodeImm, Imm.bytes]

theorem decodeImm_some {wide : Bool} {bs t : List Byte} {imm : Imm} (h : decodeImm wide bs = some (imm, t)) :
    imm.fits wide = true ∧ bs = imm.bytes ++ t := by
  cases wide with
  | true =>
    cases hw : decodeWord bs with
    | none => simp [decodeImm, hw] at h
    | some p =>
      simp [decodeImm, hw] at h
      obtain ⟨rfl, rfl⟩ := h
      exact ⟨rfl, decodeWord_some hw⟩
  | false =>
    cases bs with
    | nil => simp [decodeImm] at h
    | cons b bs =>
      simp [decodeImm] at h
      obtain ⟨rfl, rfl⟩ := h
      exact ⟨rfl, rfl⟩

theorem decodeImm_none {wide : Bool} {bs : List Byte} : decodeImm wide bs = none ↔ bs.length < (if wide then 2 else 1) := by
  cases wide
  · cases bs <;> simp [decodeImm]
  · simp [decodeImm, decodeWord_none]

theorem immBytes_length {wide : Bool} {imm : Imm} (h : imm.fits wide = true) :
    imm.bytes.length = if wide then 2 else 1 := by
  cases imm <;> cases wide <;> simp_all [Imm.fits, Imm.bytes]

/-! ## Opcode bytes (R84 to R92) -/

@[simp] theorem classify_opJump (j : JumpName) : classify (opJump j) = .jump j := by cases j <;> decide
@[simp] theorem classify_opArithRm (o : ArithOp) (d w : Bool) : classify (opArithRm o d w) = .arithRm o := by
  cases o <;> cases d <;> cases w <;> decide
@[simp] theorem classify_opArithAcc (o : ArithOp) (w : Bool) : classify (opArithAcc o w) = .arithAcc o := by
  cases o <;> cases w <;> decide
@[simp] theorem classify_opImmRm (s w : Bool) : classify (opImmRm s w) = .immRm := by cases s <;> cases w <;> decide
@[simp] theorem classify_opMovRm (d w : Bool) : classify (opMovRm d w) = .movRm := by cases d <;> cases w <;> decide
@[simp] theorem classify_opMovImm (w : Bool) : ∀ idx : BitVec 3, classify (opMovImm w idx) = .movImm := by cases w <;> decide
@[simp] theorem classify_opMovImmRm (w : Bool) : classify (opMovImmRm w) = .movImmRmUnimplemented := by cases w <;> decide
@[simp] theorem classify_opMovAccMem (d w : Bool) : classify (opMovAccMem d w) = .movAccMemUnimplemented := by
  cases d <;> cases w <;> decide
/-- The catch-all row is exactly the 188 bytes of rule R109. -/
theorem classify_other : ∀ op : Byte, otherOpcode op = true ↔ classify op = .other := by decide

/-- The opcode byte that a row kind and the opcode bits give back. -/
def rebuildOpcode (op : Byte) : RowKind → Byte
  | .jump j => opJump j
  | .arithRm o => opArithRm o (bitOf op 1) (bitOf op 0)
  | .arithAcc o => opArithAcc o (bitOf op 0)
  | .immRm => opImmRm (bitOf op 1) (bitOf op 0)
  | .movRm => opMovRm (bitOf op 1) (bitOf op 0)
  | .movImm => opMovImm (bitOf op 3) (rmOf op)
  | .movImmRmUnimplemented => opMovImmRm (bitOf op 0)
  | .movAccMemUnimplemented => opMovAccMem (bitOf op 1) (bitOf op 0)
  | .other => op

/-- No bit of an opcode byte is dropped: its row and its bits give it back. -/
theorem rebuildOpcode_classify : ∀ op : Byte, rebuildOpcode op (classify op) = op := by decide

@[simp] theorem bitOf_opArithRm (o : ArithOp) (d w : Bool) :
    bitOf (opArithRm o d w) 1 = d ∧ bitOf (opArithRm o d w) 0 = w := by cases o <;> cases d <;> cases w <;> decide
@[simp] theorem bitOf_opArithAcc (o : ArithOp) (w : Bool) : bitOf (opArithAcc o w) 0 = w := by cases o <;> cases w <;> decide
@[simp] theorem bitOf_opImmRm (s w : Bool) : bitOf (opImmRm s w) 1 = s ∧ bitOf (opImmRm s w) 0 = w := by
  cases s <;> cases w <;> decide
@[simp] theorem bitOf_opMovRm (d w : Bool) : bitOf (opMovRm d w) 1 = d ∧ bitOf (opMovRm d w) 0 = w := by
  cases d <;> cases w <;> decide
@[simp] theorem fields_opMovImm (w : Bool) : ∀ idx : BitVec 3, bitOf (opMovImm w idx) 3 = w ∧ rmOf (opMovImm w idx) = idx := by
  cases w <;> decide
@[simp] theorem bitOf_opMovImmRm (w : Bool) : bitOf (opMovImmRm w) 0 = w := by cases w <;> decide
@[simp] theorem bitOf_opMovAccMem (d w : Bool) : bitOf (opMovAccMem d w) 1 = d ∧ bitOf (opMovAccMem d w) 0 = w := by
  cases d <;> cases w <;> decide

@[simp] theorem selectOp_selector (o : ArithOp) : selectOp o.selector = some o := by cases o <;> decide
theorem selectOp_some : ∀ {sel : BitVec 3} {o : ArithOp}, selectOp sel = some o → o.selector = sel := by
  intro sel o h; cases o <;> revert sel <;> decide
theorem selectOp_none : ∀ {sel : BitVec 3}, selectOp sel = none ↔ badSelector sel = true := by decide

/-! ## Lengths -/

theorem encodeRmReg_length {f : RmForm} (h : f.wf = true) (op : Byte) (reg : BitVec 3) :
    (encodeRmReg op reg f).length = 2 + ndisp f.modField f.rmField := by
  simp [encodeRmReg, dispBytes_length h]; omega

theorem encodeImmRm_length {s w : Bool} {f : RmForm} {imm : Imm} (h : (f.wf && imm.fits (wideImmRm s w)) = true) (o : ArithOp) :
    (encodeImmRm o s w f imm).length = 2 + ndisp f.modField f.rmField + nimm s w := by
  simp only [Bool.and_eq_true] at h
  simp [encodeImmRm, dispBytes_length h.1, immBytes_length h.2, nimm]; omega

theorem opcodeAndImm_length {w : Bool} {imm : Imm} (h : imm.fits w = true) (op : Byte) :
    (op :: imm.bytes).length = 2 + w.toNat := by
  simp [immBytes_length h]; cases w <;> rfl

/-- No instruction is longer than six bytes (R9, R80). -/
theorem Instr.size_le (i : Instr) : i.size ≤ 6 := by
  have hnd := fun f : RmForm => ndisp_le f.modField f.rmField
  have hni : ∀ sx w, nimm sx w ≤ 2 := by decide
  have hw2 : ∀ w : Bool, w.toNat ≤ 1 := by decide
  cases i <;> simp only [Instr.size] <;> (try omega)
  case addRmReg f | subRmReg f | cmpRmReg f | movRmReg f => have := hnd f; omega
  case addImmRm sx w f _ | subImmRm sx w f _ | cmpImmRm sx w f _ => have := hnd f; have := hni sx w; omega
  case addImmAcc w _ | subImmAcc w _ | cmpImmAcc w _ => have := hw2 w; omega
  case movImmReg w _ _ => have := hw2 w; omega

end Sys2Proof
end

