-- ==== Sys2Proof/Laws/Memory.lean ====
section
/-! SUPPORT. The byte stream: its canonical form and what reading it gives. -/

namespace Sys2Proof.Machine

@[simp] theorem Memory.read_nil (a : Nat) : Memory.read [] a = none := rfl

theorem Memory.wfFrom_fromOffset (a : Nat) (bs : List Byte) : Memory.wfFrom a (Memory.fromOffset a bs) = true := by
  induction bs generalizing a with
  | nil => rfl
  | cons b bs ih => simp [Memory.fromOffset, Memory.wfFrom, ih]

/-- A stream bound from bytes is in canonical form. -/
@[simp] theorem Memory.wf_ofBytes (bs : List Byte) : (Memory.ofBytes bs).wf = true := Memory.wfFrom_fromOffset 0 bs

/-- `place` gives a stream in canonical form, whatever it was given. -/
@[simp] theorem Memory.wf_place (m : Memory) (a : Nat) (bs : List Byte) : (m.place a bs).wf = true := Memory.wf_ofBytes _

@[simp] theorem Memory.size_fromOffset (a : Nat) (bs : List Byte) : (Memory.fromOffset a bs).size = bs.length := by
  induction bs generalizing a with
  | nil => rfl
  | cons b bs ih => simpa [Memory.fromOffset, Memory.size] using ih (a + 1)

@[simp] theorem Memory.size_ofBytes (bs : List Byte) : (Memory.ofBytes bs).size = bs.length := Memory.size_fromOffset 0 bs

/-- Reading a stream whose offsets begin at `a`. -/
theorem Memory.read_of_wfFrom {a : Nat} {m : Memory} (h : Memory.wfFrom a m = true) (k : Nat) :
    Memory.read m k = if k < a then none else (Memory.bytes m)[k - a]? := by
  induction m generalizing a with
  | nil => simp [Memory.read, Memory.bytes]
  | cons c m ih =>
    simp only [Memory.wfFrom, Bool.and_eq_true, beq_iff_eq] at h
    obtain ⟨hc, hm⟩ := h
    have hbytes : Memory.bytes (c :: m) = c.2 :: Memory.bytes m := rfl
    rw [Memory.read, ih hm, hbytes]
    by_cases hk : k = a
    · simp [hc, hk]
    · by_cases hlt : k < a
      · simp [hc, Ne.symm hk, hlt, Nat.lt_succ_of_lt hlt]
      · have : k - a = (k - (a + 1)) + 1 := by omega
        have hk1 : ¬ k < a + 1 := by omega
        simp [hc, Ne.symm hk, hlt, hk1, this]

/-- Reading a stream in canonical form is indexing its bytes (R52). -/
theorem Memory.read_eq_bytes {m : Memory} (h : m.wf = true) (k : Nat) : m.read k = m.bytes[k]? := by
  simpa using Memory.read_of_wfFrom h k

theorem Memory.bytes_fromOffset (a : Nat) (bs : List Byte) : (Memory.fromOffset a bs).bytes = bs := by
  induction bs generalizing a with
  | nil => rfl
  | cons b bs ih => simpa [Memory.fromOffset, Memory.bytes] using ih (a + 1)

@[simp] theorem Memory.bytes_ofBytes (bs : List Byte) : (Memory.ofBytes bs).bytes = bs := Memory.bytes_fromOffset 0 bs

/-- The stream bound from `bs` answers `bs[a]` below its length and nothing beyond (R52). -/
@[simp] theorem Memory.read_ofBytes (bs : List Byte) (a : Nat) : (Memory.ofBytes bs).read a = bs[a]? := by
  rw [Memory.read_eq_bytes (Memory.wf_ofBytes bs), Memory.bytes_ofBytes]

theorem Memory.fromOffset_bytes {a : Nat} {m : Memory} (h : Memory.wfFrom a m = true) : Memory.fromOffset a (Memory.bytes m) = m := by
  induction m generalizing a with
  | nil => rfl
  | cons c m ih =>
    simp only [Memory.wfFrom, Bool.and_eq_true, beq_iff_eq] at h
    have := ih h.2
    simp only [Memory.bytes, List.map_cons, Memory.fromOffset] at this ⊢
    rw [this, ← h.1]

/-- The same bytes are the same data: the canonical form is unique. -/
theorem Memory.ofBytes_bytes {m : Memory} (h : m.wf = true) : Memory.ofBytes m.bytes = m := Memory.fromOffset_bytes h

/-- In canonical form no byte stands at or beyond the size (R52). -/
theorem Memory.read_eq_none {m : Memory} (h : m.wf = true) {k : Nat} : m.read k = none ↔ m.size ≤ k := by
  rw [Memory.read_eq_bytes h]
  simp [Memory.bytes, Memory.size]

/-- In canonical form a byte stands at every offset below the size (R50). -/
theorem Memory.exists_read {m : Memory} (h : m.wf = true) {k : Nat} : (∃ b, m.read k = some b) ↔ k < m.size := by
  rw [← Nat.not_le, ← Memory.read_eq_none h]
  cases m.read k <;> simp

/-! ## `bytesAt` -/

@[simp] theorem Memory.bytesAt_zero (m : Memory) (a : Nat) : m.bytesAt a 0 = [] := rfl

theorem Memory.bytesAt_length_le (m : Memory) (a n : Nat) : (m.bytesAt a n).length ≤ n := by
  induction n generalizing a with
  | zero => simp
  | succ n ih =>
    rw [Memory.bytesAt]
    cases h : m.read a with
    | none => simp
    | some b => simpa using ih (a + 1)

/-- The bytes read from an offset on stand there. -/
theorem Memory.read_bytesAt (m : Memory) (a n k : Nat) (h : k < (m.bytesAt a n).length) :
    m.read (a + k) = (m.bytesAt a n)[k]? := by
  induction n generalizing a k with
  | zero => simp at h
  | succ n ih =>
    rw [Memory.bytesAt] at h ⊢
    cases hr : m.read a with
    | none => simp [hr] at h
    | some b =>
      simp only [hr, List.length_cons] at h ⊢
      cases k with
      | zero => simpa using hr
      | succ k => simpa [Nat.add_assoc, Nat.add_comm 1 k] using ih (a + 1) k (by omega)

/-- They stop short of the count asked for only where the stream has no byte. -/
theorem Memory.read_after_bytesAt (m : Memory) (a n : Nat) (h : (m.bytesAt a n).length < n) :
    m.read (a + (m.bytesAt a n).length) = none := by
  induction n generalizing a with
  | zero => simp at h
  | succ n ih =>
    rw [Memory.bytesAt] at h ⊢
    cases hr : m.read a with
    | none => simpa using hr
    | some b =>
      simp only [hr, List.length_cons] at h ⊢
      simpa [Nat.add_assoc, Nat.add_comm 1] using ih (a + 1) (by omega)

/-- Where `bs` stands and is no longer than the count, it begins what is read. -/
theorem Memory.bytesAt_of_holds (m : Memory) (bs : List Byte) (a n : Nat) (h : ∀ k, k < bs.length → m.read (a + k) = bs[k]?)
    (hn : bs.length ≤ n) : m.bytesAt a n = bs ++ m.bytesAt (a + bs.length) (n - bs.length) := by
  induction bs generalizing a n with
  | nil => simp
  | cons b bs ih =>
    obtain ⟨n, rfl⟩ : ∃ n', n = n' + 1 := ⟨n - 1, by simp at hn; omega⟩
    have h0 : m.read a = some b := by simpa using h 0 (by simp)
    have := ih (a + 1) n (fun k hk => by simpa [Nat.add_assoc, Nat.add_comm 1 k] using h (k + 1) (by simpa using hk))
      (by simpa using hn)
    rw [Memory.bytesAt, h0]
    simp only [List.cons_append, List.cons.injEq, true_and]
    simpa [Nat.add_assoc, Nat.add_comm 1] using this

/-- What is read from `a` on depends only on the bytes there. -/
theorem Memory.bytesAt_congr {m m' : Memory} {a : Nat} (h : ∀ k, a ≤ k → m'.read k = m.read k) (n : Nat) :
    m'.bytesAt a n = m.bytesAt a n := by
  induction n generalizing a with
  | zero => rfl
  | succ n ih =>
    rw [Memory.bytesAt, Memory.bytesAt, h a le_rfl, ih fun k hk => h k (by omega)]

end Sys2Proof.Machine
end

