-- ==== Sys2Proof/Laws/State.lean ====
section
/-! SUPPORT. One lemma per field per named update of State, so that no later proof unfolds a record update. -/

namespace Sys2Proof.Machine

/-! ## `answer` -/

@[simp] theorem State.answer_src (s : State) (r : DecodeResult) : (s.answer r).src = s.src := rfl
@[simp] theorem State.answer_cur (s : State) (r : DecodeResult) : (s.answer r).cur = s.cur := rfl
@[simp] theorem State.answer_used (s : State) (r : DecodeResult) : (s.answer r).used = s.used := rfl
@[simp] theorem State.answer_eos (s : State) (r : DecodeResult) : (s.answer r).eos = s.eos := rfl
@[simp] theorem State.answer_pos (s : State) (r : DecodeResult) : (s.answer r).pos = s.pos := rfl
@[simp] theorem State.answer_serial (s : State) (r : DecodeResult) : (s.answer r).serial = s.serial := rfl
@[simp] theorem State.answer_results (s : State) (r : DecodeResult) : (s.answer r).results = s.results ++ [r] := rfl

/-! ## `goto` -/

@[simp] theorem State.goto_src (s : State) (st : SerialState) : (s.goto st).src = s.src := rfl
@[simp] theorem State.goto_cur (s : State) (st : SerialState) : (s.goto st).cur = s.cur := rfl
@[simp] theorem State.goto_used (s : State) (st : SerialState) : (s.goto st).used = s.used := rfl
@[simp] theorem State.goto_eos (s : State) (st : SerialState) : (s.goto st).eos = s.eos := rfl
@[simp] theorem State.goto_pos (s : State) (st : SerialState) : (s.goto st).pos = s.pos := rfl
@[simp] theorem State.goto_serial (s : State) (st : SerialState) : (s.goto st).serial = st := rfl
@[simp] theorem State.goto_results (s : State) (st : SerialState) : (s.goto st).results = s.results := rfl

/-! ## `emit` -/

@[simp] theorem State.emit_src (s : State) (r : DecodeResult) : (s.emit r).src = s.src := rfl
@[simp] theorem State.emit_cur (s : State) (r : DecodeResult) : (s.emit r).cur = s.cur := rfl
@[simp] theorem State.emit_used (s : State) (r : DecodeResult) : (s.emit r).used = s.used := rfl
@[simp] theorem State.emit_eos (s : State) (r : DecodeResult) : (s.emit r).eos = s.eos := rfl
@[simp] theorem State.emit_pos (s : State) (r : DecodeResult) : (s.emit r).pos = s.pos := rfl
@[simp] theorem State.emit_serial (s : State) (r : DecodeResult) : (s.emit r).serial = .opcode := rfl
@[simp] theorem State.emit_results (s : State) (r : DecodeResult) : (s.emit r).results = s.results ++ [r] := rfl

/-! ## `receive` -/

@[simp] theorem State.receive_byte_src (s : State) (b : Byte) : (s.receive (.byte b)).src = s.src := rfl
@[simp] theorem State.receive_byte_cur (s : State) (b : Byte) : (s.receive (.byte b)).cur = b := rfl
@[simp] theorem State.receive_byte_used (s : State) (b : Byte) : (s.receive (.byte b)).used = 0 := rfl
@[simp] theorem State.receive_byte_eos (s : State) (b : Byte) : (s.receive (.byte b)).eos = s.eos := rfl
@[simp] theorem State.receive_byte_pos (s : State) (b : Byte) : (s.receive (.byte b)).pos = s.pos + 1 := rfl
@[simp] theorem State.receive_byte_serial (s : State) (b : Byte) : (s.receive (.byte b)).serial = s.serial := rfl
@[simp] theorem State.receive_byte_results (s : State) (b : Byte) : (s.receive (.byte b)).results = s.results := rfl

@[simp] theorem State.receive_atEnd_src (s : State) : (s.receive .atEnd).src = s.src := rfl
@[simp] theorem State.receive_atEnd_cur (s : State) : (s.receive .atEnd).cur = s.cur := rfl
@[simp] theorem State.receive_atEnd_used (s : State) : (s.receive .atEnd).used = s.used := rfl
@[simp] theorem State.receive_atEnd_eos (s : State) : (s.receive .atEnd).eos = true := rfl
@[simp] theorem State.receive_atEnd_pos (s : State) : (s.receive .atEnd).pos = s.pos := rfl
@[simp] theorem State.receive_atEnd_serial (s : State) : (s.receive .atEnd).serial = s.serial := rfl
@[simp] theorem State.receive_atEnd_results (s : State) : (s.receive .atEnd).results = s.results := rfl

/-! ## `passed` -/

@[simp] theorem State.passed_src (s : State) (bs : List Byte) : (s.passed bs).src = s.src := rfl
@[simp] theorem State.passed_cur (s : State) (bs : List Byte) : (s.passed bs).cur = bs.getLastD s.cur := rfl
@[simp] theorem State.passed_used (s : State) (bs : List Byte) : (s.passed bs).used = 8 := rfl
@[simp] theorem State.passed_eos (s : State) (bs : List Byte) : (s.passed bs).eos = s.eos := rfl
@[simp] theorem State.passed_pos (s : State) (bs : List Byte) : (s.passed bs).pos = s.pos + bs.length := rfl
@[simp] theorem State.passed_serial (s : State) (bs : List Byte) : (s.passed bs).serial = s.serial := rfl
@[simp] theorem State.passed_results (s : State) (bs : List Byte) : (s.passed bs).results = s.results := rfl

/-! ## `ended` -/

@[simp] theorem State.ended_src (s : State) : s.ended.src = s.src := rfl
@[simp] theorem State.ended_cur (s : State) : s.ended.cur = s.cur := rfl
@[simp] theorem State.ended_used (s : State) : s.ended.used = s.used := rfl
@[simp] theorem State.ended_eos (s : State) : s.ended.eos = true := rfl
@[simp] theorem State.ended_pos (s : State) : s.ended.pos = s.pos := rfl
@[simp] theorem State.ended_serial (s : State) : s.ended.serial = s.serial := rfl
@[simp] theorem State.ended_results (s : State) : s.ended.results = s.results := rfl

/-- Once end of stream has been seen, seeing it again changes nothing. -/
theorem State.ended_eq {s : State} (h : s.eos = true) : s.ended = s := by
  cases s; simp_all [State.ended]

/-! ## `withFetchWord` -/

@[simp] theorem State.withFetchWord_src (s : State) (nbits w : Nat) : (s.withFetchWord nbits w).src = s.src.place s.pos (tableBytes nbits w) := rfl
@[simp] theorem State.withFetchWord_cur (s : State) (nbits w : Nat) : (s.withFetchWord nbits w).cur = s.cur := rfl
@[simp] theorem State.withFetchWord_used (s : State) (nbits w : Nat) : (s.withFetchWord nbits w).used = 8 := rfl
@[simp] theorem State.withFetchWord_eos (s : State) (nbits w : Nat) : (s.withFetchWord nbits w).eos = false := rfl
@[simp] theorem State.withFetchWord_pos (s : State) (nbits w : Nat) : (s.withFetchWord nbits w).pos = s.pos := rfl
@[simp] theorem State.withFetchWord_serial (s : State) (nbits w : Nat) : (s.withFetchWord nbits w).serial = .opcode := rfl
@[simp] theorem State.withFetchWord_results (s : State) (nbits w : Nat) : (s.withFetchWord nbits w).results = s.results := rfl

/-! ## `boot` and `reset` -/

@[simp] theorem State.boot_src (bs : List Byte) : (State.boot bs).src = Memory.ofBytes bs := rfl
@[simp] theorem State.boot_cur (bs : List Byte) : (State.boot bs).cur = 0x00 := rfl
@[simp] theorem State.boot_used (bs : List Byte) : (State.boot bs).used = 8 := rfl
@[simp] theorem State.boot_eos (bs : List Byte) : (State.boot bs).eos = false := rfl
@[simp] theorem State.boot_pos (bs : List Byte) : (State.boot bs).pos = 0 := rfl
@[simp] theorem State.boot_serial (bs : List Byte) : (State.boot bs).serial = .opcode := rfl
@[simp] theorem State.boot_results (bs : List Byte) : (State.boot bs).results = [] := rfl

theorem State.reset_eq_boot : State.reset = State.boot [] := rfl

/-! ## Composition -/

/-- A state is its fields. -/
theorem State.eq_of_fields {s t : State} (h₁ : s.src = t.src) (h₂ : s.cur = t.cur) (h₃ : s.used = t.used) (h₄ : s.eos = t.eos)
    (h₅ : s.pos = t.pos) (h₆ : s.serial = t.serial) (h₇ : s.results = t.results) : s = t := by
  cases s; cases t; simp_all

/-- Passing bytes one after the other is passing them all. -/
theorem State.passed_append (s : State) (bs cs : List Byte) : (s.passed bs).passed cs = s.passed (bs ++ cs) := by
  refine State.eq_of_fields rfl ?_ rfl rfl ?_ rfl rfl
  · cases cs using List.reverseRecOn with
    | nil => simp
    | append_singleton cs b => simp [← List.append_assoc]
  · simp [Nat.add_assoc]

/-- Passing no byte at a byte boundary changes nothing. -/
theorem State.passed_nil {s : State} (h : s.used = 8) : s.passed [] = s :=
  State.eq_of_fields rfl rfl h.symm rfl rfl rfl rfl

end Sys2Proof.Machine
end

