-- ==== Sys2Proof/Laws/Ops.lean ====
section
/-! SUPPORT. What each shared operation can do, said once. Later proofs cite these and do not unfold the operations. -/

namespace Sys2Proof.Machine

/-! ## Sequencing -/

@[simp] theorem Walk.bind_ok {α β : Type} (a : α) (s : State) (f : α → State → Walk β) : (Walk.ok a s).bind f = f a s := rfl
@[simp] theorem Walk.bind_fail {α β : Type} (o : DecodeOutcome) (s : State) (f : α → State → Walk β) :
    (Walk.fail o s : Walk α).bind f = .fail o s := rfl
@[simp] theorem Walk.bind_fault {α β : Type} (e : Fault) (f : α → State → Walk β) : (Walk.fault e : Walk α).bind f = .fault e := rfl

theorem Walk.bind_assoc {α β γ : Type} (x : Walk α) (f : α → State → Walk β) (g : β → State → Walk γ) :
    (x.bind f).bind g = x.bind fun a s => (f a s).bind g := by cases x <;> rfl

@[simp] theorem finish_ok (i : Instruction) (s : State) : finish (.ok i s) = .next (s.answer (.ok i)) := rfl
@[simp] theorem finish_fail (o : DecodeOutcome) (s : State) : finish (.fail o s) = .next (s.answer (.fail o)) := rfl
@[simp] theorem finish_fault (f : Fault) : finish (.fault f) = .fault f := rfl

/-- A `finish` that gives a next state has added exactly one answer to the state the walk ended in. -/
theorem finish_next {x : Walk Instruction} {t : State} (h : finish x = .next t) :
    (∃ i s, x = .ok i s ∧ t = s.answer (.ok i)) ∨ ∃ o s, x = .fail o s ∧ t = s.answer (.fail o) := by
  cases x with
  | ok i s => exact .inl ⟨i, s, rfl, by simpa [finish] using h.symm⟩
  | fail o s => exact .inr ⟨o, s, rfl, by simpa [finish] using h.symm⟩
  | fault f => simp [finish] at h

/-! ## `advance_byte` -/

theorem advanceByte_fault {s : State} (h : s.used ≠ 8) : advanceByte s = .fault .advanceWithUnreadBits := by
  simp [advanceByte, h]

theorem advanceByte_eos {s : State} (h : s.used = 8) (he : s.eos = true) : advanceByte s = .ok () s := by
  simp [advanceByte, h, he]

theorem advanceByte_byte {s : State} {b : Byte} (h : s.used = 8) (he : s.eos = false) (hb : s.src.read s.pos = some b) :
    advanceByte s = .ok () (s.receive (.byte b)) := by
  simp [advanceByte, h, he, srcNext, hb]

theorem advanceByte_atEnd {s : State} (h : s.used = 8) (he : s.eos = false) (hb : s.src.read s.pos = none) :
    advanceByte s = .ok () (s.receive .atEnd) := by
  simp [advanceByte, h, he, srcNext, hb]

/-- Everything `advance_byte` can do. -/
theorem advanceByte_cases (s : State) :
    (s.used ≠ 8 ∧ advanceByte s = .fault .advanceWithUnreadBits) ∨
    (s.used = 8 ∧ s.eos = true ∧ advanceByte s = .ok () s) ∨
    (s.used = 8 ∧ s.eos = false ∧ ∃ b, s.src.read s.pos = some b ∧ advanceByte s = .ok () (s.receive (.byte b))) ∨
    (s.used = 8 ∧ s.eos = false ∧ s.src.read s.pos = none ∧ advanceByte s = .ok () (s.receive .atEnd)) := by
  by_cases h : s.used = 8
  · cases he : s.eos with
    | true => exact .inr (.inl ⟨h, rfl, advanceByte_eos h he⟩)
    | false =>
      cases hb : s.src.read s.pos with
      | some b => exact .inr (.inr (.inl ⟨h, rfl, b, rfl, advanceByte_byte h he hb⟩))
      | none => exact .inr (.inr (.inr ⟨h, rfl, rfl, advanceByte_atEnd h he hb⟩))
  · exact .inl ⟨h, advanceByte_fault h⟩

/-! ## `peek`, `take`, `need_byte`, `fetch8` -/

theorem peek_ok {n : Nat} {s : State} (h : 1 ≤ n ∧ n ≤ 8 ∧ s.used + n ≤ 8) (he : s.eos = false) (hp : s.pos ≠ 0) :
    peek n s = .ok (s.cur.extractLsb' (8 - s.used - n) n) s := by
  simp [peek, h, he, hp]

/-- `peek` and `take` answer a value only within the precondition of rule R55. -/
theorem peek_inv {n : Nat} {s t : State} {v : BitVec n} (h : peek n s = .ok v t) :
    (1 ≤ n ∧ n ≤ 8 ∧ s.used + n ≤ 8) ∧ s.eos = false ∧ s.pos ≠ 0 ∧ v = s.cur.extractLsb' (8 - s.used - n) n ∧ t = s := by
  unfold peek at h
  split at h
  · cases h
  · rename_i hn
    split at h
    · cases h
    · rename_i he
      simp only [not_or, Bool.not_eq_true] at he
      cases h
      exact ⟨not_not.mp hn, he.1, he.2, rfl, rfl⟩

theorem take_ok {n : Nat} {s : State} (h : 1 ≤ n ∧ n ≤ 8 ∧ s.used + n ≤ 8) (he : s.eos = false) (hp : s.pos ≠ 0) :
    take n s = .ok (s.cur.extractLsb' (8 - s.used - n) n) { s with used := s.used + n } := by
  simp [take, peek_ok h he hp]

theorem take_inv {n : Nat} {s t : State} {v : BitVec n} (h : take n s = .ok v t) :
    (1 ≤ n ∧ n ≤ 8 ∧ s.used + n ≤ 8) ∧ s.eos = false ∧ s.pos ≠ 0 ∧ v = s.cur.extractLsb' (8 - s.used - n) n ∧
      t = { s with used := s.used + n } := by
  unfold take at h
  cases hp : peek n s with
  | ok w u =>
    obtain ⟨h1, h2, h3, rfl, rfl⟩ := peek_inv hp
    simp only [hp, Walk.bind_ok, Walk.ok.injEq] at h
    exact ⟨h1, h2, h3, h.1.symm, h.2.symm⟩
  | fail o u => simp [hp] at h
  | fault f => simp [hp] at h

theorem needByte_byte {s : State} {b : Byte} (h : s.used = 8) (he : s.eos = false) (hb : s.src.read s.pos = some b) :
    needByte s = .ok () (s.receive (.byte b)) := by
  simp [needByte, advanceByte_byte h he hb, he]

theorem needByte_missing {s : State} (h : s.used = 8) (hb : s.eos = true ∨ s.src.read s.pos = none) :
    needByte s = .fail (.malformedStream s.pos) s.ended := by
  cases he : s.eos with
  | true =>
    have : s.ended = s := State.ended_eq he
    simp [needByte, advanceByte_eos h he, he, this]
  | false =>
    have hb : s.src.read s.pos = none := by simpa [he] using hb
    simp [needByte, advanceByte_atEnd h he hb]
    rfl

theorem missingByte_missing {α : Type} {s : State} (h : s.used = 8) (hb : s.eos = true ∨ s.src.read s.pos = none) :
    (missingByte s : Walk α) = .fail (.malformedStream s.pos) s.ended := by
  cases he : s.eos with
  | true =>
    have : s.ended = s := State.ended_eq he
    simp [missingByte, advanceByte_eos h he, this]
  | false =>
    have hb : s.src.read s.pos = none := by simpa [he] using hb
    simp [missingByte, advanceByte_atEnd h he hb]
    rfl

/-- Taking all eight bits of a fresh byte. -/
theorem take8_fresh {s : State} (b : Byte) (he : s.eos = false) :
    take 8 (s.receive (.byte b)) = .ok b (s.passed [b]) := by
  rw [take_ok ⟨by omega, by omega, by simp⟩ (by simpa using he) (by simp)]
  simp only [State.receive_byte_cur, State.receive_byte_used, Walk.ok.injEq]
  refine ⟨?_, rfl⟩
  simp

theorem fetch8_byte {s : State} {b : Byte} (h : s.used = 8) (he : s.eos = false) (hb : s.src.read s.pos = some b) :
    fetch8 s = .ok b (s.passed [b]) := by
  simp [fetch8, needByte_byte h he hb, take8_fresh b he]

theorem fetch8_missing {s : State} (h : s.used = 8) (hb : s.eos = true ∨ s.src.read s.pos = none) :
    fetch8 s = .fail (.malformedStream s.pos) s.ended := by
  simp [fetch8, needByte_missing h hb]

theorem fetch8_fault {s : State} (h : s.used ≠ 8) : fetch8 s = .fault .advanceWithUnreadBits := by
  simp [fetch8, needByte, advanceByte_fault h]

/-- Everything `fetch8` can do. -/
theorem fetch8_cases (s : State) :
    (s.used ≠ 8 ∧ fetch8 s = .fault .advanceWithUnreadBits) ∨
    (s.used = 8 ∧ (s.eos = true ∨ s.src.read s.pos = none) ∧
      fetch8 s = .fail (.malformedStream s.pos) s.ended) ∨
    (s.used = 8 ∧ s.eos = false ∧ ∃ b, s.src.read s.pos = some b ∧ fetch8 s = .ok b (s.passed [b])) := by
  by_cases h : s.used = 8
  · cases he : s.eos with
    | true => exact .inr (.inl ⟨h, .inl rfl, fetch8_missing h (.inl he)⟩)
    | false =>
      cases hb : s.src.read s.pos with
      | some b => exact .inr (.inr ⟨h, rfl, b, rfl, fetch8_byte h he hb⟩)
      | none => exact .inr (.inl ⟨h, .inr rfl, fetch8_missing h (.inr hb)⟩)
  · exact .inl ⟨h, fetch8_fault h⟩

/-! ## Holding bytes -/

theorem State.Holds.head {s : State} {b : Byte} {bs : List Byte} (h : s.Holds (b :: bs)) : s.src.read s.pos = some b := by
  simpa using h 0 (by simp)

theorem State.Holds.tail {s : State} {b : Byte} {bs : List Byte} (h : s.Holds (b :: bs)) : (s.passed [b]).Holds bs := by
  intro k hk
  have := h (k + 1) (by simpa using hk)
  simpa [Nat.add_assoc, Nat.add_comm 1 k] using this

theorem State.Holds.take {s : State} {bs : List Byte} (h : s.Holds bs) (n : Nat) : s.Holds (bs.take n) := by
  intro k hk
  simp only [List.length_take] at hk
  rw [h k (by omega), List.getElem?_take, if_pos (by omega)]

theorem State.Holds.left {s : State} {bs cs : List Byte} (h : s.Holds (bs ++ cs)) : s.Holds bs := by
  simpa using h.take bs.length

/-- What a request sees of the stream (R52): its bytes begin with what the stream holds. -/
theorem State.window_of_holds {s : State} {bs : List Byte} (he : s.eos = false) (h : s.Holds bs) (hn : bs.length ≤ 6) :
    s.window = bs ++ s.src.bytesAt (s.pos + bs.length) (6 - bs.length) := by
  simpa [State.window, he] using s.src.bytesAt_of_holds bs s.pos 6 h hn

theorem State.holds_window {s : State} (he : s.eos = false) : s.Holds s.window := by
  intro k hk
  have hw : s.window = s.src.bytesAt s.pos 6 := by simp [State.window, he]
  rw [hw] at hk ⊢
  exact s.src.read_bytesAt s.pos 6 k hk

theorem State.window_length_le (s : State) : s.window.length ≤ 6 := by
  unfold State.window
  split
  · simp
  · exact s.src.bytesAt_length_le s.pos 6

theorem State.read_after_window {s : State} (he : s.eos = false) (h : s.window.length < 6) :
    s.src.read (s.pos + s.window.length) = none := by
  have hw : s.window = s.src.bytesAt s.pos 6 := by simp [State.window, he]
  rw [hw] at h ⊢
  exact s.src.read_after_bytesAt s.pos 6 h

/-! ## `skip` -/

/-- Fetching and consuming bytes that are there. -/
theorem skip_holds {s : State} (bs : List Byte) (h : s.used = 8) (he : s.eos = false) (hb : s.Holds bs) :
    skip bs.length s = .ok () (s.passed bs) := by
  induction bs generalizing s with
  | nil => simp [skip, State.passed_nil h]
  | cons b bs ih =>
    have := ih (s := s.passed [b]) rfl he hb.tail
    simpa [skip, fetch8_byte h he hb.head, State.passed_append] using this

/-- Fetching more bytes than there are. -/
theorem skip_short {s : State} (bs : List Byte) {n : Nat} (h : s.used = 8) (he : s.eos = false) (hb : s.Holds bs)
    (hend : s.src.read (s.pos + bs.length) = none) (hn : bs.length < n) :
    skip n s = .fail (.malformedStream (s.pos + bs.length)) (s.passed bs).ended := by
  induction bs generalizing s n with
  | nil =>
    obtain ⟨n, rfl⟩ : ∃ m, n = m + 1 := ⟨n - 1, by simp at hn; omega⟩
    rw [State.passed_nil h]
    simp [skip, fetch8_missing h (.inr (by simpa using hend))]
  | cons b bs ih =>
    obtain ⟨n, rfl⟩ : ∃ m, n = m + 1 := ⟨n - 1, by simp at hn; omega⟩
    have := ih (s := s.passed [b]) (n := n) rfl he hb.tail (by simpa [Nat.add_assoc, Nat.add_comm 1] using hend)
      (by simpa using hn)
    simpa [skip, fetch8_byte h he hb.head, State.passed_append, Nat.add_assoc, Nat.add_comm 1] using this

/-- Everything `skip` can do at a byte boundary. -/
theorem skip_cases (n : Nat) {s : State} (h : s.used = 8) (he : s.eos = false) :
    (∃ bs : List Byte, bs.length = n ∧ s.Holds bs ∧ skip n s = .ok () (s.passed bs)) ∨
    ∃ bs : List Byte, bs.length < n ∧ s.Holds bs ∧ s.src.read (s.pos + bs.length) = none ∧
      skip n s = .fail (.malformedStream (s.pos + bs.length)) (s.passed bs).ended := by
  have hb : s.Holds (s.src.bytesAt s.pos n) := fun k hk => s.src.read_bytesAt s.pos n k hk
  rcases Nat.lt_or_eq_of_le (s.src.bytesAt_length_le s.pos n) with hlt | heq
  · exact .inr ⟨_, hlt, hb, s.src.read_after_bytesAt _ _ hlt, skip_short _ h he hb (s.src.read_after_bytesAt _ _ hlt) hlt⟩
  · refine .inl ⟨_, heq, hb, ?_⟩
    conv_lhs => rw [← heq]
    exact skip_holds _ h he hb

/-! ## The request -/

theorem openRequest_serial {s : State} (h : s.serial ≠ .opcode) : openRequest s = .fault .requestInProgress := by
  simp [openRequest, h]

theorem openRequest_fault {s : State} (hs : s.serial = .opcode) (h : s.used ≠ 8) :
    openRequest s = .fault .advanceWithUnreadBits := by
  simp [openRequest, hs, advanceByte_fault h]

theorem openRequest_byte {s : State} {b : Byte} (h : s.Boundary) (he : s.eos = false) (hb : s.src.read s.pos = some b) :
    openRequest s = .ok s.pos (s.receive (.byte b)) := by
  simp [openRequest, h.serial, advanceByte_byte h.used he hb, he]

theorem openRequest_atEnd {s : State} (h : s.Boundary) (hb : s.eos = true ∨ s.src.read s.pos = none) :
    openRequest s = .fail .endOfStream s.ended := by
  cases he : s.eos with
  | true =>
    have : s.ended = s := State.ended_eq he
    simp [openRequest, h.serial, advanceByte_eos h.used he, he, this]
  | false =>
    have hb : s.src.read s.pos = none := by simpa [he] using hb
    simp [openRequest, h.serial, advanceByte_atEnd h.used he hb]
    rfl

/-- The request that finds no byte: the clean end (R121). -/
theorem openAtEnd_atEnd {α : Type} {s : State} (h : s.Boundary) (hb : s.eos = true ∨ s.src.read s.pos = none) :
    (openAtEnd s : Walk α) = .fail .endOfStream s.ended := by
  cases he : s.eos with
  | true =>
    have : s.ended = s := State.ended_eq he
    simp [openAtEnd, h.serial, advanceByte_eos h.used he, this]
  | false =>
    have hb : s.src.read s.pos = none := by simpa [he] using hb
    simp [openAtEnd, h.serial, advanceByte_atEnd h.used he hb]
    rfl

/-- Everything a request can do with its first byte. -/
theorem openRequest_cases (s : State) :
    (s.serial ≠ .opcode ∧ openRequest s = .fault .requestInProgress) ∨
    (s.serial = .opcode ∧ s.used ≠ 8 ∧ openRequest s = .fault .advanceWithUnreadBits) ∨
    (s.Boundary ∧ (s.eos = true ∨ s.src.read s.pos = none) ∧ openRequest s = .fail .endOfStream s.ended) ∨
    (s.Boundary ∧ s.eos = false ∧ ∃ b, s.src.read s.pos = some b ∧ openRequest s = .ok s.pos (s.receive (.byte b))) := by
  by_cases hs : s.serial = .opcode
  · by_cases hu : s.used = 8
    · cases he : s.eos with
      | true => exact .inr (.inr (.inl ⟨⟨hu, hs⟩, .inl rfl, openRequest_atEnd ⟨hu, hs⟩ (.inl he)⟩))
      | false =>
        cases hb : s.src.read s.pos with
        | some b => exact .inr (.inr (.inr ⟨⟨hu, hs⟩, rfl, b, rfl, openRequest_byte ⟨hu, hs⟩ he hb⟩))
        | none => exact .inr (.inr (.inl ⟨⟨hu, hs⟩, .inr rfl, openRequest_atEnd ⟨hu, hs⟩ (.inr hb)⟩))
    · exact .inr (.inl ⟨hs, hu, openRequest_fault hs hu⟩)
  · exact .inl ⟨hs, openRequest_serial hs⟩

/-! ## The shapes of a meaning -/

/-- An instruction whose bytes are there is consumed and answered (R128). -/
theorem retire_ready {s : State} {bs : List Byte} (mk : Nat → Instruction) (h : s.Ready bs) (hne : bs ≠ []) :
    retire bs.length mk s = .next ((s.passed bs).answer (.ok (mk s.pos))) := by
  obtain ⟨b, bs, rfl⟩ := List.exists_cons_of_ne_nil hne
  have hsk := skip_holds (s := s.passed [b]) bs rfl h.open_ h.holds.tail
  simp [retire, openRequest_byte h.boundary h.open_ h.holds.head, take8_fresh b h.open_, hsk, State.passed_append]

/-- An instruction that the stream cuts off after `bs` is answered `MalformedStream` (R254, R263). -/
theorem retire_cut {s : State} {bs : List Byte} {len : Nat} (mk : Nat → Instruction) (h : s.Ready bs) (hne : bs ≠ [])
    (hlt : bs.length < len) (hend : s.src.read (s.pos + bs.length) = none) :
    retire len mk s =
      .next (State.answer (s.passed bs).ended (.fail (.malformedStream (s.pos + bs.length)))) := by
  obtain ⟨b, bs, rfl⟩ := List.exists_cons_of_ne_nil hne
  have hsk := skip_short (s := s.passed [b]) bs (n := len - 1) rfl h.open_ h.holds.tail
    (by simpa [Nat.add_assoc, Nat.add_comm 1] using hend) (by simp at hlt; omega)
  simp [retire, openRequest_byte h.boundary h.open_ h.holds.head, take8_fresh b h.open_, hsk, State.passed_append,
    Nat.add_assoc, Nat.add_comm 1]

/-- A request at the end of the stream is answered `EndOfStream`, whatever the instruction (R121). -/
theorem retire_atEnd {s : State} (len : Nat) (mk : Nat → Instruction) (h : s.Boundary)
    (hb : s.eos = true ∨ s.src.read s.pos = none) :
    retire len mk s = .next (State.answer s.ended (.fail .endOfStream)) := by
  simp [retire, openRequest_atEnd h hb]

/-- Everything `retire` can answer. -/
theorem retire_next {s t : State} {len : Nat} {mk : Nat → Instruction} (hlen : 1 ≤ len) (h : retire len mk s = .next t) :
    s.Boundary ∧
    (((s.eos = true ∨ s.src.read s.pos = none) ∧ t = State.answer s.ended (.fail .endOfStream)) ∨
     (∃ bs : List Byte, bs.length = len ∧ s.Ready bs ∧ t = (s.passed bs).answer (.ok (mk s.pos))) ∨
     ∃ bs : List Byte, bs ≠ [] ∧ bs.length < len ∧ s.Ready bs ∧ s.src.read (s.pos + bs.length) = none ∧
       t = State.answer (s.passed bs).ended (.fail (.malformedStream (s.pos + bs.length)))) := by
  rcases openRequest_cases s with ⟨-, ho⟩ | ⟨-, -, ho⟩ | ⟨hB, hend, ho⟩ | ⟨hB, he, b, hb, ho⟩
  · simp [retire, ho] at h
  · simp [retire, ho] at h
  · rw [retire_atEnd len mk hB hend] at h
    exact ⟨hB, .inl ⟨hend, by simpa using h.symm⟩⟩
  · refine ⟨hB, .inr ?_⟩
    have hbs : s.Holds (s.src.bytesAt s.pos len) := fun k hk => s.src.read_bytesAt s.pos len k hk
    have hne : s.src.bytesAt s.pos len ≠ [] := by
      obtain ⟨n, rfl⟩ : ∃ n, len = n + 1 := ⟨len - 1, by omega⟩
      simp [Memory.bytesAt, hb]
    rcases Nat.lt_or_eq_of_le (s.src.bytesAt_length_le s.pos len) with hlt | heq
    · have hend := s.src.read_after_bytesAt s.pos len hlt
      rw [retire_cut mk ⟨hB, he, hbs⟩ hne hlt hend] at h
      exact .inr ⟨_, hne, hlt, ⟨hB, he, hbs⟩, hend, by simpa using h.symm⟩
    · have hr := retire_ready mk ⟨hB, he, hbs⟩ hne
      rw [heq, h] at hr
      exact .inl ⟨_, heq, ⟨hB, he, hbs⟩, by simpa using hr⟩

/-- A failing opcode byte is consumed and reported (R220, R253). -/
theorem failAtOpcode_ready {s : State} {op : Byte} (h : s.Ready [op]) :
    failAtOpcode s = .next ((s.passed [op]).answer (.fail (.unsupportedEncoding s.pos op))) := by
  simp [failAtOpcode, openRequest_byte h.boundary h.open_ h.holds.head, unsupported]
  rfl

/-- Everything `failAtOpcode` can answer. -/
theorem failAtOpcode_next {s t : State} (h : failAtOpcode s = .next t) :
    s.Boundary ∧
    (((s.eos = true ∨ s.src.read s.pos = none) ∧ t = State.answer s.ended (.fail .endOfStream)) ∨
     ∃ op, s.Ready [op] ∧ t = (s.passed [op]).answer (.fail (.unsupportedEncoding s.pos op))) := by
  rcases openRequest_cases s with ⟨-, ho⟩ | ⟨-, -, ho⟩ | ⟨hB, hend, ho⟩ | ⟨hB, he, b, hb, ho⟩
  · simp [failAtOpcode, ho] at h
  · simp [failAtOpcode, ho] at h
  · simp [failAtOpcode, ho] at h
    exact ⟨hB, .inl ⟨hend, h.symm⟩⟩
  · have hr : s.Ready [b] := ⟨hB, he, fun k hk => by
      obtain rfl : k = 0 := by simpa using hk
      simpa using hb⟩
    rw [failAtOpcode_ready hr] at h
    exact ⟨hB, .inr ⟨b, hr, by simpa using h.symm⟩⟩

/-- A failing selector: the opcode and ModRM bytes are consumed and the second is reported (R225, R253). -/
theorem failAtModrm_ready {s : State} {op m : Byte} (h : s.Ready [op, m]) :
    failAtModrm s = .next ((s.passed [op, m]).answer (.fail (.unsupportedEncoding (s.pos + 1) m))) := by
  have hn := needByte_byte (s := s.passed [op]) rfl h.open_ h.holds.tail.head
  simp [failAtModrm, openRequest_byte h.boundary h.open_ h.holds.head, take8_fresh op h.open_, hn, unsupported]
  rfl

/-- The ModRM byte of a failing selector is missing (R260 point 3). -/
theorem failAtModrm_cut {s : State} {op : Byte} (h : s.Ready [op]) (hend : s.src.read (s.pos + 1) = none) :
    failAtModrm s = .next (State.answer (s.passed [op]).ended (.fail (.malformedStream (s.pos + 1)))) := by
  have hn := needByte_missing (s := s.passed [op]) rfl (.inr (by simpa using hend))
  simp [failAtModrm, openRequest_byte h.boundary h.open_ h.holds.head, take8_fresh op h.open_, hn]

/-- Everything `failAtModrm` can answer. -/
theorem failAtModrm_next {s t : State} (h : failAtModrm s = .next t) :
    s.Boundary ∧
    (((s.eos = true ∨ s.src.read s.pos = none) ∧ t = State.answer s.ended (.fail .endOfStream)) ∨
     (∃ op m, s.Ready [op, m] ∧ t = (s.passed [op, m]).answer (.fail (.unsupportedEncoding (s.pos + 1) m))) ∨
     ∃ op, s.Ready [op] ∧ s.src.read (s.pos + 1) = none ∧
       t = State.answer (s.passed [op]).ended (.fail (.malformedStream (s.pos + 1)))) := by
  rcases openRequest_cases s with ⟨-, ho⟩ | ⟨-, -, ho⟩ | ⟨hB, hend, ho⟩ | ⟨hB, he, b, hb, ho⟩
  · simp [failAtModrm, ho] at h
  · simp [failAtModrm, ho] at h
  · simp [failAtModrm, ho] at h
    exact ⟨hB, .inl ⟨hend, h.symm⟩⟩
  · have hr : s.Ready [b] := ⟨hB, he, fun k hk => by
      obtain rfl : k = 0 := by simpa using hk
      simpa using hb⟩
    cases hm : s.src.read (s.pos + 1) with
    | none =>
      rw [failAtModrm_cut hr hm] at h
      exact ⟨hB, .inr (.inr ⟨b, hr, rfl, by simpa using h.symm⟩)⟩
    | some m =>
      have hr : s.Ready [b, m] := ⟨hB, he, fun k hk => by
        have : k = 0 ∨ k = 1 := by simp at hk; omega
        rcases this with rfl | rfl
        · simpa using hb
        · simpa using hm⟩
      rw [failAtModrm_ready hr] at h
      exact ⟨hB, .inr (.inl ⟨b, m, hr, by simpa using h.symm⟩)⟩

/-- The clean end (R121, R251). -/
theorem endOfStream_atEnd {s : State} (h : s.Boundary) (hb : s.eos = true ∨ s.src.read s.pos = none) :
    endOfStream s = .next (State.answer s.ended (.fail .endOfStream)) := by
  simp [endOfStream, openAtEnd_atEnd h hb]

/-- A truncated instruction (R254, R263). -/
theorem cutShort_ready {s : State} {bs : List Byte} (h : s.Ready bs) (hne : bs ≠ [])
    (hend : s.src.read (s.pos + bs.length) = none) :
    cutShort bs.length s =
      .next (State.answer (s.passed bs).ended (.fail (.malformedStream (s.pos + bs.length)))) := by
  obtain ⟨b, bs, rfl⟩ := List.exists_cons_of_ne_nil hne
  have hsk := skip_holds (s := s.passed [b]) bs rfl h.open_ h.holds.tail
  have hm := missingByte_missing (α := Instruction) (s := s.passed (b :: bs)) rfl (.inr (by simpa using hend))
  simp [cutShort, openRequest_byte h.boundary h.open_ h.holds.head, take8_fresh b h.open_, hsk, State.passed_append, hm]

end Sys2Proof.Machine
end

