-- ==== Sys2Proof/Laws/PerInstr.lean ====
section
/-! SUPPORT. Facts about every instruction as syntax, one lemma per constructor. Family EncodedLength: the encoding of a well-formed
instruction has the length of rules R95 to R99, between 1 and 6 bytes. -/

namespace Sys2Proof.Laws.EncodedLength

/-- The encoding's length is the size the rules give, and at most that of the longest instruction (R9). -/
def Statement (i : Instr) : Prop := i.wf = true → (encode i).length = i.size ∧ 1 ≤ i.size ∧ i.size ≤ 6

theorem ofFixed {i : Instr} (h : (encode i).length = i.size) (h₁ : Nat.ble 1 i.size = true) (h₂ : Nat.ble i.size 6 = true) :
    (encode i).length = i.size ∧ 1 ≤ i.size ∧ i.size ≤ 6 := ⟨h, Nat.le_of_ble_eq_true h₁, Nat.le_of_ble_eq_true h₂⟩

theorem ofRmReg {f : RmForm} (op : Byte) (reg : BitVec 3) (h : f.wf = true) :
    (encodeRmReg op reg f).length = 2 + ndisp f.modField f.rmField ∧ 1 ≤ 2 + ndisp f.modField f.rmField ∧
      2 + ndisp f.modField f.rmField ≤ 6 :=
  ⟨encodeRmReg_length h op reg, by omega, by have := ndisp_le f.modField f.rmField; omega⟩

theorem ofImmRm {s w : Bool} {f : RmForm} {imm : Imm} (o : ArithOp) (h : (f.wf && imm.fits (wideImmRm s w)) = true) :
    (encodeImmRm o s w f imm).length = 2 + ndisp f.modField f.rmField + nimm s w ∧
      1 ≤ 2 + ndisp f.modField f.rmField + nimm s w ∧ 2 + ndisp f.modField f.rmField + nimm s w ≤ 6 := by
  refine ⟨encodeImmRm_length h o, by omega, ?_⟩
  have := ndisp_le f.modField f.rmField
  have : nimm s w ≤ 2 := by unfold nimm; split <;> omega
  omega

theorem ofImm {w : Bool} {imm : Imm} (op : Byte) (h : imm.fits w = true) :
    (op :: imm.bytes).length = 2 + w.toNat ∧ 1 ≤ 2 + w.toNat ∧ 2 + w.toNat ≤ 6 :=
  ⟨opcodeAndImm_length h op, by omega, by have := Bool.toNat_le w; omega⟩

theorem je (off : Byte) : Statement (.je off) := fun _ => ofFixed rfl rfl rfl
theorem jl (off : Byte) : Statement (.jl off) := fun _ => ofFixed rfl rfl rfl
theorem jle (off : Byte) : Statement (.jle off) := fun _ => ofFixed rfl rfl rfl
theorem jb (off : Byte) : Statement (.jb off) := fun _ => ofFixed rfl rfl rfl
theorem jbe (off : Byte) : Statement (.jbe off) := fun _ => ofFixed rfl rfl rfl
theorem jp (off : Byte) : Statement (.jp off) := fun _ => ofFixed rfl rfl rfl
theorem jo (off : Byte) : Statement (.jo off) := fun _ => ofFixed rfl rfl rfl
theorem js (off : Byte) : Statement (.js off) := fun _ => ofFixed rfl rfl rfl
theorem jne (off : Byte) : Statement (.jne off) := fun _ => ofFixed rfl rfl rfl
theorem jnl (off : Byte) : Statement (.jnl off) := fun _ => ofFixed rfl rfl rfl
theorem jnle (off : Byte) : Statement (.jnle off) := fun _ => ofFixed rfl rfl rfl
theorem jnb (off : Byte) : Statement (.jnb off) := fun _ => ofFixed rfl rfl rfl
theorem jnbe (off : Byte) : Statement (.jnbe off) := fun _ => ofFixed rfl rfl rfl
theorem jnp (off : Byte) : Statement (.jnp off) := fun _ => ofFixed rfl rfl rfl
theorem jno (off : Byte) : Statement (.jno off) := fun _ => ofFixed rfl rfl rfl
theorem jns (off : Byte) : Statement (.jns off) := fun _ => ofFixed rfl rfl rfl
theorem loop (off : Byte) : Statement (.loop off) := fun _ => ofFixed rfl rfl rfl
theorem loopz (off : Byte) : Statement (.loopz off) := fun _ => ofFixed rfl rfl rfl
theorem loopnz (off : Byte) : Statement (.loopnz off) := fun _ => ofFixed rfl rfl rfl
theorem jcxz (off : Byte) : Statement (.jcxz off) := fun _ => ofFixed rfl rfl rfl
theorem addRmReg (d w : Bool) (reg : BitVec 3) (rm : RmForm) : Statement (.addRmReg d w reg rm) := ofRmReg _ reg
theorem subRmReg (d w : Bool) (reg : BitVec 3) (rm : RmForm) : Statement (.subRmReg d w reg rm) := ofRmReg _ reg
theorem cmpRmReg (d w : Bool) (reg : BitVec 3) (rm : RmForm) : Statement (.cmpRmReg d w reg rm) := ofRmReg _ reg
theorem addImmRm (s w : Bool) (rm : RmForm) (imm : Imm) : Statement (.addImmRm s w rm imm) := ofImmRm .add
theorem subImmRm (s w : Bool) (rm : RmForm) (imm : Imm) : Statement (.subImmRm s w rm imm) := ofImmRm .sub
theorem cmpImmRm (s w : Bool) (rm : RmForm) (imm : Imm) : Statement (.cmpImmRm s w rm imm) := ofImmRm .cmp
theorem addImmAcc (w : Bool) (imm : Imm) : Statement (.addImmAcc w imm) := ofImm _
theorem subImmAcc (w : Bool) (imm : Imm) : Statement (.subImmAcc w imm) := ofImm _
theorem cmpImmAcc (w : Bool) (imm : Imm) : Statement (.cmpImmAcc w imm) := ofImm _
theorem movRmReg (d w : Bool) (reg : BitVec 3) (rm : RmForm) : Statement (.movRmReg d w reg rm) := ofRmReg _ reg
theorem movImmReg (w : Bool) (idx : BitVec 3) (imm : Imm) : Statement (.movImmReg w idx imm) := ofImm _
theorem movImmRmUnimplemented (w : Bool) : Statement (.movImmRmUnimplemented w) :=
  fun _ => ofFixed rfl rfl rfl
theorem movAccMemUnimplemented (d w : Bool) : Statement (.movAccMemUnimplemented d w) :=
  fun _ => ofFixed rfl rfl rfl
theorem immRmBadSelector (s w : Bool) (mod : BitVec 2) (sel rm : BitVec 3) : Statement (.immRmBadSelector s w mod sel rm) :=
  fun _ => ofFixed rfl rfl rfl
theorem unsupportedOpcode (op : Byte) : Statement (.unsupportedOpcode op) :=
  fun _ => ofFixed rfl rfl rfl

end Sys2Proof.Laws.EncodedLength
end

