-- ==== Sys2Proof/Laws/Step.lean ====
section
/-! SUPPORT. Everything `exec` and `step` can answer, said once. Later proofs cite these and do not unfold the dispatch. -/

namespace Sys2Proof.Machine

/-! ## Shapes of the descriptors -/

/-- The operand of an operand form is a register or one memory operand, of the shape of R37. -/
theorem formOperand_cases (w : Bool) (f : RmForm) :
    (∃ idx, formOperand w f = .register w idx) ∨ (∃ a, formOperand w f = .memoryDirect a) ∨
    ∃ base disp, formOperand w f = .memoryIndirect base disp ∧ ∀ a, disp ≠ .direct16 a := by
  cases f with
  | register rm => exact .inl ⟨rm, rfl⟩
  | direct a => exact .inr (.inl ⟨a, rfl⟩)
  | indirect rm => exact .inr (.inr ⟨rm, .none, rfl, by simp⟩)
  | indirect8 rm b => exact .inr (.inr ⟨rm, disp8 b, rfl, by simp [disp8]⟩)
  | indirect16 rm v => exact .inr (.inr ⟨rm, .relative16 v, rfl, by simp⟩)

/-- An operand of R37's shape that is no immediate, with the counts R37 and R39 bound. -/
theorem formOperand_shape (w : Bool) (f : RmForm) :
    (formOperand w f).wellShaped = true ∧ (formOperand w f).isImmediate = false := by
  rcases formOperand_cases w f with ⟨idx, h⟩ | ⟨a, h⟩ | ⟨base, disp, h, hd⟩
  · simp [h, Operand.wellShaped, Operand.isImmediate]
  · simp [h, Operand.wellShaped, Operand.isImmediate]
  · rw [h]
    cases disp with
    | direct16 a => exact absurd rfl (hd a)
    | none | relative8Extended | relative16 => exact ⟨rfl, rfl⟩

theorem rmRegDescriptor_wellShaped {family : OpcodeFamily} (mnemonic : Mnemonic) (opcode : Byte) (d w : Bool) (reg : BitVec 3)
    (f : RmForm) (start : Nat) (hf : family = .addSubCmpRegMemWithReg ∨ family = .movRegMemToFromReg) :
    (rmRegDescriptor family mnemonic opcode d w f.modField reg f.rmField (RmForm.displacement f) start).wellShaped = true := by
  have h := formOperand_shape w f
  change (Instruction.mk family mnemonic (orderOperands d (regOperand w reg) (formOperand w f)) _).wellShaped = true
  generalize formOperand w f = op at h
  obtain ⟨h1, h2⟩ := h
  rcases hf with rfl | rfl <;> cases d <;> rcases op with _ | ⟨_, _ | _⟩ <;> first | rfl | contradiction

theorem immRmDescriptor_wellShaped (o : ArithOp) (opcode : Byte) (sx w : Bool) (reg : BitVec 3) (f : RmForm) (v : Word)
    (start : Nat) :
    (immRmDescriptor o opcode sx w f.modField reg f.rmField (RmForm.displacement f) v start).wellShaped = true := by
  have h := formOperand_shape w f
  change (Instruction.mk _ _ [formOperand w f, .immediate v] _).wellShaped = true
  generalize formOperand w f = op at h
  obtain ⟨h1, h2⟩ := h
  rcases op with _ | ⟨_, _ | _⟩ <;> first | rfl | contradiction

/-! ## `exec` -/

/-- What `exec` answers when it gives a next state, by the part of the instruction that the stream holds: none of it, all of
it (decoded, or reported at its first or second byte), or a beginning of it only. -/
inductive Answered (size : Nat) (s : State) : State → Prop where
  | atEnd (h : s.eos = true ∨ s.src.read s.pos = none) : Answered size s (State.answer s.ended (.fail .endOfStream))
  | decoded (bs : List Byte) (d : Instruction) (hr : s.Ready bs) (hl : bs.length = size) (h2 : 2 ≤ size)
      (h6 : size ≤ 6) (hs : d.fields.start = s.pos) (hn : d.fields.length = size) (hw : d.wellShaped = true) :
      Answered size s ((s.passed bs).answer (.ok d))
  | failedAtOpcode (op : Byte) (hr : s.Ready [op]) (hl : size = 1) :
      Answered size s ((s.passed [op]).answer (.fail (.unsupportedEncoding s.pos op)))
  | failedAtModrm (op m : Byte) (hr : s.Ready [op, m]) (hl : size = 2) :
      Answered size s ((s.passed [op, m]).answer (.fail (.unsupportedEncoding (s.pos + 1) m)))
  | cut (bs : List Byte) (hne : bs ≠ []) (hr : s.Ready bs) (hl : bs.length < size) (h6 : size ≤ 6)
      (hend : s.src.read (s.pos + bs.length) = none) :
      Answered size s (State.answer (s.passed bs).ended (.fail (.malformedStream (s.pos + bs.length))))

theorem retire_answered {s t : State} {len : Nat} {mk : Nat → Instruction} (h : retire len mk s = .next t) (h2 : 2 ≤ len)
    (h6 : len ≤ 6) (hs : ∀ n, (mk n).fields.start = n) (hn : ∀ n, (mk n).fields.length = len)
    (hw : ∀ n, (mk n).wellShaped = true) : s.Boundary ∧ Answered len s t := by
  obtain ⟨hB, ⟨he, rfl⟩ | ⟨bs, hl, hr, rfl⟩ | ⟨bs, hne, hlt, hr, hend, rfl⟩⟩ := retire_next (by omega) h
  · exact ⟨hB, .atEnd he⟩
  · exact ⟨hB, .decoded bs _ hr hl h2 h6 (hs _) (hn _) (hw _)⟩
  · exact ⟨hB, .cut bs hne hr hlt h6 hend⟩

theorem failAtOpcode_answered {s t : State} (h : failAtOpcode s = .next t) : s.Boundary ∧ Answered 1 s t := by
  obtain ⟨hB, ⟨he, rfl⟩ | ⟨op, hr, rfl⟩⟩ := failAtOpcode_next h
  · exact ⟨hB, .atEnd he⟩
  · exact ⟨hB, .failedAtOpcode op hr rfl⟩

theorem failAtModrm_answered {s t : State} (h : failAtModrm s = .next t) : s.Boundary ∧ Answered 2 s t := by
  obtain ⟨hB, ⟨he, rfl⟩ | ⟨op, m, hr, rfl⟩ | ⟨op, hr, hend, rfl⟩⟩ := failAtModrm_next h
  · exact ⟨hB, .atEnd he⟩
  · exact ⟨hB, .failedAtModrm op m hr rfl⟩
  · exact ⟨hB, .cut [op] (by simp) hr (by simp) (by omega) hend⟩

/-- Everything `exec` can answer. -/
theorem exec_answered {i : Instr} {s t : State} (h : exec i s = .next t) : s.Boundary ∧ Answered i.size s t := by
  have hnd := fun f : RmForm => ndisp_le f.modField f.rmField
  have hni : ∀ sx w, nimm sx w ≤ 2 := by decide
  have hni1 : ∀ sx w, 1 ≤ nimm sx w := by decide
  have hw2 : ∀ w : Bool, w.toNat ≤ 1 := by decide
  cases i
  case addRmReg d w reg f | subRmReg d w reg f | cmpRmReg d w reg f =>
    have := hnd f
    exact retire_answered h (by simp only [Instr.size]; omega) (by simp only [Instr.size]; omega) (fun _ => rfl) (fun _ => rfl)
      fun _ => rmRegDescriptor_wellShaped _ _ _ _ _ _ _ (.inl rfl)
  case movRmReg d w reg f =>
    have := hnd f
    exact retire_answered h (by simp only [Instr.size]; omega) (by simp only [Instr.size]; omega) (fun _ => rfl) (fun _ => rfl)
      fun _ => rmRegDescriptor_wellShaped _ _ _ _ _ _ _ (.inr rfl)
  case addImmRm sx w f imm | subImmRm sx w f imm | cmpImmRm sx w f imm =>
    have := hnd f
    have := hni sx w
    have := hni1 sx w
    exact retire_answered h (by simp only [Instr.size]; omega) (by simp only [Instr.size]; omega) (fun _ => rfl) (fun _ => rfl)
      fun _ => immRmDescriptor_wellShaped _ _ _ _ _ _ _ _
  case addImmAcc w imm | subImmAcc w imm | cmpImmAcc w imm =>
    have := hw2 w
    exact retire_answered h (by simp only [Instr.size]; omega) (by simp only [Instr.size]; omega) (fun _ => rfl) (fun _ => rfl) fun _ => rfl
  case movImmReg w idx imm =>
    have := hw2 w
    exact retire_answered h (by simp only [Instr.size]; omega) (by simp only [Instr.size]; omega) (fun _ => rfl) (fun _ => rfl) fun _ => rfl
  case movImmRmUnimplemented | movAccMemUnimplemented | unsupportedOpcode => exact failAtOpcode_answered h
  case immRmBadSelector => exact failAtModrm_answered h
  all_goals exact retire_answered h (by simp [Instr.size]) (by simp [Instr.size]) (fun _ => rfl) (fun _ => rfl) fun _ => rfl

/-! ## `step` -/

/-- A stream that ends inside an instruction ends within five bytes of its start. -/
theorem decodeAfter_none {op : Byte} {t : List Byte} {k : RowKind} (h : decodeAfter op t k = none) : t.length ≤ 4 := by
  have hrm : ∀ mk : BitVec 3 → RmForm → Instr, decodeRmReg mk t = none → t.length ≤ 4 := by
    intro mk h
    cases t with
    | nil => simp
    | cons m t =>
      have h : t.length < ndisp (modOf m) (rmOf m) := by simpa [decodeRmReg, decodeRm_none] using h
      have := ndisp_le (modOf m) (rmOf m)
      simp only [List.length_cons]
      omega
  have himm : ∀ {wide : Bool} {u : List Byte}, decodeImm wide u = none → u.length ≤ 1 := by
    intro wide u h
    rw [decodeImm_none] at h
    have : (if wide then 2 else 1) ≤ 2 := by split <;> omega
    omega
  cases k with
  | jump j => cases t <;> simp [decodeAfter] at h ⊢
  | arithRm o => exact hrm _ h
  | movRm => exact hrm _ h
  | arithAcc o =>
    have := himm (u := t) (by simpa [decodeAfter] using h)
    omega
  | movImm =>
    have := himm (u := t) (by simpa [decodeAfter] using h)
    omega
  | immRm =>
    cases t with
    | nil => simp
    | cons m t =>
      simp only [decodeAfter, decodeImmRm] at h
      cases hs : selectOp (regOf m) with
      | none => simp [hs] at h
      | some o =>
        simp only [hs] at h
        have hnd := ndisp_le (modOf m) (rmOf m)
        cases hd : decodeRm (modOf m) (rmOf m) t with
        | none =>
          have := decodeRm_none.mp hd
          simp only [List.length_cons]
          omega
        | some p =>
          obtain ⟨f, u⟩ := p
          have hu := himm (u := u) (by simpa [hd] using h)
          obtain ⟨hf, hmod, hrm', rfl⟩ := decodeRm_some hd
          have := dispBytes_length hf
          rw [hmod, hrm'] at this
          simp only [List.length_cons, List.length_append]
          omega
  | movImmRmUnimplemented | movAccMemUnimplemented | other => simp [decodeAfter] at h

/-- Decoding that stops inside an instruction has read all there was, one to five bytes. -/
theorem decode_cut {bs : List Byte} {n : Nat} (h : decode bs = .error (.cut n)) : n = bs.length ∧ bs ≠ [] ∧ bs.length ≤ 5 := by
  cases bs with
  | nil => simp [decode] at h
  | cons op t =>
    cases hd : decodeAfter op t (classify op) with
    | none =>
      have := decodeAfter_none hd
      simp only [decode, hd, Except.error.injEq, DecodeStop.cut.injEq] at h
      exact ⟨h.symm, by simp, by simp only [List.length_cons]; omega⟩
    | some r => simp [decode, hd] at h

theorem decode_noByte {bs : List Byte} : decode bs = .error .noByte ↔ bs = [] := by
  cases bs with
  | nil => simp [decode]
  | cons op t => cases hd : decodeAfter op t (classify op) <;> simp [decode, hd]

theorem State.window_nil {s : State} : s.window = [] ↔ s.eos = true ∨ s.src.read s.pos = none := by
  cases he : s.eos with
  | true => simp [State.window, he]
  | false => cases hb : s.src.read s.pos <;> simp [State.window, he, Memory.bytesAt, hb]

/-- The three things a step does, by what the bytes at `pos` decode to. -/
theorem step_ok {s : State} {i : Instr} {rest : List Byte} (h : decode s.window = .ok (i, rest)) : step s = exec i s := by
  simp [step, h]

theorem step_atEnd {s : State} (h : s.eos = true ∨ s.src.read s.pos = none) : step s = endOfStream s := by
  simp [step, decode_noByte.mpr (State.window_nil.mpr h)]

theorem step_cut {s : State} {n : Nat} (h : decode s.window = .error (.cut n)) : step s = cutShort n s := by
  simp [step, h]

theorem endOfStream_next {s t : State} (h : endOfStream s = .next t) (he : s.eos = true ∨ s.src.read s.pos = none) :
    s.Boundary ∧ t = State.answer s.ended (.fail .endOfStream) := by
  by_cases hs : s.serial = .opcode
  · by_cases hu : s.used = 8
    · rw [endOfStream_atEnd ⟨hu, hs⟩ he] at h
      exact ⟨⟨hu, hs⟩, by simpa using h.symm⟩
    · simp [endOfStream, openAtEnd, hs, advanceByte_fault hu] at h
  · simp [endOfStream, openAtEnd, hs] at h

/-- What is cut short is cut at a boundary. -/
theorem cutShort_boundary {s t : State} {n : Nat} (h : cutShort n s = .next t) : s.Boundary := by
  rcases openRequest_cases s with ⟨-, ho⟩ | ⟨-, -, ho⟩ | ⟨hB, -⟩ | ⟨hB, -⟩
  · simp [cutShort, ho] at h
  · simp [cutShort, ho] at h
  · exact hB
  · exact hB

/-- Everything a step can answer. -/
theorem step_answered {s t : State} (h : step s = .next t) : s.Boundary ∧ ∃ size ≤ 6, Answered size s t := by
  cases hd : decode s.window with
  | ok p =>
    rw [step_ok hd] at h
    exact ⟨(exec_answered h).1, _, p.1.size_le, (exec_answered h).2⟩
  | error e =>
    cases e with
    | noByte =>
      have he := State.window_nil.mp (decode_noByte.mp hd)
      rw [step_atEnd he] at h
      obtain ⟨hB, rfl⟩ := endOfStream_next h he
      exact ⟨hB, 6, le_rfl, .atEnd he⟩
    | cut n =>
      rw [step_cut hd] at h
      obtain ⟨rfl, hne, hle⟩ := decode_cut hd
      have he : s.eos = false := by
        cases he : s.eos with
        | true => exact absurd (State.window_nil.mpr (.inl he)) hne
        | false => rfl
      have hB := cutShort_boundary h
      have hr : s.Ready s.window := ⟨hB, he, State.holds_window he⟩
      have hend := State.read_after_window he (by omega)
      rw [cutShort_ready hr hne hend] at h
      obtain rfl : _ = t := by simpa using h
      exact ⟨hB, 6, le_rfl, .cut _ hne hr (by omega) le_rfl hend⟩

end Sys2Proof.Machine
end

