-- ==== Sys2Proof/Laws/Run.lean ====
section
/-! SUPPORT. Runs of several requests, unfolded one request at a time: the host's `run` and the caller's `driver`. -/

namespace Sys2Proof.Machine

theorem run_zero (s : State) : Host.Core.run core 0 s = .next s := rfl

theorem run_succ_of {M : Host.Core} {s s' : M.State} (k : Nat) (h : M.step s = .next s') : M.run (k + 1) s = M.run k s' := by
  simp [Host.Core.run, h]

theorem run_succ {s s' : State} (k : Nat) (h : step s = .next s') : Host.Core.run core (k + 1) s = Host.Core.run core k s' :=
  run_succ_of (M := core) k h

theorem run_succ_next_of {M : Host.Core} {s s' : M.State} {k : Nat} (h : M.run (k + 1) s = .next s') :
    ∃ u, M.step s = .next u ∧ M.run k u = .next s' := by
  cases hs : M.step s with
  | next u => exact ⟨u, rfl, by rw [← run_succ_of k hs]; exact h⟩
  | fault f => simp [Host.Core.run, hs] at h
  | refused r => simp [Host.Core.run, hs] at h

/-- A run that gives a next state has a first step that does. -/
theorem run_succ_next {s s' : State} {k : Nat} (h : Host.Core.run core (k + 1) s = .next s') :
    ∃ u, step s = .next u ∧ Host.Core.run core k u = .next s' :=
  run_succ_next_of (M := core) h

theorem driver_zero (policy : OnUnsupported) (s : State) : driver policy 0 s = .next s := rfl

theorem driver_succ (policy : OnUnsupported) {s s' : State} (n : Nat) (h : step s = .next s') :
    driver policy (n + 1) s = if s'.callerDone policy then .next s' else driver policy n s' := by
  rw [driver, h]

/-- A driver's run that gives a next state has a first request that is answered. -/
theorem driver_succ_next {policy : OnUnsupported} {s s' : State} {n : Nat} (h : driver policy (n + 1) s = .next s') :
    ∃ u, step s = .next u := by
  cases hs : step s with
  | next u => exact ⟨u, rfl⟩
  | fault f => rw [driver, hs] at h; cases h
  | refused r => rw [driver, hs] at h; cases h

/-- The latest answer decides whether the caller stops. -/
@[simp] theorem State.callerDone_answer (policy : OnUnsupported) (s : State) (r : DecodeResult) :
    (s.answer r).callerDone policy = callerStops policy r := by
  simp [State.callerDone]

end Sys2Proof.Machine
end

