-- ==== Sys2Proof/Laws/Walk.lean ====
section
/-! SUPPORT. The parts of the pseudocode's walk, said once: what the bit walk of `classify()` reads off an opcode byte, and what the
fetches of a displacement and of an immediate give, in terms of the decoder on bytes. -/

namespace Sys2Proof.Machine

/-! ## Bits of the current byte -/

theorem take_at {u : State} {k n : Nat} (he : u.eos = false) (hp : u.pos ≠ 0) (hn : 1 ≤ n ∧ n ≤ 8 ∧ k + n ≤ 8) :
    take n { u with used := k } = .ok (u.cur.extractLsb' (8 - k - n) n) { u with used := k + n } :=
  take_ok (s := { u with used := k }) hn he hp

theorem peek_at {u : State} {k n : Nat} (he : u.eos = false) (hp : u.pos ≠ 0) (hn : 1 ≤ n ∧ n ≤ 8 ∧ k + n ≤ 8) :
    peek n { u with used := k } = .ok (u.cur.extractLsb' (8 - k - n) n) { u with used := k } :=
  peek_ok (s := { u with used := k }) hn he hp

theorem extract_one_eq_bitOf : ∀ (b : Byte) (k : Fin 8), (b.extractLsb' k.val 1 == 1) = bitOf b k.val := by decide

theorem takeBit_at {u : State} {k : Nat} (he : u.eos = false) (hp : u.pos ≠ 0) (hk : k < 8) :
    takeBit { u with used := k } = .ok (bitOf u.cur (7 - k)) { u with used := k + 1 } := by
  have := extract_one_eq_bitOf u.cur ⟨7 - k, by omega⟩
  simp only at this
  rw [takeBit, take_at he hp (by omega), Walk.bind_ok, ← this, show 8 - k - 1 = 7 - k by omega]

/-! ## `classify()` -/

/-- What `classify()` goes on with, by the row of the opcode map (R123). -/
def afterOpcode (start : Nat) (op : Byte) (s : State) : RowKind → Walk Instruction
  | .arithRm o => walkRmReg .addSubCmpRegMemWithReg (.arith o) start op (bitOf op 1) (bitOf op 0) s
  | .movRm => walkRmReg .movRegMemToFromReg .mov start op (bitOf op 1) (bitOf op 0) s
  | .immRm => walkImmRm start op (bitOf op 1) (bitOf op 0) s
  | .arithAcc o => walkImmAcc start op o (bitOf op 0) s
  | .movImm => walkMovImm start op (bitOf op 3) (rmOf op) s
  | .jump _ | .movImmRmUnimplemented | .movAccMemUnimplemented | .other => unsupported s

/-- The row that the bit walk of R123 finds. -/
def classifyBits (op : Byte) : RowKind :=
  if bitOf op 7 then
    if op.extractLsb' 2 5 = 0b00000#5 then .immRm
    else if op.extractLsb' 2 5 = 0b00010#5 then .movRm
    else if op.extractLsb' 4 3 = 0b011#3 then .movImm
    else .other
  else if bitOf op 6 then .other
  else
    match selectOp (regOf op) with
    | none => .other
    | some o => if bitOf op 2 = false then .arithRm o else if bitOf op 1 then .other else .arithAcc o

/-- R92: the bit walk finds the row of the opcode map; the rows it does not tell apart are those that fail. -/
theorem classifyBits_eq : ∀ op : Byte, lookupJump op = none →
    classifyBits op = classify op ∨
    (classifyBits op = .other ∧ (classify op = .movImmRmUnimplemented ∨ classify op = .movAccMemUnimplemented)) := by
  decide

/-- The jump table is the jump rows of the opcode map (R122). -/
theorem lookupJump_eq : ∀ op : Byte, ∀ j, lookupJump op = some j ↔ classify op = .jump j := by
  intro op j
  cases j <;> revert op <;> decide

theorem lookupJump_none : ∀ op : Byte, lookupJump op = none → ∀ j, classify op ≠ .jump j := by
  intro op h j hj
  simp [(lookupJump_eq op j).mpr hj] at h

theorem unsupported_at {u : State} (k : Nat) :
    (unsupported { u with used := k } : Walk Instruction) = unsupported { u with used := 8 } := rfl

/-- The bit walk of `classify()` (R123), from a fresh opcode byte. -/
theorem classifyWalk_bits {u : State} (start : Nat) (he : u.eos = false) (hp : u.pos ≠ 0) :
    classifyWalk start u.cur { u with used := 0 } = afterOpcode start u.cur { u with used := 8 } (classifyBits u.cur) := by
  rw [classifyWalk, takeBit_at he hp (by omega)]
  simp only [Walk.bind_ok]
  cases h7 : bitOf u.cur 7 with
  | true =>
    simp only [classifyBits, h7, if_true, classifyHigh, peek_at he hp (k := 1) (n := 5) (by omega), Walk.bind_ok]
    simp only [Nat.reduceSub, BitVec.ofNat_eq_ofNat]
    by_cases h0 : u.cur.extractLsb' 2 5 = 0#5
    · rw [if_pos h0, if_pos h0, take_at he hp (by omega), Walk.bind_ok, takeBit_at he hp (by omega), Walk.bind_ok,
        takeBit_at he hp (by omega)]
      rfl
    · rw [if_neg h0, if_neg h0]
      by_cases h2 : u.cur.extractLsb' 2 5 = 2#5
      · rw [if_pos h2, if_pos h2, take_at he hp (by omega), Walk.bind_ok, takeBit_at he hp (by omega), Walk.bind_ok,
          takeBit_at he hp (by omega)]
        rfl
      · rw [if_neg h2, if_neg h2, peek_at he hp (by omega), Walk.bind_ok]
        simp only [Nat.reduceSub]
        by_cases h3 : u.cur.extractLsb' 4 3 = 3#3
        · rw [if_pos h3, if_pos h3, take_at he hp (by omega), Walk.bind_ok, takeBit_at he hp (by omega), Walk.bind_ok,
            take_at he hp (by omega)]
          rfl
        · rw [if_neg h3, if_neg h3]
          rfl
  | false =>
    simp only [classifyBits, h7, Bool.false_eq_true, if_false, classifyLow]
    rw [takeBit_at he hp (by omega), Walk.bind_ok]
    cases h6 : bitOf u.cur 6 with
    | true => simp only [if_true]; rfl
    | false =>
      simp only [Nat.reduceAdd, Bool.false_eq_true, if_false]
      rw [take_at he hp (by omega), Walk.bind_ok]
      change (match selectOp (regOf u.cur) with
        | none => _
        | some o => _) = _
      cases hs : selectOp (regOf u.cur) with
      | none => rfl
      | some o =>
        simp only []
        rw [takeBit_at he hp (by omega), Walk.bind_ok]
        simp only [Nat.reduceSub, Nat.reduceAdd]
        cases h2 : bitOf u.cur 2 with
        | false =>
          simp only [if_true]
          rw [takeBit_at he hp (by omega), Walk.bind_ok, takeBit_at he hp (by omega)]
          rfl
        | true =>
          simp only [Bool.true_eq_false, if_false]
          rw [takeBit_at he hp (by omega), Walk.bind_ok]
          simp only [Nat.reduceSub, Nat.reduceAdd]
          cases h1 : bitOf u.cur 1 with
          | true => rfl
          | false =>
            simp only [Bool.false_eq_true, if_false]
            rw [takeBit_at he hp (by omega)]
            rfl

/-- `classify()` goes on with the row of the opcode map (R123, R92). -/
theorem classifyWalk_eq {s : State} (start : Nat) (op : Byte) (he : s.eos = false) (hj : lookupJump op = none) :
    classifyWalk start op (s.receive (.byte op)) = afterOpcode start op (s.passed [op]) (classify op) := by
  have h := classifyWalk_bits (u := s.receive (.byte op)) start he (by simp)
  refine Eq.trans h ?_
  show afterOpcode start op (s.passed [op]) (classifyBits op) = _
  rcases classifyBits_eq op hj with hc | ⟨hc, hc' | hc'⟩
  · rw [hc]
  · rw [hc, hc']; rfl
  · rw [hc, hc']; rfl

/-! ## Fetches -/

/-- Where one byte is read from `n` on (`n` at least 1): the fetch gives it, or is cut. -/
theorem fetch8_bytesAt {s : State} {n : Nat} (hu : s.used = 8) (he : s.eos = false) (hn : 1 ≤ n) :
    (∃ b, s.src.bytesAt s.pos n = b :: s.src.bytesAt (s.pos + 1) (n - 1) ∧ fetch8 s = .ok b (s.passed [b])) ∨
    (s.src.bytesAt s.pos n = [] ∧ fetch8 s = .fail (.malformedStream s.pos) s.ended) := by
  obtain ⟨n, rfl⟩ : ∃ m, n = m + 1 := ⟨n - 1, by omega⟩
  cases hb : s.src.read s.pos with
  | some b => exact .inl ⟨b, by simp [Memory.bytesAt, hb], fetch8_byte hu he hb⟩
  | none => exact .inr ⟨by simp [Memory.bytesAt, hb], fetch8_missing hu (.inr hb)⟩

/-- A 16-bit field (R60): the fetch gives what the decoder reads, or is cut where the bytes end. -/
theorem fetch16_bytesAt {s : State} {n : Nat} (hu : s.used = 8) (he : s.eos = false) (hn : 2 ≤ n) :
    (∃ v, s.src.bytesAt s.pos n = wordBytes v ++ s.src.bytesAt (s.pos + 2) (n - 2) ∧ fetch16 s = .ok v (s.passed (wordBytes v))) ∨
    ((s.src.bytesAt s.pos n).length < 2 ∧
      fetch16 s = .fail (.malformedStream (s.pos + (s.src.bytesAt s.pos n).length)) (s.passed (s.src.bytesAt s.pos n)).ended) := by
  rcases fetch8_bytesAt (n := n) hu he (by omega) with ⟨lo, hlo, hf⟩ | ⟨hnil, hf⟩
  · rcases fetch8_bytesAt (s := s.passed [lo]) (n := n - 1) rfl he (by omega) with ⟨hi, hhi, hf'⟩ | ⟨hnil, hf'⟩
    · simp only [State.passed_src, State.passed_pos, List.length_singleton] at hhi
      refine .inl ⟨concatBytes hi lo, ?_, ?_⟩
      · rw [hlo, hhi, wordBytes_concatBytes]; rfl
      · rw [fetch16, hf, Walk.bind_ok, hf', Walk.bind_ok, State.passed_append, wordBytes_concatBytes]; rfl
    · simp only [State.passed_src, State.passed_pos, List.length_singleton] at hnil
      refine .inr ?_
      rw [hlo, hnil, fetch16, hf, Walk.bind_ok, hf']
      exact ⟨by simp, by simp⟩
  · refine .inr ?_
    rw [hnil, State.passed_nil hu, fetch16, hf]
    exact ⟨by simp, by simp⟩

/-- The displacement (R150): the fetch gives what the decoder reads, or is cut where the bytes end. -/
theorem fetchDisp_bytesAt {s : State} {n : Nat} (mod : BitVec 2) (rm : BitVec 3) (hu : s.used = 8) (he : s.eos = false) (hn : 2 ≤ n) :
    (∃ f, decodeRm mod rm (s.src.bytesAt s.pos n) =
        some (f, s.src.bytesAt (s.pos + f.dispBytes.length) (n - f.dispBytes.length)) ∧
      fetchDisp mod rm s = .ok (RmForm.displacement f) (s.passed f.dispBytes)) ∨
    (decodeRm mod rm (s.src.bytesAt s.pos n) = none ∧ (s.src.bytesAt s.pos n).length < 2 ∧
      fetchDisp mod rm s =
        .fail (.malformedStream (s.pos + (s.src.bytesAt s.pos n).length)) (s.passed (s.src.bytesAt s.pos n)).ended) := by
  rcases mod_cases mod with rfl | rfl | rfl | rfl
  · by_cases hrm : rm = 6#3
    · subst hrm
      rcases fetch16_bytesAt (n := n) hu he hn with ⟨v, hv, hf⟩ | ⟨hl, hf⟩
      · refine .inl ⟨.direct v, ?_, ?_⟩
        · rw [hv]; simp [decodeRm, RmForm.dispBytes]
        · simp [fetchDisp, hf, RmForm.displacement, RmForm.dispBytes]
      · exact .inr ⟨by simpa [decodeRm, decodeWord_none] using hl, hl, by simp [fetchDisp, hf]⟩
    · exact .inl ⟨.indirect rm, by simp [decodeRm, hrm, RmForm.dispBytes],
        by simp [fetchDisp, hrm, RmForm.displacement, RmForm.dispBytes, State.passed_nil hu]⟩
  · rcases fetch8_bytesAt (n := n) hu he (by omega) with ⟨b, hb, hf⟩ | ⟨hnil, hf⟩
    · exact .inl ⟨.indirect8 rm b, by rw [hb]; simp [decodeRm, RmForm.dispBytes],
        by simp [fetchDisp, hf, RmForm.displacement, RmForm.dispBytes]⟩
    · exact .inr ⟨by simp [decodeRm, hnil], by simp [hnil], by simp [fetchDisp, hf, hnil, State.passed_nil hu]⟩
  · rcases fetch16_bytesAt (n := n) hu he hn with ⟨v, hv, hf⟩ | ⟨hl, hf⟩
    · exact .inl ⟨.indirect16 rm v, by rw [hv]; simp [decodeRm, RmForm.dispBytes],
        by simp [fetchDisp, hf, RmForm.displacement, RmForm.dispBytes]⟩
    · exact .inr ⟨by simpa [decodeRm, decodeWord_none] using hl, hl, by simp [fetchDisp, hf]⟩
  · exact .inl ⟨.register rm, by simp [decodeRm, RmForm.dispBytes],
      by simp [fetchDisp, RmForm.displacement, RmForm.dispBytes, State.passed_nil hu]⟩

/-- One or two immediate bytes: what is fetched is what the decoder reads, or the fetch is cut where the bytes end. `g` widens a single
byte. -/
theorem fetchImm_bytesAt {s : State} {n : Nat} (wide : Bool) (g : Byte → Word) (hu : s.used = 8) (he : s.eos = false) (hn : 2 ≤ n) :
    (∃ imm, decodeImm wide (s.src.bytesAt s.pos n) = some (imm, s.src.bytesAt (s.pos + imm.bytes.length) (n - imm.bytes.length)) ∧
      (if wide then fetch16 s else (fetch8 s).bind fun b s => .ok (g b) s) =
        .ok (match imm with | .byte b => g b | .word v => v) (s.passed imm.bytes)) ∨
    (decodeImm wide (s.src.bytesAt s.pos n) = none ∧ (s.src.bytesAt s.pos n).length < 2 ∧
      (if wide then fetch16 s else (fetch8 s).bind fun b s => .ok (g b) s) =
        .fail (.malformedStream (s.pos + (s.src.bytesAt s.pos n).length)) (s.passed (s.src.bytesAt s.pos n)).ended) := by
  cases wide with
  | true =>
    rcases fetch16_bytesAt (n := n) hu he hn with ⟨v, hv, hf⟩ | ⟨hl, hf⟩
    · exact .inl ⟨.word v, by rw [hv]; simp [decodeImm, Imm.bytes], by simp [hf, Imm.bytes]⟩
    · exact .inr ⟨by simpa [decodeImm, decodeWord_none] using hl, hl, by simp [hf]⟩
  | false =>
    rcases fetch8_bytesAt (n := n) hu he (by omega) with ⟨b, hb, hf⟩ | ⟨hnil, hf⟩
    · exact .inl ⟨.byte b, by rw [hb]; simp [decodeImm, Imm.bytes], by simp [hf, Imm.bytes]⟩
    · exact .inr ⟨by simp [decodeImm, hnil], by simp [hnil], by simp [hf, hnil, State.passed_nil hu]⟩

end Sys2Proof.Machine
end

