-- ==== Sys2Proof/Tests/Slice0.lean ====
section
/-! SUPPORT. Tests: ill-formed terms, words written out from the spec's encodings (R81, R82, R84 to R91), one step each on the
spec's own vectors (95_test_vectors.md; the id stands in each docstring), and a witness for the hypotheses of every statement. -/

namespace Sys2Proof.Tests

open Sys2Proof.Machine

/-! ## Helpers -/

/-- What the first request answers when it decodes an instruction: operands, length, `cur` and `pos` after. -/
def decoded (bs : List Byte) : Option (List Operand × Nat × Byte × Nat) :=
  match step (State.boot bs) with
  | .next s =>
    match s.results with
    | [.ok i] => some (i.operands, i.fields.length, s.cur, s.pos)
    | _ => none
  | _ => none

/-- What the first request answers when it decodes no instruction: the outcome, and `cur`, `used`, `eos`, `pos` after. -/
def failed (bs : List Byte) : Option (DecodeOutcome × Byte × Nat × Bool × Nat) :=
  match step (State.boot bs) with
  | .next s =>
    match s.results with
    | [.fail o] => some (o, s.cur, s.used, s.eos, s.pos)
    | _ => none
  | _ => none

/-- The lines a caller emits, and the cursor when it stops. -/
def lines (policy : OnUnsupported) (bs : List Byte) : Option (List String × Byte × Nat × Bool × Nat) :=
  match run policy (State.boot bs) with
  | .next s => some (emittedLines s.results, s.cur, s.used, s.eos, s.pos)
  | _ => none

/-- The state inside a byte-serial walk after `n` byte requests. -/
def serialAfter : Nat → State → Option State
  | 0, s => some s
  | n + 1, s =>
    match serialStep s with
    | .next s => serialAfter n s
    | _ => none

/-- The bytes of a stream begin it. -/
theorem boot_ready (bs cs : List Byte) : (State.boot (bs ++ cs)).Ready bs :=
  ⟨⟨rfl, rfl⟩, rfl, fun k hk => by simp [List.getElem?_append_left hk]⟩

theorem boot_inv (bs : List Byte) : (State.boot bs).Inv := ⟨by simp, by simp, by simp, by simp, by simp⟩

/-! ## Ill-formed terms are refused -/

/-- R143, R144: mod 00 with rm 110 is no base expression; here in each form that has an operand. -/
theorem test_wf_no_base_expression : (Instr.addRmReg true true 0 (.indirect 6)).wf = false ∧
    (Instr.subRmReg true true 0 (.indirect 6)).wf = false ∧ (Instr.cmpRmReg true true 0 (.indirect 6)).wf = false ∧
    (Instr.movRmReg true true 0 (.indirect 6)).wf = false ∧ (Instr.addImmRm true true (.indirect 6) (.byte 0)).wf = false := by
  decide
/-- R102: two immediate bytes exactly when `s = 0` and `w = 1`. -/
theorem test_wf_immRm_width : (Instr.addImmRm false true (.register 0) (.byte 1)).wf = false ∧
    (Instr.subImmRm true true (.register 0) (.word 1)).wf = false ∧ (Instr.cmpImmRm true false (.register 0) (.word 1)).wf = false ∧
    (Instr.cmpImmRm false false (.register 0) (.word 1)).wf = false := by decide
/-- R103: two immediate bytes exactly when `w = 1`. -/
theorem test_wf_immAcc_width : (Instr.addImmAcc true (.byte 1)).wf = false ∧ (Instr.subImmAcc false (.word 1)).wf = false ∧
    (Instr.cmpImmAcc true (.byte 1)).wf = false := by decide
/-- R104: the same for the register form. -/
theorem test_wf_movImmReg_width : (Instr.movImmReg true 3 (.byte 1)).wf = false ∧ (Instr.movImmReg false 3 (.word 1)).wf = false := by
  decide
/-- R90, R225: 000, 101 and 111 name an operation, so they do not fail. -/
theorem test_wf_good_selector_fails_not : (Instr.immRmBadSelector true true 3 0b000 0).wf = false ∧
    (Instr.immRmBadSelector true true 3 0b101 0).wf = false ∧ (Instr.immRmBadSelector true true 3 0b111 0).wf = false := by decide
/-- R109: a byte of another row is not of the catch-all row; 0xA0 and 0xC6 have rows of their own. -/
theorem test_wf_other_rows_bytes : (Instr.unsupportedOpcode 0x89).wf = false ∧ (Instr.unsupportedOpcode 0x75).wf = false ∧
    (Instr.unsupportedOpcode 0xA0).wf = false ∧ (Instr.unsupportedOpcode 0xC6).wf = false ∧
    (Instr.unsupportedOpcode 0x80).wf = false := by decide
/-- R109: 188 bytes are of the catch-all row. -/
theorem test_wf_catch_all_counts_188 : ((List.range 256).countP fun n => otherOpcode (BitVec.ofNat 8 n)) = 188 := by
  decide +kernel

/-! ## Words written out, and one step on each -/

theorem test_decode_jo : decode [0b01110000, 0b00000000] = .ok (.jo 0x00, []) := by decide
/-- J1. -/
theorem test_step_jo : decoded [0x70, 0x00] = some ([.immediate 0x0000], 2, 0x00, 2) := by decide
theorem test_decode_jno : decode [0b01110001, 0b00000001] = .ok (.jno 0x01, []) := by decide
/-- J2. -/
theorem test_step_jno : decoded [0x71, 0x01] = some ([.immediate 0x0001], 2, 0x01, 2) := by decide
theorem test_decode_jb : decode [0b01110010, 0b01111111] = .ok (.jb 0x7F, []) := by decide
/-- J3. -/
theorem test_step_jb : decoded [0x72, 0x7F] = some ([.immediate 0x007F], 2, 0x7F, 2) := by decide
theorem test_decode_jnb : decode [0b01110011, 0b10000000] = .ok (.jnb 0x80, []) := by decide
/-- J4. -/
theorem test_step_jnb : decoded [0x73, 0x80] = some ([.immediate 0xFF80], 2, 0x80, 2) := by decide
theorem test_decode_je : decode [0b01110100, 0b11111111] = .ok (.je 0xFF, []) := by decide
/-- J5. -/
theorem test_step_je : decoded [0x74, 0xFF] = some ([.immediate 0xFFFF], 2, 0xFF, 2) := by decide
theorem test_decode_jne : decode [0b01110101, 0b11111110] = .ok (.jne 0xFE, []) := by decide
/-- J6, S2. -/
theorem test_step_jne : decoded [0x75, 0xFE] = some ([.immediate 0xFFFE], 2, 0xFE, 2) := by decide
theorem test_decode_jbe : decode [0b01110110, 0b00010000] = .ok (.jbe 0x10, []) := by decide
/-- J7. -/
theorem test_step_jbe : decoded [0x76, 0x10] = some ([.immediate 0x0010], 2, 0x10, 2) := by decide
theorem test_decode_jnbe : decode [0b01110111, 0b11110000] = .ok (.jnbe 0xF0, []) := by decide
/-- J8. -/
theorem test_step_jnbe : decoded [0x77, 0xF0] = some ([.immediate 0xFFF0], 2, 0xF0, 2) := by decide
theorem test_decode_js : decode [0b01111000, 0b00000010] = .ok (.js 0x02, []) := by decide
/-- J9. -/
theorem test_step_js : decoded [0x78, 0x02] = some ([.immediate 0x0002], 2, 0x02, 2) := by decide
theorem test_decode_jns : decode [0b01111001, 0b11111101] = .ok (.jns 0xFD, []) := by decide
/-- J10. -/
theorem test_step_jns : decoded [0x79, 0xFD] = some ([.immediate 0xFFFD], 2, 0xFD, 2) := by decide
theorem test_decode_jp : decode [0b01111010, 0b00000101] = .ok (.jp 0x05, []) := by decide
/-- J11. -/
theorem test_step_jp : decoded [0x7A, 0x05] = some ([.immediate 0x0005], 2, 0x05, 2) := by decide
theorem test_decode_jnp : decode [0b01111011, 0b11111011] = .ok (.jnp 0xFB, []) := by decide
/-- J12. -/
theorem test_step_jnp : decoded [0x7B, 0xFB] = some ([.immediate 0xFFFB], 2, 0xFB, 2) := by decide
theorem test_decode_jl : decode [0b01111100, 0b01111110] = .ok (.jl 0x7E, []) := by decide
/-- J13. -/
theorem test_step_jl : decoded [0x7C, 0x7E] = some ([.immediate 0x007E], 2, 0x7E, 2) := by decide
theorem test_decode_jnl : decode [0b01111101, 0b10000001] = .ok (.jnl 0x81, []) := by decide
/-- J14. -/
theorem test_step_jnl : decoded [0x7D, 0x81] = some ([.immediate 0xFF81], 2, 0x81, 2) := by decide
theorem test_decode_jle : decode [0b01111110, 0b00001010] = .ok (.jle 0x0A, []) := by decide
/-- J15. -/
theorem test_step_jle : decoded [0x7E, 0x0A] = some ([.immediate 0x000A], 2, 0x0A, 2) := by decide
theorem test_decode_jnle : decode [0b01111111, 0b11110110] = .ok (.jnle 0xF6, []) := by decide
/-- J16. -/
theorem test_step_jnle : decoded [0x7F, 0xF6] = some ([.immediate 0xFFF6], 2, 0xF6, 2) := by decide
theorem test_decode_loopnz : decode [0b11100000, 0b11111100] = .ok (.loopnz 0xFC, []) := by decide
/-- J17. -/
theorem test_step_loopnz : decoded [0xE0, 0xFC] = some ([.immediate 0xFFFC], 2, 0xFC, 2) := by decide
theorem test_decode_loopz : decode [0b11100001, 0b00000100] = .ok (.loopz 0x04, []) := by decide
/-- J18. -/
theorem test_step_loopz : decoded [0xE1, 0x04] = some ([.immediate 0x0004], 2, 0x04, 2) := by decide
theorem test_decode_loop : decode [0b11100010, 0b11110000] = .ok (.loop 0xF0, []) := by decide
/-- J19. -/
theorem test_step_loop : decoded [0xE2, 0xF0] = some ([.immediate 0xFFF0], 2, 0xF0, 2) := by decide
theorem test_decode_jcxz : decode [0b11100011, 0b00000000] = .ok (.jcxz 0x00, []) := by decide
/-- J20. -/
theorem test_step_jcxz : decoded [0xE3, 0x00] = some ([.immediate 0x0000], 2, 0x00, 2) := by decide

theorem test_decode_addRmReg : decode [0b00000001, 0b11011000] =
    .ok (.addRmReg false true 0b011 (.register 0b000), []) := by decide
/-- A1. -/
theorem test_step_addRmReg : decoded [0x01, 0xD8] =
    some ([.register true 0, .register true 3], 2, 0xD8, 2) := by decide
theorem test_decode_subRmReg : decode [0b00101001, 0b10010001, 0b00000000, 0b10000000] =
    .ok (.subRmReg false true 0b010 (.indirect16 0b001 0x8000), []) := by decide
/-- A6. -/
theorem test_step_subRmReg : decoded [0x29, 0x91, 0x00, 0x80] =
    some ([.memoryIndirect 1 (.relative16 0x8000), .register true 2], 4, 0x80, 4) := by decide
theorem test_decode_cmpRmReg : decode [0b00111010, 0b01000000, 0b11111111] =
    .ok (.cmpRmReg true false 0b000 (.indirect8 0b000 0xFF), []) := by decide
/-- A12. -/
theorem test_step_cmpRmReg : decoded [0x3A, 0x40, 0xFF] =
    some ([.register false 0, .memoryIndirect 0 (.relative8Extended 0x00FF)], 3, 0xFF, 3) := by decide
theorem test_decode_addImmRm : decode [0b10000010, 0b11000001, 0b10000000] =
    .ok (.addImmRm true false (.register 0b001) (.byte 0x80), []) := by decide
/-- I7. -/
theorem test_step_addImmRm : decoded [0x82, 0xC1, 0x80] =
    some ([.register false 1, .immediate 0xFF80], 3, 0x80, 3) := by decide
theorem test_decode_subImmRm : decode [0b10000001, 0b10101100, 0b00000000, 0b00010000, 0b11111111, 0b11111111] =
    .ok (.subImmRm false true (.indirect16 0b100 0x1000) (.word 0xFFFF), []) := by decide
/-- I5. -/
theorem test_step_subImmRm : decoded [0x81, 0xAC, 0x00, 0x10, 0xFF, 0xFF] =
    some ([.memoryIndirect 4 (.relative16 0x1000), .immediate 0xFFFF], 6, 0xFF, 6) := by decide
theorem test_decode_cmpImmRm : decode [0b10000001, 0b00111110, 0b00000000, 0b00000001, 0b00110100, 0b00010010] =
    .ok (.cmpImmRm false true (.direct 0x0100) (.word 0x1234), []) := by decide
/-- I4. -/
theorem test_step_cmpImmRm : decoded [0x81, 0x3E, 0x00, 0x01, 0x34, 0x12] =
    some ([.memoryDirect 0x0100, .immediate 0x1234], 6, 0x12, 6) := by decide
theorem test_decode_addImmAcc : decode [0b00000100, 0b00001001] =
    .ok (.addImmAcc false (.byte 0x09), []) := by decide
/-- C1. -/
theorem test_step_addImmAcc : decoded [0x04, 0x09] =
    some ([.accumulator false, .immediate 0x0009], 2, 0x09, 2) := by decide
theorem test_decode_subImmAcc : decode [0b00101101, 0b00000000, 0b10000000] =
    .ok (.subImmAcc true (.word 0x8000), []) := by decide
/-- C4. -/
theorem test_step_subImmAcc : decoded [0x2D, 0x00, 0x80] =
    some ([.accumulator true, .immediate 0x8000], 3, 0x80, 3) := by decide
theorem test_decode_cmpImmAcc : decode [0b00111100, 0b11111111] =
    .ok (.cmpImmAcc false (.byte 0xFF), []) := by decide
/-- C5. -/
theorem test_step_cmpImmAcc : decoded [0x3C, 0xFF] =
    some ([.accumulator false, .immediate 0x00FF], 2, 0xFF, 2) := by decide
theorem test_decode_movRmReg : decode [0b10001010, 0b00000110, 0b00110100, 0b00010010] =
    .ok (.movRmReg true false 0b000 (.direct 0x1234), []) := by decide
/-- M18. -/
theorem test_step_movRmReg : decoded [0x8A, 0x06, 0x34, 0x12] =
    some ([.register false 0, .memoryDirect 0x1234], 4, 0x12, 4) := by decide
theorem test_decode_movImmReg : decode [0b10111001, 0b00110100, 0b00010010] =
    .ok (.movImmReg true 0b001 (.word 0x1234), []) := by decide
/-- R6. -/
theorem test_step_movImmReg : decoded [0xB9, 0x34, 0x12] =
    some ([.register true 1, .immediate 0x1234], 3, 0x12, 3) := by decide
theorem test_decode_movImmRmUnimplemented : decode [0b11000111, 0b00000110] = .ok (.movImmRmUnimplemented true, [0x06]) := by decide
/-- X2. -/
theorem test_step_movImmRmUnimplemented : failed [0xC7, 0x06, 0x00, 0x10, 0x34, 0x12] =
    some (.unsupportedEncoding 0 0xC7, 0xC7, 8, false, 1) := by decide
theorem test_decode_movAccMemUnimplemented : decode [0b10100010, 0b00000000] = .ok (.movAccMemUnimplemented true false, [0x00]) := by
  decide
/-- X5. -/
theorem test_step_movAccMemUnimplemented : failed [0xA2, 0x00, 0x10] = some (.unsupportedEncoding 0 0xA2, 0xA2, 8, false, 1) := by
  decide
theorem test_decode_immRmBadSelector : decode [0b10000011, 0b00100000, 0b00000001] =
    .ok (.immRmBadSelector true true 0b00 0b100 0b000, [0x01]) := by decide
/-- I16: the immediate is never asked for. -/
theorem test_step_immRmBadSelector : failed [0x80, 0xC8] = some (.unsupportedEncoding 1 0xC8, 0xC8, 8, false, 2) := by decide
theorem test_decode_unsupportedOpcode : decode [0b11110110] = .ok (.unsupportedOpcode 0xF6, []) := by decide
/-- S4. -/
theorem test_step_unsupportedOpcode : failed [0xF6] = some (.unsupportedEncoding 0 0xF6, 0xF6, 8, false, 1) := by decide

/-! ## More of the spec's vectors -/

/-- M9: a displacement of zero is present. M7: no displacement. -/
theorem test_zero_displacement_is_present :
    decoded [0x8A, 0x46, 0x00] = some ([.register false 0, .memoryIndirect 6 (.relative8Extended 0x0000)], 3, 0x00, 3) ∧
    decoded [0x89, 0x07] = some ([.memoryIndirect 7 .none, .register true 0], 2, 0x07, 2) := by decide
/-- I6 and I2: they differ in `s` alone. -/
theorem test_sign_extension_depends_on_s_alone :
    decoded [0x82, 0x07, 0xFF] = some ([.memoryIndirect 7 .none, .immediate 0xFFFF], 3, 0xFF, 3) ∧
    decoded [0x80, 0x07, 0xFF] = some ([.memoryIndirect 7 .none, .immediate 0x00FF], 3, 0xFF, 3) := by decide
/-- R2: a one-byte immediate of the register form is not sign-extended. -/
theorem test_mov_byte_is_zero_extended : decoded [0xB0, 0xFF] = some ([.register false 0, .immediate 0x00FF], 2, 0xFF, 2) := by decide
/-- C10 to C15: bit 1 of the accumulator form. -/
theorem test_accumulator_bit_1_fails : [0x06, 0x07, 0x2E, 0x2F, 0x3E, 0x3F].all (fun b : Byte =>
    failed [b] = some (.unsupportedEncoding 0 b, b, 8, false, 1)) := by decide
/-- J21, M23: a truncated jump and direct address. -/
theorem test_truncated_jump_and_address :
    failed [0x74] = some (.malformedStream 1, 0x74, 8, true, 1) ∧
    failed [0x8B, 0x06, 0x00] = some (.malformedStream 3, 0x00, 8, true, 3) := by decide
/-- M24, I27: a truncated displacement and immediate. -/
theorem test_truncated_displacement_and_immediate :
    failed [0x8B, 0x80, 0x01] = some (.malformedStream 3, 0x01, 8, true, 3) ∧
    failed [0x81, 0x06, 0x00, 0x10, 0x34] = some (.malformedStream 5, 0x34, 8, true, 5) := by decide
/-- E1: `cur` is the reset value. -/
theorem test_empty_stream : failed [] = some (.endOfStream, 0x00, 8, true, 0) := by decide
/-- E3: the truncation once, then the clean end, twice. -/
theorem test_truncation_then_clean_end :
    (match Host.Core.run core 4 (State.boot [0x04, 0x09, 0x81]) with
      | .next s => some (s.results.drop 1, s.cur, s.eos, s.pos)
      | _ => none) =
    some ([.fail (.malformedStream 3), .fail .endOfStream, .fail .endOfStream], 0x81, true, 3) := by decide
/-- S1: the fields and the cursor. -/
theorem test_s1_fields :
    (match step (State.boot [0x89, 0xD9]) with
      | .next s => s.results
      | _ => []) =
    [.ok ⟨.movRegMemToFromReg, .mov, [.register true 1, .register true 3], ⟨0, 2, 0x89, true, false, false, true, 3, 3, 1⟩⟩] := by
  decide
/-- P1: the lines and the cursor at the end. -/
theorem test_p1 : lines .abort [0xB8, 0x05, 0x00, 0xBB, 0x0A, 0x00, 0x01, 0xD8, 0x75, 0xFA] =
    some (["mov ax, 5", "mov bx, 10", "add ax, bx", "jne -6"], 0xFA, 8, true, 10) := by decide
/-- P5: under `abort` and under `resync`. -/
theorem test_p5 : lines .abort [0xB0, 0x01, 0xF6, 0x04, 0x02] = some (["mov al, 1"], 0xF6, 8, false, 3) ∧
    lines .resync [0xB0, 0x01, 0xF6, 0x04, 0x02] = some (["mov al, 1", "add al, 2"], 0x02, 8, true, 5) := by decide
/-- P7: under `abort` and under `resync`. -/
theorem test_p7 : lines .abort [0x80, 0xC8, 0x01, 0xD8] = some ([], 0xC8, 8, false, 2) ∧
    lines .resync [0x80, 0xC8, 0x01, 0xD8] = some (["add ax, bx"], 0xD8, 8, true, 4) := by decide
/-- M11, A6, I11, I10: a base expression with each displacement, and immediates shown unsigned. -/
theorem test_operand_texts : lines .abort [0x8B, 0x7A, 0x80, 0x29, 0x91, 0x00, 0x80, 0x83, 0x7E, 0x04, 0x80, 0x83, 0xEB, 0xFF] =
    some (["mov di, [bp + si + 128]", "sub [bx + di + 32768], dx", "cmp [bp + 4], 65408", "sub bx, 65535"], 0xFF, 8, true, 14) := by
  decide
/-- T1: the cursor operations on S1. -/
theorem test_t1_trace :
    ((advanceByte (State.boot [0x89, 0xD9])).bind fun _ s => (peek 8 s).bind fun op s => (take 1 s).bind fun b7 s =>
      (peek 5 s).bind fun p5 s => (take 5 s).bind fun _ s => (take 1 s).bind fun d s => (take 1 s).bind fun w s =>
      (needByte s).bind fun _ s => (take 2 s).bind fun mod s => (take 3 s).bind fun reg s => (take 3 s).bind fun rm s =>
      .ok ((op, b7, p5, d, w), (mod, reg, rm), s.cur, s.used, s.pos) State.reset) =
    .ok ((0x89, 1, 0b00010, 0, 1), (0b11, 0b011, 0b001), 0xD9, 8, 2) State.reset := by rfl
/-- T2: the states of the byte-serial machine on I12, and its answer. -/
theorem test_t2_trace :
    let m : ModrmLatch := ⟨0, 0x83, .imm true true, 0b00, 0b111, 0b110⟩
    (List.range 6).map (fun n => (serialAfter n (State.boot [0x83, 0x3E, 0x10, 0x00, 0xFF])).map (·.serial)) =
      [some .opcode, some (.modrm 0 0x83 (.imm true true)), some (.dispLo m), some (.dispHi m 0x10),
       some (.immLo (.rm m .cmp true true (.direct16 0x0010))), some .opcode] := by decide
/-- T4: the extension functions. -/
theorem test_t4_extension : ([0x00, 0x01, 0x7F, 0x80, 0xFE, 0xFF] : List Byte).map (fun b => (zext16 b, sext16 b, signed16 (sext16 b))) =
    [(0x0000, 0x0000, 0), (0x0001, 0x0001, 1), (0x007F, 0x007F, 127), (0x0080, 0xFF80, -128), (0x00FE, 0xFFFE, -2),
     (0x00FF, 0xFFFF, -1)] := by decide
/-- The suggested ports on S4 (R46, R258). -/
theorem test_ports : resPort (.fail (.unsupportedEncoding 0 0xF6)) = ⟨true, 2, none, some 0, some 0xF6⟩ := by decide

/-! ## Table words -/

/-- S1 as a table word: the first byte is the low one. -/
theorem test_decodeTableWord : decodeTableWord 16 0xD989 = some (.movRmReg false true 3 (.register 1)) := by decide
/-- Bits above the row's are zeros: `B8` and two zero bytes. -/
theorem test_decodeTableWord_pads : decodeTableWord 8 0xFFB8 = some (.movImmReg true 0 (.word 0x0000)) := by decide
/-- The very next step runs the placed instruction. -/
theorem test_withFetchWord : step (State.reset.withFetchWord 16 0xFE75) = exec (.jne 0xFE) (State.reset.withFetchWord 16 0xFE75) := by
  rfl
theorem test_withFetchWord_answer :
    (match step (State.reset.withFetchWord 16 0xFE75) with
      | .next s => s.results.map (fun r => match r with | .ok i => i.operands | .fail _ => [])
      | _ => []) = [[.immediate 0xFFFE]] := by decide
/-- Placed in the middle of a stream, it leaves the bytes around it. -/
theorem test_place : (Memory.ofBytes [1, 2, 3, 4]).place 1 [9, 8] = Memory.ofBytes [1, 9, 8, 4] := by decide

/-! ## Witnesses: for every statement with hypotheses, a state and operands that meet them

Each is named after the statement it belongs to. -/

/-- Between two instructions: after the first of `01 D8 75 FA`. -/
def between : State := { State.boot [0x01, 0xD8, 0x75, 0xFA] with cur := 0xD8, pos := 2 }
/-- Inside a walk: after the first byte of `83 3E 10 00 FF`. -/
def midWalk : State :=
  { State.boot [0x83, 0x3E, 0x10, 0x00, 0xFF] with cur := 0x83, pos := 1, serial := .modrm 0 0x83 (.imm true true) }
/-- One bit of `89` taken. -/
def oneBitTaken : State := { State.boot [0x89, 0xD9] with cur := 0x89, used := 1, pos := 1 }
/-- After the end of `89 D9` has been seen. -/
def atEnd : State := { State.boot [0x89, 0xD9] with cur := 0xD9, pos := 2, eos := true }

theorem between_inv : between.Inv := ⟨by decide, by decide, by decide, by decide, fun _ => by decide⟩
theorem midWalk_inv : midWalk.Inv := ⟨by decide, by decide, by decide, by decide, fun _ => by decide⟩
theorem oneBitTaken_inv : oneBitTaken.Inv := ⟨by decide, by decide, by decide, by decide, fun _ => by decide⟩
theorem atEnd_inv : atEnd.Inv := ⟨by decide, by decide, by decide, fun _ => by decide, fun _ => by decide⟩

/-- Both clauses of `Retires` on an instruction of `n` bytes: all of them there; and the first `k` only, for the least and the
greatest `k`. -/
def RetiresWitness (i : Instr) : Prop :=
  (State.boot (encode i)).Ready (encode i) ∧
  ∀ k ∈ [1, (encode i).length - 1], 0 < k ∧ k < (encode i).length ∧
    (State.boot ((encode i).take k)).Ready ((encode i).take k) ∧ (State.boot ((encode i).take k)).src.read (0 + k) = none

theorem retiresWitness (i : Instr) (h : 2 ≤ (encode i).length) : RetiresWitness i := by
  refine ⟨by simpa using boot_ready (encode i) [], fun k hk => ?_⟩
  have hk : 0 < k ∧ k < (encode i).length := by
    rcases List.mem_cons.mp hk with rfl | hk
    · omega
    · rw [List.mem_singleton.mp hk]; omega
  refine ⟨hk.1, hk.2, by simpa using boot_ready ((encode i).take k) [], ?_⟩
  simp [Nat.min_eq_left (Nat.le_of_lt hk.2)]

/-- StepKeepsTheCursorInvariants, with a step that decodes, one that finds the end and one that is cut short. -/
theorem witness_StepKeepsTheCursorInvariants :
    (between.Inv ∧ ∃ t, step between = .next t) ∧ (atEnd.Inv ∧ ∃ t, step atEnd = .next t) ∧
    ((State.boot [0x8B, 0x46]).Inv ∧ ∃ t, step (State.boot [0x8B, 0x46]) = .next t) :=
  ⟨⟨between_inv, _, rfl⟩, ⟨atEnd_inv, _, rfl⟩, boot_inv _, _, rfl⟩
/-- ByteRequestKeepsTheCursorInvariants, at a boundary and inside a walk. -/
theorem witness_ByteRequestKeepsTheCursorInvariants :
    (between.Inv ∧ ∃ t, serialStep between = .next t) ∧ (midWalk.Inv ∧ ∃ t, serialStep midWalk = .next t) :=
  ⟨⟨between_inv, _, rfl⟩, midWalk_inv, _, rfl⟩
/-- CursorOperationsKeepTheInvariants, clause by clause. -/
theorem witness_CursorOperationsKeepTheInvariants :
    (between.Inv ∧ ∃ t, advanceByte between = .ok () t) ∧ (oneBitTaken.Inv ∧ ∃ v t, peek 7 oneBitTaken = .ok v t) ∧
    (oneBitTaken.Inv ∧ ∃ v t, take 7 oneBitTaken = .ok v t) ∧ (between.Inv ∧ ∃ b t, fetch8 between = .ok b t) ∧
    (oneBitTaken.Inv ∧ ∃ o t, (unsupported oneBitTaken : Walk Unit) = .fail o t) :=
  ⟨⟨between_inv, _, rfl⟩, ⟨oneBitTaken_inv, _, _, rfl⟩, ⟨oneBitTaken_inv, _, _, rfl⟩, ⟨between_inv, _, _, rfl⟩,
    oneBitTaken_inv, _, _, rfl⟩
/-- StepKeepsTheAnswersTiled, with an answer already given. -/
theorem witness_StepKeepsTheAnswersTiled :
    ∃ s t, step (State.boot [0x01, 0xD8, 0x75, 0xFA]) = .next s ∧ s.results ≠ [] ∧ s.Tiled ∧ step s = .next t :=
  ⟨_, _, rfl, by decide, by rfl, rfl⟩
/-- RequestAtABoundaryIsAlwaysAnswered. -/
theorem witness_RequestAtABoundaryIsAlwaysAnswered : between.Boundary ∧ atEnd.Boundary := ⟨⟨rfl, rfl⟩, rfl, rfl⟩
/-- RequestOffTheBoundaryFaults, both clauses; `used` 0 and 7 are its bounds. -/
theorem witness_RequestOffTheBoundaryFaults :
    midWalk.serial ≠ .opcode ∧ (oneBitTaken.serial = .opcode ∧ oneBitTaken.used ≠ 8) ∧
    ({ oneBitTaken with used := 0 }.used ≠ 8 ∧ { oneBitTaken with used := 7 }.used ≠ 8) := by decide
/-- StepRunsTheDecodedInstruction, its three clauses. -/
theorem witness_StepRunsTheDecodedInstruction :
    (∃ i rest, decode between.window = .ok (i, rest)) ∧ decode atEnd.window = .error .noByte ∧
    decode (State.boot [0x8B, 0x46]).window = .error (.cut 2) := ⟨⟨_, _, rfl⟩, by decide, by decide⟩
/-- StepExecutesTheEncodedInstruction, on the longest instruction (I5). -/
theorem witness_StepExecutesTheEncodedInstruction :
    (Instr.subImmRm false true (.indirect16 4 0x1000) (.word 0xFFFF)).wf = true ∧
    (State.boot [0x81, 0xAC, 0x00, 0x10, 0xFF, 0xFF]).Ready (encode (.subImmRm false true (.indirect16 4 0x1000) (.word 0xFFFF))) :=
  ⟨by decide, boot_ready [0x81, 0xAC, 0x00, 0x10, 0xFF, 0xFF] []⟩
/-- EndOfStreamIsAnsweredExactlyWhenNoByteIsPending: `eos` set; the end not yet seen; and an answered `EndOfStream`. -/
theorem witness_EndOfStreamIsAnsweredExactlyWhenNoByteIsPending :
    (atEnd.Boundary ∧ atEnd.eos = true) ∧ (State.reset.Boundary ∧ State.reset.src.read State.reset.pos = none) ∧
    ∃ t, step State.reset = .next t ∧ t.results = State.reset.results ++ [.fail .endOfStream] :=
  ⟨⟨⟨rfl, rfl⟩, rfl⟩, ⟨⟨rfl, rfl⟩, rfl⟩, _, rfl, rfl⟩
/-- EndOfStreamStaysSet. -/
theorem witness_EndOfStreamStaysSet : atEnd.Boundary ∧ atEnd.eos = true := ⟨⟨rfl, rfl⟩, rfl⟩
/-- TruncatedInstructionIsMalformed, after one byte and after five (I27). -/
theorem witness_TruncatedInstructionIsMalformed :
    ((State.boot [0x89]).Ready [0x89] ∧ decode [0x89] = .error (.cut 1) ∧ (State.boot [0x89]).src.read (0 + 1) = none) ∧
    ((State.boot [0x81, 0x06, 0x00, 0x10, 0x34]).Ready [0x81, 0x06, 0x00, 0x10, 0x34] ∧
      decode [0x81, 0x06, 0x00, 0x10, 0x34] = .error (.cut 5) ∧
      (State.boot [0x81, 0x06, 0x00, 0x10, 0x34]).src.read (0 + 5) = none) :=
  ⟨⟨boot_ready [0x89] [], by decide, rfl⟩, boot_ready [0x81, 0x06, 0x00, 0x10, 0x34] [], by decide, rfl⟩
/-- TruncatedExecutionIsMalformed: the longest instruction cut after one byte and after five, and a failing selector cut before its
ModRM byte. -/
theorem witness_TruncatedExecutionIsMalformed :
    (Instr.cmpImmRm false true (.direct 0x0100) (.word 0x1234)).wf = true ∧
    RetiresWitness (.cmpImmRm false true (.direct 0x0100) (.word 0x1234)) ∧
    (Instr.immRmBadSelector true true 3 0b100 0).wf = true ∧ RetiresWitness (.immRmBadSelector true true 3 0b100 0) :=
  ⟨by decide, retiresWitness _ (by decide), by decide, retiresWitness _ (by decide)⟩
/-- AnswersDependOnTheStreamFromPosOn: two states that differ in the bytes before `pos`, in `cur` and in the answers given, over three
requests. -/
theorem witness_AnswersDependOnTheStreamFromPosOn :
    ∃ t : State, t ≠ between ∧ t.src ≠ between.src ∧ t.cur ≠ between.cur ∧ t.results ≠ between.results ∧ t.pos = between.pos ∧
      t.used = between.used ∧ t.eos = between.eos ∧ t.serial = between.serial ∧
      (∀ a, between.pos ≤ a → t.src.read a = between.src.read a) ∧ ∃ s', Host.Core.run core 3 between = .next s' := by
  refine ⟨{ State.boot [0x89, 0xD9, 0x75, 0xFA] with cur := 0xD9, pos := 2, results := [.fail .endOfStream] }, by decide, by decide,
    by decide, by decide, rfl, rfl, rfl, rfl, ?_, _, rfl⟩
  intro a ha
  obtain ⟨k, rfl⟩ := Nat.exists_eq_add_of_le (show 2 ≤ a from ha)
  simp [between, Nat.add_comm 2 k]
/-- ExecFrame: the instruction's own bytes, a truncation, and the end of the stream. -/
theorem witness_ExecFrame : (∃ t, exec (.jne 0xFA) between = .next t) ∧ (∃ t, exec (.jne 0xFA) (State.boot [0x75]) = .next t) ∧
    ∃ t, exec (.jne 0xFA) atEnd = .next t := ⟨⟨_, rfl⟩, ⟨_, rfl⟩, _, rfl⟩
/-- StepFrame: a step that finds a byte and one that finds none. -/
theorem witness_StepFrame : (∃ t, step between = .next t ∧ between.pos < t.pos) ∧ ∃ t, step atEnd = .next t ∧ t.pos = atEnd.pos :=
  ⟨⟨_, rfl, by decide⟩, _, rfl, rfl⟩

/-- JumpsAndLoopsAnswerTheirOffset: the greatest and the least offset. -/
theorem witness_JumpsAndLoopsAnswerTheirOffset : RetiresWitness (.jne 0x7F) ∧ RetiresWitness (.jcxz 0x80) :=
  ⟨retiresWitness _ (by decide), retiresWitness _ (by decide)⟩
/-- ArithmeticWithARegisterAnswersBothOperands: every operand form. -/
theorem witness_ArithmeticWithARegisterAnswersBothOperands :
    ([.register 6, .direct 0xFFFF, .indirect 7, .indirect8 6 0xFF, .indirect16 6 0x8000] : List RmForm).all (·.wf) = true ∧
    ∀ f ∈ ([.register 6, .direct 0xFFFF, .indirect 7, .indirect8 6 0xFF, .indirect16 6 0x8000] : List RmForm),
      RetiresWitness (.addRmReg false true 3 f) ∧ RetiresWitness (.subRmReg true false 7 f) ∧
      RetiresWitness (.cmpRmReg true true 0 f) :=
  ⟨by decide, fun f _ => ⟨retiresWitness _ (by simp [encode, encodeRmReg]), retiresWitness _ (by simp [encode, encodeRmReg]),
    retiresWitness _ (by simp [encode, encodeRmReg])⟩⟩
/-- ArithmeticWithAnImmediateAnswersTheWidenedImmediate: two bytes (`s = 0`, `w = 1`), one sign-extended, one zero-extended. -/
theorem witness_ArithmeticWithAnImmediateAnswersTheWidenedImmediate :
    (RmForm.direct 0x0100).wf = true ∧ RetiresWitness (.cmpImmRm false true (.direct 0x0100) (.word 0x1234)) ∧
    (∃ b : Byte, Imm.byte 0x80 = .byte b ∧ (0xFF80 : Word) = sext16 b) ∧
    RetiresWitness (.addImmRm true false (.register 1) (.byte 0x80)) ∧
    (∃ b : Byte, Imm.byte 0xFF = .byte b ∧ (0x00FF : Word) = zext16 b) ∧
    RetiresWitness (.subImmRm false false (.indirect 7) (.byte 0xFF)) :=
  ⟨by decide, retiresWitness _ (by decide), ⟨0x80, rfl, by decide⟩, retiresWitness _ (by decide), ⟨0xFF, rfl, by decide⟩,
    retiresWitness _ (by decide)⟩
/-- ArithmeticWithTheAccumulatorAnswersTheImmediate: both widths. -/
theorem witness_ArithmeticWithTheAccumulatorAnswersTheImmediate :
    RetiresWitness (.addImmAcc true (.word 0xFFFF)) ∧ (∃ b : Byte, Imm.byte 0xFF = .byte b ∧ (0x00FF : Word) = zext16 b) ∧
    RetiresWitness (.subImmAcc false (.byte 0xFF)) ∧ RetiresWitness (.cmpImmAcc false (.byte 0x00)) :=
  ⟨retiresWitness _ (by decide), ⟨0xFF, rfl, by decide⟩, retiresWitness _ (by decide), retiresWitness _ (by decide)⟩
/-- MovRegisterMemoryAnswersBothOperands. -/
theorem witness_MovRegisterMemoryAnswersBothOperands :
    (RmForm.indirect 7).wf = true ∧ (RmForm.direct 0).wf = true ∧ RetiresWitness (.movRmReg false true 0 (.indirect 7)) ∧
    RetiresWitness (.movRmReg true true 5 (.direct 0)) := ⟨by decide, by decide, retiresWitness _ (by decide), retiresWitness _ (by decide)⟩
/-- MovImmediateAnswersTheRegisterAndTheImmediate: both widths, the last register. -/
theorem witness_MovImmediateAnswersTheRegisterAndTheImmediate :
    RetiresWitness (.movImmReg true 7 (.word 0xFFFF)) ∧ (∃ b : Byte, Imm.byte 0x80 = .byte b ∧ (0x0080 : Word) = zext16 b) ∧
    RetiresWitness (.movImmReg false 7 (.byte 0x80)) := ⟨retiresWitness _ (by decide), ⟨0x80, rfl, by decide⟩, retiresWitness _ (by decide)⟩
/-- UnsupportedOpcodeBytesAreReported: a byte of each of the three rows. -/
theorem witness_UnsupportedOpcodeBytesAreReported : (State.boot [0xC7, 0x06]).Ready [0xC7] ∧ (State.boot [0xA0, 0x00]).Ready [0xA0] ∧
    (State.boot [0xF6]).Ready [0xF6] := ⟨boot_ready [0xC7] [0x06], boot_ready [0xA0] [0x00], boot_ready [0xF6] []⟩
/-- BadSelectorReportsTheModrmByte. -/
theorem witness_BadSelectorReportsTheModrmByte : (State.boot [0x80, 0xC8, 0x01, 0xD8]).Ready [0x80, 0xC8] :=
  boot_ready [0x80, 0xC8] [0x01, 0xD8]
/-- ExactlyTheFailingRangesFailAtTheOpcodeByte: the bounds of the ranges of R221 fail, their neighbours do not. -/
theorem witness_ExactlyTheFailingRangesFailAtTheOpcodeByte :
    ([0x06, 0x27, 0x2E, 0x37, 0x3E, 0x6F, 0x84, 0x87, 0x8C, 0xAF, 0xC0, 0xDF, 0xE4, 0xFF] : List Byte).all failingOpcode = true ∧
    ([0x00, 0x05, 0x28, 0x2D, 0x38, 0x3D, 0x70, 0x83, 0x88, 0x8B, 0xB0, 0xBF, 0xE0, 0xE3] : List Byte).any failingOpcode = false ∧
    (State.boot [0xFF]).Ready [0xFF] ∧ (State.boot [0x05, 0x00, 0x00]).Ready [0x05] :=
  ⟨by decide, by decide, boot_ready [0xFF] [], boot_ready [0x05] [0x00, 0x00]⟩
/-- ExactlyTheFailingSelectorsFailAtTheModrmByte: both clauses, at the first and the last F-IRM opcode byte. -/
theorem witness_ExactlyTheFailingSelectorsFailAtTheModrmByte :
    (immRmOpcode 0x80 = true ∧ failingSelector 0xC8 = true ∧ (State.boot [0x80, 0xC8]).Ready [0x80, 0xC8]) ∧
    (immRmOpcode 0x83 = true ∧ failingSelector 0xC3 = false ∧ (State.boot [0x83, 0xC3, 0x05]).Ready [0x83, 0xC3] ∧
      ∃ t, step (State.boot [0x83, 0xC3, 0x05]) = .next t) :=
  ⟨⟨by decide, by decide, boot_ready [0x80, 0xC8] []⟩, by decide, by decide, boot_ready [0x83, 0xC3] [0x05], _, rfl⟩
/-- UnsupportedEncodingIsRaisedAtTwoPlacesOnly: at both places. -/
theorem witness_UnsupportedEncodingIsRaisedAtTwoPlacesOnly :
    (∃ t, step (State.boot [0xF6]) = .next t ∧ t.results = [.fail (.unsupportedEncoding 0 0xF6)]) ∧
    ∃ t, step (State.boot [0x80, 0xC8]) = .next t ∧ t.results = [.fail (.unsupportedEncoding 1 0xC8)] :=
  ⟨⟨_, rfl, rfl⟩, _, rfl, rfl⟩
/-- EveryJumpConsumesExactlyTwoBytes: the table has 20 entries, and any of them may stand next, with any offset byte. -/
theorem witness_EveryJumpConsumesExactlyTwoBytes :
    jumpTable.length = 20 ∧ ∀ p ∈ jumpTable, ∀ off : Byte, (State.boot [p.1, off]).Ready [p.1, off] :=
  ⟨by decide, fun p _ off => boot_ready [p.1, off] []⟩
/-- AnsweredDescriptorsAreWellShaped. -/
theorem witness_AnsweredDescriptorsAreWellShaped :
    ∃ t i, step (State.boot [0x8B, 0x1E, 0x10, 0x00]) = .next t ∧ t.results = [.ok i] := ⟨_, _, rfl, rfl⟩
/-- DecodingReadsBackEveryEncoding and DecodedInstructionsReencodeToTheirBytes: with bytes after the instruction. -/
theorem witness_DecodingReadsBackEveryEncoding :
    (Instr.cmpImmRm true true (.indirect8 6 0x04) (.byte 0x80)).wf = true ∧
    decode [0x83, 0x7E, 0x04, 0x80, 0xF6] = .ok (.cmpImmRm true true (.indirect8 6 0x04) (.byte 0x80), [0xF6]) := by decide
/-- DecodingStopsOnlyForWantOfBytes: after one byte and after five. -/
theorem witness_DecodingStopsOnlyForWantOfBytes : decode [0x04] = .error (.cut 1) ∧
    decode [0x81, 0x06, 0x00, 0x10, 0x34] = .error (.cut 5) := by decide
/-- DecodedLengthsFollowTheRules: the shortest and the longest instruction. -/
theorem witness_DecodedLengthsFollowTheRules :
    (failingOpcode 0x89 = false ∧ (immRmOpcode 0x89 && failingSelector 0xD9) = false ∧
      decode [0x89, 0xD9] = .ok (.movRmReg false true 3 (.register 1), [])) ∧
    (failingOpcode 0x81 = false ∧ (immRmOpcode 0x81 && failingSelector 0x3E) = false ∧
      decode [0x81, 0x3E, 0x00, 0x01, 0x34, 0x12] = .ok (.cmpImmRm false true (.direct 0x0100) (.word 0x1234), [])) := by decide
/-- ByteCountsAreKnownBeforeTheBytesAreRead: both clauses. -/
theorem witness_ByteCountsAreKnownBeforeTheBytesAreRead :
    (hasModrm 0xB8 = false ∧ (∃ r, decode [0xB8, 0x05, 0x00] = .ok r) ∧ ∃ r, decode [0xB8, 0xFF, 0xFF, 0xF6] = .ok r) ∧
    (hasModrm 0x83 = true ∧ (∃ r, decode [0x83, 0x7E, 0x04, 0x80] = .ok r) ∧ ∃ r, decode [0x83, 0x7E, 0xFF, 0x00, 0x89] = .ok r) :=
  ⟨⟨by decide, ⟨_, rfl⟩, _, rfl⟩, by decide, ⟨_, rfl⟩, _, rfl⟩
/-- DisplacementRuleTable: both clauses of mod 00. -/
theorem witness_DisplacementRuleTable : (0b111 : BitVec 3) ≠ 0b110 ∧ (0b110 : BitVec 3) = 0b110 := by decide
/-- PeekReadsTheNextBits: all the bits left; and each way out of the precondition. -/
theorem witness_PeekReadsTheNextBits :
    (1 ≤ 7 ∧ 7 ≤ 8 ∧ oneBitTaken.used + 7 ≤ 8 ∧ oneBitTaken.eos = false ∧ 1 ≤ oneBitTaken.pos) ∧
    ¬(oneBitTaken.used + 8 ≤ 8) ∧ ¬(1 ≤ 0) ∧ ¬(1 ≤ State.reset.pos) ∧ ¬(atEnd.eos = false) := by decide
/-- TakeIsPeekThatAdvances: a value and a fault. -/
theorem witness_TakeIsPeekThatAdvances : (∃ v t, peek 7 oneBitTaken = .ok v t) ∧ ∃ f, peek 8 oneBitTaken = .fault f :=
  ⟨⟨_, _, rfl⟩, _, rfl⟩
/-- TakingTwiceIsTakingOnce: up to the end of the byte. -/
theorem witness_TakingTwiceIsTakingOnce : ∃ x t y u, take 5 oneBitTaken = .ok x t ∧ take 2 t = .ok y u :=
  ⟨_, _, _, _, rfl, rfl⟩
/-- AdvanceBytePullsTheNextByte: its four clauses. -/
theorem witness_AdvanceBytePullsTheNextByte :
    oneBitTaken.used ≠ 8 ∧ (atEnd.used = 8 ∧ atEnd.eos = true) ∧
    (between.used = 8 ∧ between.eos = false ∧ between.src.read between.pos = some 0x75) ∧
    (State.reset.used = 8 ∧ State.reset.eos = false ∧ State.reset.src.read State.reset.pos = none) := by decide
/-- Fetch16IsLittleEndian: both clauses. -/
theorem witness_Fetch16IsLittleEndian :
    (between.used = 8 ∧ between.eos = false ∧ between.src.read between.pos = some 0x75 ∧
      between.src.read (between.pos + 1) = some 0xFA) ∧
    ((State.boot [0x34]).used = 8 ∧ (State.boot [0x34]).eos = false ∧ (State.boot [0x34]).src.read 0 = some 0x34 ∧
      (State.boot [0x34]).src.read (0 + 1) = none) := by decide
/-- ByteSerialWalkEqualsStep. -/
theorem witness_ByteSerialWalkEqualsStep : between.serial = .opcode := rfl
/-- ByteSerialWalkReturnsToOpcode: from inside a walk. -/
theorem witness_ByteSerialWalkReturnsToOpcode : midWalk.serial ≠ .opcode ∧ ∃ t, serialWalk 5 midWalk = .next t :=
  ⟨by decide, _, rfl⟩
/-- ResyncRunConsumesTheWholeStream. -/
theorem witness_ResyncRunConsumesTheWholeStream : between.Inv ∧ between.Boundary := ⟨between_inv, rfl, rfl⟩
/-- AbortedRunIsAnInitialPartOfAResynchronisedRun: P5, where the two differ. -/
theorem witness_AbortedRunIsAnInitialPartOfAResynchronisedRun :
    ∃ a b, driver .abort 6 (State.boot [0xB0, 0x01, 0xF6, 0x04, 0x02]) = .next a ∧
      driver .resync 6 (State.boot [0xB0, 0x01, 0xF6, 0x04, 0x02]) = .next b ∧ a.results.length = 2 ∧ b.results.length = 4 :=
  ⟨_, _, rfl, rfl, by decide, by decide⟩
/-- RegisterNamesNeverAlias: equal names. -/
theorem witness_RegisterNamesNeverAlias : regname true 7 = regname true 7 ∧ regname false 4 ≠ regname true 4 := by decide
/-- DecimalNumeralsAreShortest: the bounds of the range. -/
theorem witness_DecimalNumeralsAreShortest : 0 ≤ 65535 ∧ 65535 ≤ 65535 ∧ dec 0 = "0" ∧ dec 65535 = "65535" := by decide

end Sys2Proof.Tests
end

section
/-! PROOFS. The sixteen register names (R29) as one table without repetitions (R44). -/

namespace Sys2Proof.Machine

/-- R44: no name stands twice in the two tables together. -/
theorem registerNames_nodup : (byteNames ++ wordNames).Nodup := by decide

/-- `regname` reads the two tables laid end to end: the width picks the half, the index the place in it. -/
theorem registerNames_getElem? (w : Bool) (i : BitVec 3) :
    (byteNames ++ wordNames)[8 * w.toNat + i.toNat]? = some (regname w i) := by
  have hi : i.toNat < 8 := i.isLt
  cases w with
  | false =>
    have hlen : i.toNat < byteNames.length := hi
    simp [regname, hlen, List.getElem?_append_left]
  | true =>
    have hlen : i.toNat < wordNames.length := hi
    have hoff : 8 = byteNames.length := rfl
    simp [regname, hlen, hoff]

/-- Equal names stand at the same place of a table without repetitions, and the place fixes the width and the index. -/
theorem regname_inj {w w' : Bool} {i i' : BitVec 3} (h : regname w i = regname w' i') : w = w' ∧ i = i' := by
  have hi : i.toNat < 8 := i.isLt
  have hi' : i'.toNat < 8 := i'.isLt
  have hw : w.toNat < 2 := w.toNat_lt
  have hlen : 8 * w.toNat + i.toNat < (byteNames ++ wordNames).length := by
    change _ < 16
    omega
  have hplace : 8 * w.toNat + i.toNat = 8 * w'.toNat + i'.toNat :=
    (List.getElem?_inj hlen registerNames_nodup).mp (by rw [registerNames_getElem?, registerNames_getElem?, h])
  exact ⟨Function.LeftInverse.injective Bool.ofNat_toNat (by omega), BitVec.eq_of_toNat_eq (by omega)⟩

/-- Settles O51: the two tables by evaluation, their distinctness by `regname_inj`. -/
theorem registerNamesNeverAlias : Obligations.RegisterNamesNeverAlias := by
  unfold Obligations.RegisterNamesNeverAlias
  exact ⟨rfl, rfl, fun _ _ _ _ => regname_inj⟩

end Sys2Proof.Machine
end

section
/-! PROOFS. The reading side of the cursor: what `peek` and `take` give and refuse (R55, R56), and the two bytes of `fetch16` (R60). -/

namespace Sys2Proof.Machine

/-! ## `fetch16` -/

/-- Two bytes are there: the second fetched is the high byte (R60). -/
theorem fetch16_bytes {s : State} {lo hi : Byte} (hu : s.used = 8) (he : s.eos = false) (hlo : s.src.read s.pos = some lo)
    (hhi : s.src.read (s.pos + 1) = some hi) : fetch16 s = .ok (concatBytes hi lo) (s.passed [lo, hi]) := by
  have hsecond : fetch8 (s.passed [lo]) = .ok hi ((s.passed [lo]).passed [hi]) := fetch8_byte rfl he hhi
  rw [fetch16, fetch8_byte hu he hlo, Walk.bind_ok, hsecond, Walk.bind_ok, State.passed_append, List.singleton_append]

/-- The stream ends after the low byte: the failure is the second fetch's, reported at its offset (R60, R255). -/
theorem fetch16_cut {s : State} {lo : Byte} (hu : s.used = 8) (he : s.eos = false) (hlo : s.src.read s.pos = some lo)
    (hend : s.src.read (s.pos + 1) = none) : fetch16 s = .fail (.malformedStream (s.pos + 1)) (s.passed [lo]).ended := by
  have hsecond : fetch8 (s.passed [lo]) = .fail (.malformedStream (s.pos + 1)) (s.passed [lo]).ended :=
    fetch8_missing rfl (.inr hend)
  rw [fetch16, fetch8_byte hu he hlo, Walk.bind_ok, hsecond, Walk.bind_fail]

/-- Settles O45: the word of `fetch16_bytes` and the failure of `fetch16_cut`. -/
theorem fetch16IsLittleEndian : Obligations.Fetch16IsLittleEndian := by
  unfold Obligations.Fetch16IsLittleEndian
  intro s lo hu he hlo
  constructor
  · intro hi hhi
    exact ⟨_, fetch16_bytes hu he hlo hhi, concatBytes_toNat hi lo⟩
  · intro hend
    exact ⟨_, _, fetch16_cut hu he hlo hend⟩

/-! ## `peek` and `take` -/

/-- `peek` refuses everything outside the precondition of R55: its two checks together are exactly that precondition. -/
theorem peek_fault {n : Nat} {s : State} (h : ¬(1 ≤ n ∧ n ≤ 8 ∧ s.used + n ≤ 8 ∧ s.eos = false ∧ 1 ≤ s.pos)) :
    ∃ f, peek n s = .fault f := by
  by_cases hcount : 1 ≤ n ∧ n ≤ 8 ∧ s.used + n ≤ 8
  · have hbyte : s.eos = true ∨ s.pos = 0 := by
      by_contra hno
      rw [not_or, Bool.not_eq_true] at hno
      obtain ⟨hopen, hpos⟩ := hno
      obtain ⟨hlow, hhigh, hfit⟩ := hcount
      exact h ⟨hlow, hhigh, hfit, hopen, Nat.pos_of_ne_zero hpos⟩
    exact ⟨_, by rw [peek, if_neg (not_not.mpr hcount), if_pos hbyte]⟩
  · exact ⟨_, by rw [peek, if_pos hcount]⟩

/-- Settles O41: the value of `peek_ok`, its extraction read as a division, and the faults of `peek_fault`. -/
theorem peekReadsTheNextBits : Obligations.PeekReadsTheNextBits := by
  unfold Obligations.PeekReadsTheNextBits
  refine fun n s => ⟨?_, peek_fault⟩
  rintro ⟨hlow, hhigh, hfit, hopen, hpos⟩
  refine ⟨_, peek_ok ⟨hlow, hhigh, hfit⟩ hopen (Nat.ne_of_gt hpos), ?_⟩
  rw [BitVec.extractLsb'_toNat, Nat.shiftRight_eq_div_pow]

/-- Settles O42: `take` goes on from what `peek` gives, and a fault ends it. -/
theorem takeIsPeekThatAdvances : Obligations.TakeIsPeekThatAdvances := by
  unfold Obligations.TakeIsPeekThatAdvances
  intro n s
  constructor
  · intro v t hpeek
    rw [take, hpeek, Walk.bind_ok]
  · intro f hpeek
    rw [take, hpeek, Walk.bind_fault]

end Sys2Proof.Machine
end

section
/-! PROOFS. A jump or loop of the table: how it decodes, and the two bytes it consumes (R95, R161, R182). -/

namespace Sys2Proof.Machine

/-- Every table entry is found under its own opcode byte: none is hidden by an earlier row (R83, R160). -/
theorem classify_jumpTable : ∀ p ∈ jumpTable, classify p.1 = .jump p.2 := by decide

/-- A jump's opcode byte and one offset byte decode to it, whatever comes after. -/
theorem decode_jump {op : Byte} {j : JumpName} (h : classify op = .jump j) (off : Byte) (rest : List Byte) :
    decode (op :: off :: rest) = .ok (jumpInstr j off, rest) := by
  simp only [decode, h, decodeAfter]

/-- The twenty jumps have one meaning (R161). -/
theorem exec_jumpInstr (j : JumpName) (off : Byte) (s : State) :
    exec (jumpInstr j off) s = retire 2 (jumpDescriptor j (opJump j) off) s := by
  cases j <;> rfl

/-- A jump that stands next in the stream is consumed and answered (R161, R128). -/
theorem step_jump {s : State} {op off : Byte} {j : JumpName} (hop : classify op = .jump j) (h : s.Ready [op, off]) :
    step s = .next ((s.passed [op, off]).answer (.ok (jumpDescriptor j (opJump j) off s.pos))) := by
  have hwindow := State.window_of_holds h.open_ h.holds (by simp)
  have hdecode : decode s.window = .ok (jumpInstr j off, s.src.bytesAt (s.pos + 2) 4) := by
    rw [hwindow]
    exact decode_jump hop off _
  rw [step_ok hdecode, exec_jumpInstr]
  exact retire_ready _ h (by simp)

/-- Settles O29: `step_jump` for the entry, and the window of the state it leaves. -/
theorem everyJumpConsumesExactlyTwoBytes : Obligations.EveryJumpConsumesExactlyTwoBytes := by
  unfold Obligations.EveryJumpConsumesExactlyTwoBytes
  intro s off p hp h
  refine ⟨_, _, step_jump (classify_jumpTable p hp) h, rfl, rfl, rfl, rfl, rfl, ?_⟩
  simp [State.window, h.open_]

end Sys2Proof.Machine
end

section
/-! PROOFS. The bytes an instruction takes, from its opcode byte and its ModRM byte alone (R95 to R100). -/

namespace Sys2Proof.Machine

/-! ## Displacements and immediates -/

/-- The displacement rule takes `ndisp` bytes (R96). -/
theorem decodeRm_length {mod : BitVec 2} {rm : BitVec 3} {bs rest : List Byte} {f : RmForm}
    (h : decodeRm mod rm bs = some (f, rest)) : bs.length = ndisp mod rm + rest.length := by
  obtain ⟨hf, rfl, rfl, rfl⟩ := decodeRm_some h
  rw [List.length_append, dispBytes_length hf]

/-- An immediate takes two bytes when it is wide and one otherwise (R102 to R104). -/
theorem decodeImm_length {wide : Bool} {bs rest : List Byte} {imm : Imm} (h : decodeImm wide bs = some (imm, rest)) :
    bs.length = (if wide then 2 else 1) + rest.length := by
  obtain ⟨himm, rfl⟩ := decodeImm_some h
  rw [List.length_append, immBytes_length himm]

/-! ## Sizes of what the decoder builds -/

@[simp] theorem jumpInstr_size (j : JumpName) (off : Byte) : (jumpInstr j off).size = 2 := by cases j <;> rfl

@[simp] theorem arithRmInstr_size (o : ArithOp) (d w : Bool) (reg : BitVec 3) (f : RmForm) :
    (arithRmInstr o d w reg f).size = 2 + ndisp f.modField f.rmField := by cases o <;> rfl

@[simp] theorem immRmInstr_size (o : ArithOp) (s w : Bool) (f : RmForm) (imm : Imm) :
    (immRmInstr o s w f imm).size = 2 + ndisp f.modField f.rmField + nimm s w := by cases o <;> rfl

@[simp] theorem arithAccInstr_size (o : ArithOp) (w : Bool) (imm : Imm) : (arithAccInstr o w imm).size = 2 + w.toNat := by
  cases o <;> rfl

/-! ## The size of a row -/

/-- The bytes consumed under a row of the opcode map, the failing rows included, from the opcode byte and the byte after it. -/
def rowSize (op m : Byte) : RowKind → Nat
  | .jump _ => 2
  | .arithRm _ | .movRm => 2 + ndisp (modOf m) (rmOf m)
  | .immRm => if badSelector (regOf m) then 2 else 2 + ndisp (modOf m) (rmOf m) + nimm (bitOf op 1) (bitOf op 0)
  | .arithAcc _ => 2 + (bitOf op 0).toNat
  | .movImm => 2 + (bitOf op 3).toNat
  | .movImmRmUnimplemented | .movAccMemUnimplemented | .other => 1

/-- The rows with a ModRM byte (R85, R87, R88). -/
def usesModrm : RowKind → Bool
  | .arithRm _ | .movRm | .immRm => true
  | .jump _ | .arithAcc _ | .movImm | .movImmRmUnimplemented | .movAccMemUnimplemented | .other => false

/-- What the decoder has read takes `n` bytes, the opcode byte among them, and its size says so. -/
def Takes (n : Nat) (t : List Byte) (p : Instr × List Byte) : Prop := t.length + 1 = p.2.length + n ∧ p.1.size = n

theorem decodeRmReg_takes {mk : BitVec 3 → RmForm → Instr} {m : Byte} {t : List Byte} {p : Instr × List Byte}
    (hmk : ∀ reg f, (mk reg f).size = 2 + ndisp f.modField f.rmField) (h : decodeRmReg mk (m :: t) = some p) :
    Takes (2 + ndisp (modOf m) (rmOf m)) (m :: t) p := by
  obtain ⟨⟨f, rest⟩, hrm, rfl⟩ := Option.map_eq_some_iff.mp h
  have hlength := decodeRm_length hrm
  obtain ⟨-, hmod, hrmField, -⟩ := decodeRm_some hrm
  refine ⟨?_, by rw [hmk, hmod, hrmField]⟩
  simp only [List.length_cons]
  omega

theorem decodeImmRm_takes {s w : Bool} {m : Byte} {t : List Byte} {p : Instr × List Byte}
    (h : decodeImmRm s w (m :: t) = some p) :
    Takes (if badSelector (regOf m) then 2 else 2 + ndisp (modOf m) (rmOf m) + nimm s w) (m :: t) p := by
  cases hsel : selectOp (regOf m) with
  | none =>
    obtain rfl : _ = p := by simpa [decodeImmRm, hsel] using h
    rw [if_pos (selectOp_none.mp hsel)]
    exact ⟨rfl, rfl⟩
  | some o =>
    have hgood : ¬ badSelector (regOf m) = true := by simp [← selectOp_none, hsel]
    simp only [decodeImmRm, hsel] at h
    obtain ⟨⟨f, u⟩, hrm, h⟩ := Option.bind_eq_some_iff.mp h
    obtain ⟨⟨imm, rest⟩, himm, rfl⟩ := Option.map_eq_some_iff.mp h
    have hdisp := decodeRm_length hrm
    have hdata : u.length = nimm s w + rest.length := decodeImm_length himm
    obtain ⟨-, hmod, hrmField, -⟩ := decodeRm_some hrm
    rw [if_neg hgood]
    refine ⟨?_, by rw [immRmInstr_size, hmod, hrmField]⟩
    simp only [List.length_cons]
    omega

theorem decodeImm_takes {w : Bool} {mk : Imm → Instr} {t : List Byte} {p : Instr × List Byte}
    (hmk : ∀ imm, (mk imm).size = 2 + w.toNat) (h : (decodeImm w t).map (fun q => (mk q.1, q.2)) = some p) :
    Takes (2 + w.toNat) t p := by
  obtain ⟨⟨imm, rest⟩, himm, rfl⟩ := Option.map_eq_some_iff.mp h
  have hdata : t.length = (1 + w.toNat) + rest.length := by
    rw [decodeImm_length himm]
    cases w <;> rfl
  exact ⟨by simp only; omega, hmk imm⟩

/-- Whatever the row, what is decoded takes the row's size. -/
theorem decodeAfter_takes {op : Byte} {t : List Byte} {k : RowKind} {p : Instr × List Byte} (h : decodeAfter op t k = some p) :
    Takes (rowSize op (t.headD 0) k) t p := by
  cases k with
  | jump j =>
    cases t with
    | nil => simp [decodeAfter] at h
    | cons off t =>
      obtain rfl : _ = p := by simpa [decodeAfter] using h
      exact ⟨rfl, jumpInstr_size j off⟩
  | arithRm o =>
    cases t with
    | nil => simp [decodeAfter, decodeRmReg] at h
    | cons m t => exact decodeRmReg_takes (arithRmInstr_size o _ _) h
  | movRm =>
    cases t with
    | nil => simp [decodeAfter, decodeRmReg] at h
    | cons m t => exact decodeRmReg_takes (fun _ _ => rfl) h
  | immRm =>
    cases t with
    | nil => simp [decodeAfter, decodeImmRm] at h
    | cons m t => exact decodeImmRm_takes h
  | arithAcc o => exact decodeImm_takes (arithAccInstr_size o _) h
  | movImm => exact decodeImm_takes (fun _ => rfl) h
  | movImmRmUnimplemented | movAccMemUnimplemented | other =>
    obtain rfl : _ = p := by simpa [decodeAfter] using h
    exact ⟨rfl, rfl⟩

theorem decode_takes {op : Byte} {t : List Byte} {p : Instr × List Byte} (h : decode (op :: t) = .ok p) :
    Takes (rowSize op (t.headD 0) (classify op)) t p := by
  cases hafter : decodeAfter op t (classify op) with
  | none => simp [decode, hafter] at h
  | some q =>
    obtain rfl : q = p := by simpa [decode, hafter] using h
    exact decodeAfter_takes hafter

theorem decode_takes_of_cons {op m : Byte} {t : List Byte} {p : Instr × List Byte} (h : decode (op :: m :: t) = .ok p) :
    Takes (rowSize op m (classify op)) (m :: t) p := decode_takes (t := m :: t) h

/-! ## The size of a row by the rules -/

theorem hasModrm_eq_usesModrm : ∀ op : Byte, hasModrm op = usesModrm (classify op) := by decide

theorem immRmOpcode_iff : ∀ op : Byte, immRmOpcode op = true ↔ classify op = .immRm := by decide

/-- R96's table, in the order in which `lengthByRules` asks for its rows. -/
theorem ndisp_eq_byRules : ∀ (mod : BitVec 2) (rm : BitVec 3),
    (if mod = 0b01 then 1 else if mod = 0b10 ∨ (mod = 0b00 ∧ rm = 0b110#3) then 2 else 0) = ndisp mod rm := by decide

/-- Of the F-IRM opcode bytes only 0x81 has `s = 0` and `w = 1` (R98). -/
theorem nimm_eq_byRules : ∀ op : Byte, immRmOpcode op = true → (if op = 0x81 then 2 else 1) = nimm (bitOf op 1) (bitOf op 0) := by
  decide

/-- The decodable rows without a ModRM byte: three bytes with a wide immediate, else two (R95, R99). -/
theorem rowSize_eq_byRules : ∀ op : Byte, failingOpcode op = false → hasModrm op = false →
    rowSize op 0 (classify op) =
      if op ∈ [0x05#8, 0x2D#8, 0x3D#8] ∨ (0xB8 ≤ op.toNat ∧ op.toNat ≤ 0xBF) then 3 else 2 := by
  decide

/-- The failing selectors of R225 are those that name no operation. -/
theorem failingSelector_eq (m : Byte) : failingSelector m = badSelector (regOf m) := rfl

theorem lengthByRules_eq (op m : Byte) : lengthByRules op m =
    if immRmOpcode op then 2 + ndisp (modOf m) (rmOf m) + (if op = 0x81 then 2 else 1)
    else if hasModrm op then 2 + ndisp (modOf m) (rmOf m)
    else if op ∈ [0x05#8, 0x2D#8, 0x3D#8] ∨ (0xB8 ≤ op.toNat ∧ op.toNat ≤ 0xBF) then 3
    else 2 := by
  rw [← ndisp_eq_byRules]
  rfl

/-- A row without a ModRM byte has its size from the opcode byte alone (R100). -/
theorem rowSize_of_not_usesModrm {k : RowKind} (h : usesModrm k = false) (op m m' : Byte) : rowSize op m k = rowSize op m' k := by
  cases k with
  | arithRm | movRm | immRm => cases h
  | jump | arithAcc | movImm | movImmRmUnimplemented | movAccMemUnimplemented | other => rfl

/-- A ModRM row other than F-IRM takes the opcode byte, the ModRM byte and the displacement (R97). -/
theorem rowSize_of_usesModrm {k : RowKind} (h : usesModrm k = true) (hk : k ≠ .immRm) (op m : Byte) :
    rowSize op m k = 2 + ndisp (modOf m) (rmOf m) := by
  cases k with
  | arithRm | movRm => rfl
  | immRm => exact absurd rfl hk
  | jump | arithAcc | movImm | movImmRmUnimplemented | movAccMemUnimplemented | other => cases h

/-- Where neither byte fails, a row's size is the length the rules give. -/
theorem rowSize_eq_lengthByRules {op m : Byte} (hop : failingOpcode op = false)
    (hsel : (immRmOpcode op && failingSelector m) = false) : rowSize op m (classify op) = lengthByRules op m := by
  rw [lengthByRules_eq]
  by_cases himm : immRmOpcode op = true
  · have hgood : badSelector (regOf m) = false := by simpa [himm, failingSelector_eq] using hsel
    rw [if_pos himm, nimm_eq_byRules op himm, (immRmOpcode_iff op).mp himm]
    simp [rowSize, hgood]
  · rw [if_neg himm]
    by_cases hmodrm : hasModrm op = true
    · have huses : usesModrm (classify op) = true := hasModrm_eq_usesModrm op ▸ hmodrm
      rw [if_pos hmodrm, rowSize_of_usesModrm huses (mt (immRmOpcode_iff op).mpr himm)]
    · have hnone : hasModrm op = false := Bool.eq_false_iff.mpr hmodrm
      rw [if_neg hmodrm, ← rowSize_eq_byRules op hop hnone]
      exact rowSize_of_not_usesModrm (hasModrm_eq_usesModrm op ▸ hnone) op m 0

/-- Settles O37: what is decoded takes its row's size, and that is the length by the rules. -/
theorem decodedLengthsFollowTheRules : Obligations.DecodedLengthsFollowTheRules := by
  unfold Obligations.DecodedLengthsFollowTheRules
  intro op m t rest i hop hsel hdecode
  rw [← rowSize_eq_lengthByRules hop hsel]
  exact decode_takes_of_cons hdecode

/-! ## Known before the bytes are read (R100) -/

/-- Two readings that take equally many bytes leave equally much of their strings. -/
theorem Takes.same {n : Nat} {t t' : List Byte} {p p' : Instr × List Byte} (h : Takes n t p) (h' : Takes n t' p') :
    t.length + p'.2.length = t'.length + p.2.length := by
  have hlength := h.1
  have hlength' := h'.1
  omega

/-- Settles O38: each clause compares two readings under one row whose size the shared bytes fix. -/
theorem byteCountsAreKnownBeforeTheBytesAreRead : Obligations.ByteCountsAreKnownBeforeTheBytesAreRead := by
  unfold Obligations.ByteCountsAreKnownBeforeTheBytesAreRead
  constructor
  · intro op t t' rest rest' i i' hmodrm h h'
    have hsize := rowSize_of_not_usesModrm (hasModrm_eq_usesModrm op ▸ hmodrm) op (t'.headD 0) (t.headD 0)
    exact (decode_takes h).same (hsize ▸ decode_takes h')
  · intro op m t t' rest rest' i i' _ h h'
    have hsame := (decode_takes_of_cons h).same (decode_takes_of_cons h')
    simp only [List.length_cons] at hsame
    omega

end Sys2Proof.Machine
end

section
/-! PROOFS. What `decode_next` answers depends on the cursor and on the stream from `pos` on (R129). -/

namespace Sys2Proof.Machine

/-! ## States that agree from `pos` on -/

/-- `t` has the cursor's `pos`, `used` and `eos`, the byte-serial register and the stream from `pos` on of `s`. Neither `cur`, nor
the bytes before `pos`, nor the answers given are compared. -/
structure State.SameAhead (s t : State) : Prop where
  pos : t.pos = s.pos
  used : t.used = s.used
  eos : t.eos = s.eos
  serial : t.serial = s.serial
  read : ∀ a, s.pos ≤ a → t.src.read a = s.src.read a

section
variable {s t : State} (h : s.SameAhead t)
include h

theorem State.SameAhead.boundary (hs : s.Boundary) : t.Boundary := ⟨h.used.trans hs.used, h.serial.trans hs.serial⟩

theorem State.SameAhead.read_add (k : Nat) : t.src.read (t.pos + k) = s.src.read (s.pos + k) := by
  rw [h.pos, h.read _ (Nat.le_add_right _ _)]

theorem State.SameAhead.noByte (hs : s.eos = true ∨ s.src.read s.pos = none) : t.eos = true ∨ t.src.read t.pos = none := by
  rwa [h.eos, show t.src.read t.pos = s.src.read s.pos from h.read_add 0]

theorem State.SameAhead.ready {bs : List Byte} (hs : s.Ready bs) : t.Ready bs :=
  ⟨h.boundary hs.boundary, h.eos.trans hs.open_, fun k hk => (h.read_add k).trans (hs.holds k hk)⟩

theorem State.SameAhead.window : t.window = s.window := by
  rw [State.window, State.window, h.eos, h.pos, Memory.bytesAt_congr h.read]

theorem State.SameAhead.passed (bs : List Byte) : (s.passed bs).SameAhead (t.passed bs) where
  pos := congrArg (· + bs.length) h.pos
  used := rfl
  eos := h.eos
  serial := h.serial
  read a ha := h.read a (Nat.le_of_add_right_le ha)

theorem State.SameAhead.ended : s.ended.SameAhead t.ended where
  pos := h.pos
  used := h.used
  eos := rfl
  serial := h.serial
  read := h.read

theorem State.SameAhead.answer (r : DecodeResult) : (s.answer r).SameAhead (t.answer r) where
  pos := h.pos
  used := h.used
  eos := h.eos
  serial := h.serial
  read := h.read

end

/-! ## One request -/

/-- The outcome `x` of a request made in `t` gives the one answer that leads from `s` to `s'`, and a state that agrees with `s'`. -/
def AnswersLike (s s' t : State) (x : Host.Outcome State Fault Refusal) : Prop :=
  ∃ t' r, x = .next t' ∧ s'.results = s.results ++ [r] ∧ t'.results = t.results ++ [r] ∧ s'.SameAhead t'

/-- Two ends of a request that agree, with no answer added yet, and the same answer given in both. -/
theorem State.SameAhead.answersLike {s t u v : State} {x : Host.Outcome State Fault Refusal} {r : DecodeResult}
    (h : u.SameAhead v) (hu : u.results = s.results) (hv : v.results = t.results) (hx : x = .next (v.answer r)) :
    AnswersLike s (u.answer r) t x :=
  ⟨_, r, hx, congrArg (· ++ [r]) hu, congrArg (· ++ [r]) hv, h.answer r⟩

theorem retire_answersLike {s s' t : State} {len : Nat} {mk : Nat → Instruction} (hlen : 1 ≤ len) (h : s.SameAhead t)
    (hs : retire len mk s = .next s') : AnswersLike s s' t (retire len mk t) := by
  obtain ⟨hB, ⟨hend, rfl⟩ | ⟨bs, rfl, hr, rfl⟩ | ⟨bs, hne, hlt, hr, hend, rfl⟩⟩ := retire_next hlen hs
  · exact h.ended.answersLike rfl rfl (retire_atEnd len mk (h.boundary hB) (h.noByte hend))
  · exact (h.passed _).answersLike rfl rfl (h.pos ▸ retire_ready mk (h.ready hr) (List.ne_nil_of_length_pos hlen))
  · exact (h.passed _).ended.answersLike rfl rfl (h.pos ▸ retire_cut mk (h.ready hr) hne hlt ((h.read_add _).trans hend))

theorem failAtOpcode_answersLike {s s' t : State} (h : s.SameAhead t) (hs : failAtOpcode s = .next s') :
    AnswersLike s s' t (failAtOpcode t) := by
  obtain ⟨hB, ⟨hend, rfl⟩ | ⟨op, hr, rfl⟩⟩ := failAtOpcode_next hs
  · exact h.ended.answersLike rfl rfl (by simp [failAtOpcode, openRequest_atEnd (h.boundary hB) (h.noByte hend)])
  · exact (h.passed _).answersLike rfl rfl (h.pos ▸ failAtOpcode_ready (h.ready hr))

theorem failAtModrm_answersLike {s s' t : State} (h : s.SameAhead t) (hs : failAtModrm s = .next s') :
    AnswersLike s s' t (failAtModrm t) := by
  obtain ⟨hB, ⟨hend, rfl⟩ | ⟨op, m, hr, rfl⟩ | ⟨op, hr, hend, rfl⟩⟩ := failAtModrm_next hs
  · exact h.ended.answersLike rfl rfl (by simp [failAtModrm, openRequest_atEnd (h.boundary hB) (h.noByte hend)])
  · exact (h.passed _).answersLike rfl rfl (h.pos ▸ failAtModrm_ready (h.ready hr))
  · exact (h.passed _).ended.answersLike rfl rfl (h.pos ▸ failAtModrm_cut (h.ready hr) ((h.read_add 1).trans hend))

/-- Every meaning has one of the three shapes, so it answers alike. -/
theorem exec_answersLike {i : Instr} {s s' t : State} (h : s.SameAhead t) (hs : exec i s = .next s') :
    AnswersLike s s' t (exec i t) := by
  cases i
  case movImmRmUnimplemented | movAccMemUnimplemented | unsupportedOpcode => exact failAtOpcode_answersLike h hs
  case immRmBadSelector => exact failAtModrm_answersLike h hs
  case addRmReg | subRmReg | cmpRmReg | movRmReg | addImmAcc | subImmAcc | cmpImmAcc | movImmReg =>
    exact retire_answersLike (Nat.le_add_right_of_le (by decide)) h hs
  case addImmRm | subImmRm | cmpImmRm =>
    exact retire_answersLike (Nat.le_add_right_of_le (Nat.le_add_right_of_le (by decide))) h hs
  all_goals exact retire_answersLike (by decide) h hs

/-- A step whose stream ends inside an instruction consumes the window and answers the truncation (R254). -/
theorem step_cut_boundary {s : State} {n : Nat} (hB : s.Boundary) (hd : decode s.window = .error (.cut n)) :
    step s = .next (State.answer (s.passed s.window).ended (.fail (.malformedStream (s.pos + s.window.length)))) := by
  obtain ⟨rfl, hne, hle⟩ := decode_cut hd
  have he : s.eos = false := Bool.eq_false_iff.mpr fun he => hne (State.window_nil.mpr (.inl he))
  rw [step_cut hd]
  exact cutShort_ready ⟨hB, he, State.holds_window he⟩ hne (State.read_after_window he (Nat.lt_succ_of_le hle))

/-- One request: the same window decodes alike, and each of the three things a step does then is answered alike. -/
theorem step_answersLike {s s' t : State} (h : s.SameAhead t) (hs : step s = .next s') : AnswersLike s s' t (step t) := by
  have hB : s.Boundary := (step_answered hs).1
  cases hd : decode s.window with
  | ok p =>
    rw [step_ok hd] at hs
    rw [step_ok (h.window ▸ hd)]
    exact exec_answersLike h hs
  | error e =>
    cases e with
    | noByte =>
      have hend := State.window_nil.mp (decode_noByte.mp hd)
      rw [step_atEnd hend, endOfStream_atEnd hB hend] at hs
      cases hs
      exact h.ended.answersLike rfl rfl
        ((step_atEnd (h.noByte hend)).trans (endOfStream_atEnd (h.boundary hB) (h.noByte hend)))
    | cut n =>
      have ht := step_cut_boundary (h.boundary hB) (h.window ▸ hd)
      rw [h.window, h.pos] at ht
      rw [step_cut_boundary hB hd] at hs
      cases hs
      exact (h.passed _).ended.answersLike rfl rfl ht

/-! ## A run of requests -/

/-- `k` requests give the same `k` answers and leave states that agree again. -/
theorem run_sameAhead {k : Nat} {s s' t : State} (h : s.SameAhead t) (hs : Host.Core.run core k s = .next s') :
    ∃ t' rs, Host.Core.run core k t = .next t' ∧ rs.length = k ∧ s'.results = s.results ++ rs ∧ t'.results = t.results ++ rs ∧
      s'.SameAhead t' := by
  induction k generalizing s t with
  | zero =>
    cases hs
    exact ⟨t, [], rfl, rfl, (List.append_nil _).symm, (List.append_nil _).symm, h⟩
  | succ k ih =>
    obtain ⟨u, hstep, hrest⟩ := run_succ_next hs
    obtain ⟨v, r, hstep', hur, hvr, hahead⟩ := step_answersLike h hstep
    obtain ⟨t', rs, hrun, hlen, hsr, htr, hend⟩ := ih hahead hrest
    refine ⟨t', r :: rs, (run_succ k hstep').trans hrun, congrArg (· + 1) hlen, ?_, ?_, hend⟩
    · rw [hsr, hur, List.append_assoc, List.singleton_append]
    · rw [htr, hvr, List.append_assoc, List.singleton_append]

/-- Settles O15: the agreement from `pos` on that `run_sameAhead` carries through the requests. -/
theorem answersDependOnTheStreamFromPosOn : Obligations.AnswersDependOnTheStreamFromPosOn := by
  unfold Obligations.AnswersDependOnTheStreamFromPosOn
  intro k s t s' hpos hused heos hserial hread hrun
  obtain ⟨t', rs, hrun', hlen, hs, ht, hahead⟩ := run_sameAhead ⟨hpos, hused, heos, hserial, hread⟩ hrun
  exact ⟨t', rs, hrun', hlen, hs, ht, hahead.pos, hahead.used, hahead.eos, hahead.serial⟩

end Sys2Proof.Machine
end

section
/-! PROOFS. The displacement rule read as the table of R150. -/

namespace Sys2Proof.Machine

/-! ## The value of a displacement -/

/-- The word of two displacement bytes, as a number (R60). -/
theorem concatBytes_eq_ofNat (hi lo : Byte) : concatBytes hi lo = BitVec.ofNat 16 (hi.toNat * 256 + lo.toNat) := by
  rw [← concatBytes_toNat, BitVec.ofNat_toNat, BitVec.setWidth_eq]

/-- The displacement of one byte carries that byte's own number: no sign is extended (R12, R146). -/
theorem disp8_eq_ofNat (b : Byte) : disp8 b = .relative8Extended (BitVec.ofNat 16 b.toNat) :=
  congrArg Displacement.relative8Extended (BitVec.ofNat_toNat 16 b).symm

/-! ## What is read for an operand form -/

/-- The operand the displacement rule answers, and the bytes it leaves (R150). -/
def readOperand (w : Bool) (mod : BitVec 2) (rm : BitVec 3) (bs : List Byte) : Option (Operand × List Byte) :=
  (decodeRm mod rm bs).map fun p => (formOperand w p.1, p.2)

/-- From the fields and the displacement bytes of a well-formed operand form, its operand is read and no byte more is taken. -/
theorem readOperand_dispBytes (w : Bool) {f : RmForm} (h : f.wf = true) (t : List Byte) :
    readOperand w f.modField f.rmField (f.dispBytes ++ t) = some (formOperand w f, t) := by
  rw [readOperand, decodeRm_dispBytes h, Option.map_some]

/-! ## The five rows of R150 -/

theorem readOperand_indirect (w : Bool) {rm : BitVec 3} (hrm : rm ≠ 0b110) (t : List Byte) :
    readOperand w 0b00 rm t = some (.memoryIndirect rm .none, t) :=
  readOperand_dispBytes w (f := .indirect rm) (bne_iff_ne.mpr hrm) t

theorem readOperand_direct (w : Bool) (lo hi : Byte) (t : List Byte) :
    readOperand w 0b00 0b110 (lo :: hi :: t) = some (.memoryDirect (BitVec.ofNat 16 (hi.toNat * 256 + lo.toNat)), t) := by
  have h := readOperand_dispBytes w (f := .direct (concatBytes hi lo)) rfl t
  rw [RmForm.dispBytes, wordBytes_concatBytes, concatBytes_eq_ofNat] at h
  exact h

theorem readOperand_indirect8 (w : Bool) (rm : BitVec 3) (b : Byte) (t : List Byte) :
    readOperand w 0b01 rm (b :: t) = some (.memoryIndirect rm (.relative8Extended (BitVec.ofNat 16 b.toNat)), t) := by
  rw [← disp8_eq_ofNat]
  exact readOperand_dispBytes w (f := .indirect8 rm b) rfl t

theorem readOperand_indirect16 (w : Bool) (rm : BitVec 3) (lo hi : Byte) (t : List Byte) :
    readOperand w 0b10 rm (lo :: hi :: t) =
      some (.memoryIndirect rm (.relative16 (BitVec.ofNat 16 (hi.toNat * 256 + lo.toNat))), t) := by
  have h := readOperand_dispBytes w (f := .indirect16 rm (concatBytes hi lo)) rfl t
  rw [RmForm.dispBytes, wordBytes_concatBytes, concatBytes_eq_ofNat] at h
  exact h

theorem readOperand_register (w : Bool) (rm : BitVec 3) (t : List Byte) :
    readOperand w 0b11 rm t = some (.register w rm, t) :=
  readOperand_dispBytes w (f := .register rm) rfl t

/-- Settles O39: the five rows, one lemma each. -/
theorem displacementRuleTable : Obligations.DisplacementRuleTable := by
  unfold Obligations.DisplacementRuleTable
  intro w rm lo hi t
  refine ⟨fun hrm => readOperand_indirect w hrm t, ?_, readOperand_indirect8 w rm lo t,
    readOperand_indirect16 w rm lo hi t, readOperand_register w rm t⟩
  rintro rfl
  exact readOperand_direct w lo hi t

end Sys2Proof.Machine
end

section
/-! PROOFS. What the register/memory forms of `add`, `sub` and `cmp` answer (R191). -/

namespace Sys2Proof.Machine

/-! ## From a meaning that retires its size to both clauses of `Retires` -/

/-- A nonempty encoding of the size the rules give, whose meaning consumes that size: it is answered where it stands whole, and a
proper part of it is answered as cut (R128, R254). -/
theorem retires_of_exec_eq_retire {i : Instr} {mk : Nat → Instruction} (hexec : ∀ s, exec i s = retire i.size mk s)
    (hlen : (encode i).length = i.size) (hsize : 1 ≤ i.size) : Retires i mk := by
  constructor
  · intro s h
    rw [hexec, ← hlen]
    exact retire_ready mk h (List.ne_nil_of_length_pos (hlen ▸ hsize))
  · intro s k hk hlt h hend
    have htake : ((encode i).take k).length = k := List.length_take_of_le hlt.le
    have hcut : exec i s = _ := (hexec s).trans <|
      retire_cut mk h (List.ne_nil_of_length_pos (htake.symm ▸ hk)) (by rwa [htake, ← hlen]) (by rwa [htake])
    exact ⟨_, _, hcut, rfl⟩

/-! ## The three operations -/

/-- The three operations have one meaning (R191), which consumes the instruction's size. -/
theorem exec_arithRmInstr (o : ArithOp) (d w : Bool) (reg : BitVec 3) (f : RmForm) (s : State) :
    exec (arithRmInstr o d w reg f) s = retire (arithRmInstr o d w reg f).size
      (rmRegDescriptor .addSubCmpRegMemWithReg (.arith o) (opArithRm o d w) d w f.modField reg f.rmField (RmForm.displacement f)) s := by
  cases o <;> rfl

theorem encode_arithRmInstr (o : ArithOp) (d w : Bool) (reg : BitVec 3) (f : RmForm) :
    encode (arithRmInstr o d w reg f) = encodeRmReg (opArithRm o d w) reg f := by
  cases o <;> rfl

/-- Whatever the operation, an encodable register/memory form answers the descriptor of R191. -/
theorem arithRmInstr_retires (o : ArithOp) (d w : Bool) (reg : BitVec 3) {f : RmForm} (h : f.wf = true) :
    Retires (arithRmInstr o d w reg f)
      (rmRegDescriptor .addSubCmpRegMemWithReg (.arith o) (opArithRm o d w) d w f.modField reg f.rmField (RmForm.displacement f)) := by
  refine retires_of_exec_eq_retire (exec_arithRmInstr o d w reg f) ?_ ?_
  · rw [encode_arithRmInstr, arithRmInstr_size, encodeRmReg_length h]
  · rw [arithRmInstr_size]
    omega

/-- Settles O19: each row of the statement is an operation with its selector, and `arithRmInstr_retires` holds of every operation. -/
theorem arithmeticWithARegisterAnswersBothOperands : Obligations.ArithmeticWithARegisterAnswersBothOperands := by
  unfold Obligations.ArithmeticWithARegisterAnswersBothOperands
  intro p hp d w reg f hf
  obtain ⟨o, rfl⟩ : ∃ o : ArithOp, p = (o, o.selector, arithRmInstr o) := by
    simp only [List.mem_cons, List.not_mem_nil, or_false] at hp
    rcases hp with rfl | rfl | rfl
    · exact ⟨.add, rfl⟩
    · exact ⟨.sub, rfl⟩
    · exact ⟨.cmp, rfl⟩
  exact arithRmInstr_retires o d w reg hf

end Sys2Proof.Machine
end

section
/-! PROOFS. What the two forms of `mov` with a meaning answer (R210, R211). -/

namespace Sys2Proof.Machine

/-- The register/memory form (R210) consumes its size and answers the operands of R148. -/
theorem exec_movRmReg (d w : Bool) (reg : BitVec 3) (f : RmForm) (s : State) :
    exec (.movRmReg d w reg f) s = retire (Instr.movRmReg d w reg f).size
      (rmRegDescriptor .movRegMemToFromReg .mov (opMovRm d w) d w f.modField reg f.rmField (RmForm.displacement f)) s := rfl

/-- The immediate form (R211) consumes its size and answers the immediate without sign extension. -/
theorem exec_movImmReg (w : Bool) (idx : BitVec 3) (imm : Imm) (s : State) :
    exec (.movImmReg w idx imm) s =
      retire (Instr.movImmReg w idx imm).size (movImmDescriptor (opMovImm w idx) w idx (immValue imm)) s := rfl

/-- Settles O22: the encoding has the size that the meaning consumes, and the descriptor is that of R210. -/
theorem movRegisterMemoryAnswersBothOperands : Obligations.MovRegisterMemoryAnswersBothOperands := by
  unfold Obligations.MovRegisterMemoryAnswersBothOperands
  intro d w reg f hf
  obtain ⟨hlen, hsize, -⟩ := Laws.EncodedLength.movRmReg d w reg f hf
  exact retires_of_exec_eq_retire (exec_movRmReg d w reg f) hlen hsize

/-- The immediate form answers the descriptor of R211, whatever immediate fits the width. -/
theorem movImmReg_retires {w : Bool} {imm : Imm} (idx : BitVec 3) (h : imm.fits w = true) :
    Retires (.movImmReg w idx imm) (movImmDescriptor (opMovImm w idx) w idx (immValue imm)) := by
  obtain ⟨hlen, hsize, -⟩ := Laws.EncodedLength.movImmReg w idx imm h
  exact retires_of_exec_eq_retire (exec_movImmReg w idx imm) hlen hsize

/-- Settles O23: `movImmReg_retires` for a word and for a byte; each width fixes the length and the widening. -/
theorem movImmediateAnswersTheRegisterAndTheImmediate : Obligations.MovImmediateAnswersTheRegisterAndTheImmediate := by
  unfold Obligations.MovImmediateAnswersTheRegisterAndTheImmediate
  intro w idx v imm himm
  rcases himm with ⟨rfl, rfl⟩ | ⟨rfl, b, rfl, rfl⟩
  · exact movImmReg_retires idx rfl
  · exact movImmReg_retires idx rfl

end Sys2Proof.Machine
end

section
/-! PROOFS. What a step does, by what its request finds and by the bytes after the opcode byte (R120, R254, R256). -/

namespace Sys2Proof.Machine

/-! ## A request that faults -/

theorem openAtEnd_fault {α : Type} {s : State} {e : Fault} (h : openRequest s = .fault e) : (openAtEnd s : Walk α) = .fault e := by
  rcases openRequest_cases s with ⟨hs, ho⟩ | ⟨hs, hu, ho⟩ | ⟨-, -, ho⟩ | ⟨_, _, _, _, ho⟩
  · rw [openAtEnd, if_pos hs]
    simpa [ho] using h
  · rw [openAtEnd, if_neg (not_not.mpr hs), advanceByte_fault hu]
    simpa [ho] using h
  · simp [ho] at h
  · simp [ho] at h

theorem retire_fault {s : State} {e : Fault} (len : Nat) (mk : Nat → Instruction) (h : openRequest s = .fault e) :
    retire len mk s = .fault e := by
  simp [retire, h]

theorem failAtOpcode_fault {s : State} {e : Fault} (h : openRequest s = .fault e) : failAtOpcode s = .fault e := by
  simp [failAtOpcode, h]

theorem failAtModrm_fault {s : State} {e : Fault} (h : openRequest s = .fault e) : failAtModrm s = .fault e := by
  simp [failAtModrm, h]

/-- Every meaning opens with the request, so it faults as the request does. -/
theorem exec_fault {s : State} {e : Fault} (i : Instr) (h : openRequest s = .fault e) : exec i s = .fault e := by
  cases i
  case movImmRmUnimplemented | movAccMemUnimplemented | unsupportedOpcode => exact failAtOpcode_fault h
  case immRmBadSelector => exact failAtModrm_fault h
  all_goals exact retire_fault _ _ h

/-- A step faults as its request does, whatever the bytes at `pos` decode to. -/
theorem step_fault {s : State} {e : Fault} (h : openRequest s = .fault e) : step s = .fault e := by
  cases hd : decode s.window with
  | ok p =>
    rw [step_ok hd]
    exact exec_fault p.1 h
  | error stop =>
    cases stop with
    | noByte => rw [step_atEnd (State.window_nil.mp (decode_noByte.mp hd)), endOfStream, openAtEnd_fault h, finish_fault]
    | cut n => simp [step_cut hd, cutShort, h]

/-! ## What a step does, by what stands after the opcode byte -/

section
variable {s : State} {op : Byte} (h : s.Ready [op])
include h

theorem State.Ready.window_eq_cons : s.window = op :: s.src.bytesAt (s.pos + 1) 5 := by
  simpa using State.window_of_holds h.open_ h.holds (by simp)

/-- The bytes read after the opcode byte stand after it. -/
theorem State.Ready.ready_cons {bs rest : List Byte} (hbs : s.src.bytesAt (s.pos + 1) 5 = bs ++ rest) : s.Ready (op :: bs) := by
  have hholds : s.Holds (op :: bs ++ rest) := by
    rw [List.cons_append, ← hbs, ← h.window_eq_cons]
    exact State.holds_window h.open_
  exact ⟨h.boundary, h.open_, hholds.left⟩

theorem step_decoded {i : Instr} {rest : List Byte}
    (hd : decodeAfter op (s.src.bytesAt (s.pos + 1) 5) (classify op) = some (i, rest)) : step s = exec i s :=
  step_ok (rest := rest) (by rw [h.window_eq_cons, decode, hd])

/-- Where the decoder has read `bs` after the opcode byte, the step consumes them and answers the descriptor. -/
theorem step_retired {i : Instr} {bs rest : List Byte} {mk : Nat → Instruction}
    (hbs : s.src.bytesAt (s.pos + 1) 5 = bs ++ rest)
    (hd : decodeAfter op (bs ++ rest) (classify op) = some (i, rest)) (hexec : exec i s = retire i.size mk s) :
    step s = finish (.ok (mk s.pos) (s.passed (op :: bs))) := by
  have hsize : (op :: bs).length = i.size := by
    obtain ⟨hlen, hi⟩ := decodeAfter_takes hd
    simp only [List.length_append, List.length_cons] at hlen hi ⊢
    omega
  rw [step_decoded h (hbs ▸ hd), hexec, ← hsize, finish_ok]
  exact retire_ready mk (h.ready_cons hbs) (List.cons_ne_nil _ _)

/-- Where the bytes end inside an instruction, after `c` and what follows it, the step consumes them all (R254). -/
theorem step_truncated {c r : List Byte} (hbs : s.src.bytesAt (s.pos + 1) 5 = c ++ r)
    (hd : decodeAfter op (c ++ r) (classify op) = none) :
    step s = finish (.fail (.malformedStream ((s.passed (op :: c)).pos + r.length)) ((s.passed (op :: c)).passed r).ended) := by
  have hwindow : s.window = op :: c ++ r := by rw [h.window_eq_cons, hbs, List.cons_append]
  have hcut : decode s.window = .error (.cut s.window.length) := by
    rw [hwindow, List.cons_append, decode, hd]
  rw [step_cut_boundary h.boundary hcut, hwindow, State.passed_append, finish_fail, State.passed_pos, List.length_append,
    Nat.add_assoc]

end

end Sys2Proof.Machine
end

section
/-! PROOFS. The pseudocode's walk (R121 to R123) gives the outcome of the step, from every state. -/

namespace Sys2Proof.Machine

/-! ## The remaining meanings (R192, R193) -/

theorem exec_immRmInstr (o : ArithOp) (sx w : Bool) (f : RmForm) (imm : Imm) (s : State) :
    exec (immRmInstr o sx w f imm) s = retire (immRmInstr o sx w f imm).size
      (immRmDescriptor o (opImmRm sx w) sx w f.modField o.selector f.rmField (RmForm.displacement f) (immRmValue sx imm)) s := by
  cases o <;> rfl

theorem exec_arithAccInstr (o : ArithOp) (w : Bool) (imm : Imm) (s : State) :
    exec (arithAccInstr o w imm) s =
      retire (arithAccInstr o w imm).size (immAccDescriptor o (opArithAcc o w) w (immValue imm)) s := by
  cases o <;> rfl

/-! ## The parts of the walk (R140, R192) -/

theorem readModrm_bytesAt {t : State} {n : Nat} (hu : t.used = 8) (he : t.eos = false) (hn : 1 ≤ n) :
    (∃ m, t.src.bytesAt t.pos n = m :: t.src.bytesAt (t.pos + 1) (n - 1) ∧
      readModrm t = .ok (modOf m, regOf m, rmOf m) (t.passed [m])) ∨
    (t.src.bytesAt t.pos n = [] ∧ readModrm t = .fail (.malformedStream t.pos) t.ended) := by
  obtain ⟨n, rfl⟩ : ∃ k, n = k + 1 := ⟨n - 1, by omega⟩
  cases hm : t.src.read t.pos with
  | none => exact .inr ⟨by simp [Memory.bytesAt, hm], by rw [readModrm, needByte_missing hu (.inr hm), Walk.bind_fail]⟩
  | some m =>
    have htake {k n : Nat} (hk : 1 ≤ n ∧ n ≤ 8 ∧ k + n ≤ 8) := take_at (u := t.receive (.byte m)) he (Nat.succ_ne_zero _) hk
    refine .inl ⟨m, by simp [Memory.bytesAt, hm], ?_⟩
    have hmod : take 2 (t.receive (.byte m)) = .ok (modOf m) { t.receive (.byte m) with used := 2 } :=
      htake (k := 0) (by decide)
    rw [readModrm, needByte_byte hu he hm, Walk.bind_ok, hmod, Walk.bind_ok, htake (by decide), Walk.bind_ok, htake (by decide)]
    rfl

/-- The fetch of an immediate of one or two bytes, a single byte widened by `widen` (R102 to R104). -/
def fetchWidened (widen : Byte → Word) (wide : Bool) (s : State) : Walk Word :=
  if wide then fetch16 s else (fetch8 s).bind fun b s => .ok (widen b) s

theorem fetchImm_eq_fetchWidened (w : Bool) (s : State) : fetchImm w s = fetchWidened zext16 w s := rfl

/-- The last part of `arith_imm_rm` is the fetch of its immediate and the descriptor made of the value. -/
theorem fetchWidened_bind_ok (sx w : Bool) (descriptor : Word → Instruction) (s : State) :
    (fetchWidened (fun b => if sx then sext16 b else zext16 b) (wideImmRm sx w) s).bind (fun v s => .ok (descriptor v) s) =
      if sx = false ∧ w = true then (fetch16 s).bind fun v s => .ok (descriptor v) s
      else (fetch8 s).bind fun b s => .ok (descriptor (if sx then sext16 b else zext16 b)) s := by
  cases sx <;> cases w <;> simp [fetchWidened, wideImmRm, Walk.bind_assoc]

theorem dispBytes_length_le (f : RmForm) : f.dispBytes.length ≤ 2 := by
  cases f <;> simp [RmForm.dispBytes]

/-- With the selector and the displacement read, the immediate decides (R192). -/
theorem decodeImmRm_dispBytes {sx w : Bool} {m : Byte} {o : ArithOp} {f : RmForm} (hsel : selectOp (regOf m) = some o)
    (hf : f.wf = true) (hmod : f.modField = modOf m) (hrm : f.rmField = rmOf m) (r : List Byte) :
    decodeImmRm sx w (m :: (f.dispBytes ++ r)) =
      (decodeImm (wideImmRm sx w) r).map fun p => (immRmInstr o sx w f p.1, p.2) := by
  simp only [decodeImmRm, hsel, ← hmod, ← hrm, decodeRm_dispBytes hf, Option.bind_some]

section
variable {s : State} {op : Byte} (h : s.Ready [op])
include h

/-! ## The immediate that ends an instruction (R192, R193, R211) -/

/-- A form whose bytes after the opcode byte are `c` and then an immediate, a single byte of which is widened by `widen`: its fetch in
the state that has passed `c` ends the walk as the step ends. -/
theorem finish_immediate_eq_step {c : List Byte} {n : Nat} {wide : Bool} {widen : Byte → Word} {value : Imm → Word}
    {mk : Imm → Instr} {descriptor : Word → Nat → Instruction} (hn : 2 ≤ n)
    (hbytes : s.src.bytesAt (s.pos + 1) 5 = c ++ s.src.bytesAt (s.passed (op :: c)).pos n)
    (hrow : ∀ r, decodeAfter op (c ++ r) (classify op) = (decodeImm wide r).map fun p => (mk p.1, p.2))
    (hbyte : ∀ b, value (.byte b) = widen b) (hword : ∀ v, value (.word v) = v)
    (hexec : ∀ imm, exec (mk imm) s = retire (mk imm).size (descriptor (value imm)) s) :
    finish ((fetchWidened widen wide (s.passed (op :: c))).bind fun v t => .ok (descriptor v s.pos) t) = step s := by
  rcases fetchImm_bytesAt (s := s.passed (op :: c)) wide widen rfl h.open_ hn with ⟨imm, hd, hf⟩ | ⟨hd, -, hf⟩
  · obtain ⟨-, himm⟩ := decodeImm_some hd
    have hstep := step_retired (bs := c ++ imm.bytes) h
      (by rw [hbytes, List.append_assoc]; exact congrArg (c ++ ·) himm)
      (by rw [List.append_assoc, hrow, ← himm, hd, Option.map_some]) (hexec imm)
    rw [hstep, fetchWidened, hf, Walk.bind_ok, State.passed_append]
    cases imm with
    | byte b => rw [hbyte]; rfl
    | word v => rw [hword]; rfl
  · rw [step_truncated h hbytes (by rw [hrow]; exact congrArg (Option.map _) hd), fetchWidened, hf]
    rfl

/-! ## The ModRM byte (R140) -/

/-- A form with a ModRM byte: where that byte is missing the step answers the truncation; what is left is the rest of the form. -/
theorem finish_readModrm_eq_step {g : BitVec 2 × BitVec 3 × BitVec 3 → State → Walk Instruction}
    (hnil : decodeAfter op [] (classify op) = none)
    (hrest : ∀ m, s.src.bytesAt (s.pos + 1) 5 = m :: s.src.bytesAt (s.pos + 2) 4 →
      finish (g (modOf m, regOf m, rmOf m) (s.passed [op, m])) = step s) :
    finish ((readModrm (s.passed [op])).bind g) = step s := by
  rcases readModrm_bytesAt (t := s.passed [op]) (n := 5) rfl h.open_ (by decide) with ⟨m, hm, hf⟩ | ⟨hm, hf⟩
  · rw [hf, Walk.bind_ok, State.passed_append]
    exact hrest m hm
  · have hstep := step_truncated (c := []) (r := []) h hm hnil
    rw [hstep, hf]
    rfl

/-! ## A ModRM byte and a displacement (R148, R191, R210) -/

theorem finish_walkRmReg_eq_step {family : OpcodeFamily} {mnemonic : Mnemonic} {d w : Bool} {mk : BitVec 3 → RmForm → Instr}
    (hrow : ∀ t, decodeAfter op t (classify op) = decodeRmReg mk t)
    (hexec : ∀ reg f, exec (mk reg f) s = retire (mk reg f).size
      (rmRegDescriptor family mnemonic op d w f.modField reg f.rmField (RmForm.displacement f)) s) :
    finish (walkRmReg family mnemonic s.pos op d w (s.passed [op])) = step s := by
  refine finish_readModrm_eq_step h (hrow []) fun m hm => ?_
  rcases fetchDisp_bytesAt (s := s.passed [op, m]) (n := 4) (modOf m) (rmOf m) rfl h.open_ (by decide) with
    ⟨f, hd, hf⟩ | ⟨hd, -, hf⟩
  · obtain ⟨-, hmod, hrm, hbs⟩ := decodeRm_some hd
    have hbytes := hm.trans (congrArg (m :: ·) hbs)
    have hstep := step_retired (bs := m :: f.dispBytes) h hbytes
      (by rw [hrow, List.cons_append, ← hbs, decodeRmReg, hd]; rfl) (hexec (regOf m) f)
    rw [hstep, hf, Walk.bind_ok, State.passed_append, hmod, hrm]
    rfl
  · have hstep := step_truncated (c := [m]) h hm (by rw [hrow]; exact congrArg (Option.map _) hd)
    rw [hstep, hf]
    rfl

/-! ## A ModRM byte, a displacement and an immediate (R192) -/

/-- A selector that names no operation: both fail at the ModRM byte (R225). -/
theorem finish_badSelector_eq_step {sx w : Bool} {m : Byte} {t : List Byte} (hm : s.src.bytesAt (s.pos + 1) 5 = m :: t)
    (hrow : decodeAfter op (m :: t) (classify op) = decodeImmRm sx w (m :: t)) (hsel : selectOp (regOf m) = none) :
    finish (unsupported (s.passed [op, m])) = step s := by
  have hdec : decodeAfter op (m :: t) (classify op) = some (.immRmBadSelector sx w (modOf m) (regOf m) (rmOf m), t) := by
    rw [hrow, decodeImmRm, hsel]
  rw [step_decoded h (hm ▸ hdec)]
  exact (failAtModrm_ready (h.ready_cons (bs := [m]) hm)).symm

theorem finish_walkImmRm_eq_step {sx w : Bool} (hop : opImmRm sx w = op)
    (hrow : ∀ t, decodeAfter op t (classify op) = decodeImmRm sx w t) :
    finish (walkImmRm s.pos op sx w (s.passed [op])) = step s := by
  refine finish_readModrm_eq_step h (hrow []) fun m hm => ?_
  cases hsel : selectOp (regOf m) with
  | none => exact finish_badSelector_eq_step h hm (hrow _) hsel
  | some o =>
    simp only [← fetchWidened_bind_ok]
    rcases fetchDisp_bytesAt (s := s.passed [op, m]) (n := 4) (modOf m) (rmOf m) rfl h.open_ (by decide) with
      ⟨f, hd, hf⟩ | ⟨hd, -, hf⟩
    · obtain ⟨hwf, hmod, hrm, hbs⟩ := decodeRm_some hd
      have hpast : (s.passed [op, m]).passed f.dispBytes = s.passed (op :: m :: f.dispBytes) := State.passed_append ..
      have hleft : 2 ≤ 4 - f.dispBytes.length := by have := dispBytes_length_le f; omega
      have hbytes : s.src.bytesAt (s.pos + 1) 5 = m :: f.dispBytes ++
          s.src.bytesAt ((s.passed [op, m]).passed f.dispBytes).pos (4 - f.dispBytes.length) := hm.trans (congrArg (m :: ·) hbs)
      rw [hf, Walk.bind_ok, hpast]
      refine finish_immediate_eq_step (value := immRmValue sx) (mk := immRmInstr o sx w f) h hleft (hpast ▸ hbytes)
        (fun r => (hrow _).trans (decodeImmRm_dispBytes hsel hwf hmod hrm r)) (fun _ => rfl) (fun _ => rfl) fun imm => ?_
      rw [exec_immRmInstr, hop, hmod, hrm, selectOp_some hsel]
    · have hcut : decodeImmRm sx w (m :: s.src.bytesAt (s.pos + 2) 4) = none := by
        simp only [decodeImmRm, hsel]
        exact congrArg (Option.bind · _) hd
      rw [step_truncated (c := [m]) h hm ((hrow _).trans hcut), hf]
      rfl

/-! ## Every row of the opcode map (R123, R92) -/

theorem finish_afterOpcode_eq_step (hj : ∀ j, classify op ≠ .jump j) :
    finish (afterOpcode s.pos op (s.passed [op]) (classify op)) = step s := by
  have hop := rebuildOpcode_classify op
  cases hk : classify op with
  | jump j => exact absurd hk (hj j)
  | arithRm o =>
    rw [hk, rebuildOpcode] at hop
    refine finish_walkRmReg_eq_step h (mk := arithRmInstr o (bitOf op 1) (bitOf op 0))
      (fun t => by rw [hk, decodeAfter]) fun reg f => ?_
    rw [exec_arithRmInstr, hop]
  | movRm =>
    rw [hk, rebuildOpcode] at hop
    refine finish_walkRmReg_eq_step h (mk := .movRmReg (bitOf op 1) (bitOf op 0))
      (fun t => by rw [hk, decodeAfter]) fun reg f => ?_
    rw [exec_movRmReg, hop]
  | immRm =>
    rw [hk, rebuildOpcode] at hop
    exact finish_walkImmRm_eq_step h hop fun t => by rw [hk, decodeAfter]
  | arithAcc o =>
    rw [hk, rebuildOpcode] at hop
    rw [afterOpcode, walkImmAcc, fetchImm_eq_fetchWidened]
    refine finish_immediate_eq_step (c := []) (n := 5) (value := immValue) (mk := arithAccInstr o (bitOf op 0)) h
      (by decide) rfl (fun t => by rw [hk]; rfl) (fun _ => rfl) (fun _ => rfl) fun imm => ?_
    rw [exec_arithAccInstr, hop]
  | movImm =>
    rw [hk, rebuildOpcode] at hop
    rw [afterOpcode, walkMovImm, fetchImm_eq_fetchWidened]
    refine finish_immediate_eq_step (c := []) (n := 5) (value := immValue) (mk := .movImmReg (bitOf op 3) (rmOf op)) h
      (by decide) rfl (fun t => by rw [hk]; rfl) (fun _ => rfl) (fun _ => rfl) fun imm => ?_
    rw [exec_movImmReg, hop]
  | movImmRmUnimplemented | movAccMemUnimplemented | other =>
    rw [step_decoded h (by rw [hk, decodeAfter])]
    exact (failAtOpcode_ready h).symm

/-! ## The jumps and loops (R122, R161) -/

theorem finish_walkJump_eq_step {j : JumpName} (hk : classify op = .jump j) :
    finish (walkJump s.pos op j (s.receive (.byte op))) = step s := by
  have hop : opJump j = op := by simpa [hk, rebuildOpcode] using rebuildOpcode_classify op
  rw [walkJump, take8_fresh op h.open_, Walk.bind_ok]
  rcases fetch8_bytesAt (s := s.passed [op]) (n := 5) rfl h.open_ (by decide) with ⟨off, hoff, hf⟩ | ⟨hnil, hf⟩
  · have hstep := step_retired (bs := [off]) h hoff (by rw [hk]; rfl) (by rw [jumpInstr_size]; exact exec_jumpInstr j off s)
    rw [hstep, hf, hop, Walk.bind_ok, State.passed_append]
    rfl
  · have hstep := step_truncated (c := []) (r := []) h hnil (by rw [hk]; rfl)
    rw [hstep, hf]
    rfl

/-- The walk that has fetched its opcode byte goes on as the step does. -/
theorem decodeNext_ready : decodeNext s = step s := by
  have hpeek : peek 8 (s.receive (.byte op)) = .ok op (s.receive (.byte op)) := by
    rw [peek_ok (n := 8) (s := s.receive (.byte op)) ⟨by decide, by decide, le_rfl⟩ h.open_ (Nat.succ_ne_zero _)]
    exact congrArg (Walk.ok · _) BitVec.extractLsb'_eq_self
  rw [decodeNext, decodeNextWalk, openRequest_byte h.boundary h.open_ h.holds.head, Walk.bind_ok, hpeek, Walk.bind_ok]
  cases hl : lookupJump op with
  | some j => exact finish_walkJump_eq_step h ((lookupJump_eq op j).mp hl)
  | none =>
    have hrow := finish_afterOpcode_eq_step h (lookupJump_none op hl)
    exact (congrArg finish (classifyWalk_eq s.pos op h.open_ hl)).trans hrow

end

theorem decodeNext_fault {s : State} {e : Fault} (h : openRequest s = .fault e) : decodeNext s = .fault e := by
  rw [decodeNext, decodeNextWalk, h, Walk.bind_fault, finish_fault]

/-- Settles O46: by what the request finds: a fault, the clean end, or an opcode byte, after which each row of the opcode map is
walked as it is decoded. -/
theorem pseudocodeWalkEqualsStep : Obligations.PseudocodeWalkEqualsStep := by
  unfold Obligations.PseudocodeWalkEqualsStep
  intro s
  rcases openRequest_cases s with ⟨-, ho⟩ | ⟨-, -, ho⟩ | ⟨hB, hend, ho⟩ | ⟨hB, he, op, hop, -⟩
  · rw [decodeNext_fault ho, step_fault ho]
  · rw [decodeNext_fault ho, step_fault ho]
  · rw [decodeNext, decodeNextWalk, ho, Walk.bind_fail, step_atEnd hend, endOfStream_atEnd hB hend, finish_fail]
  · have hready : s.Ready [op] := ⟨hB, he, fun k hk => by
      obtain rfl : k = 0 := by simpa using hk
      exact hop⟩
    exact decodeNext_ready hready

end Sys2Proof.Machine
end

section
/-! PROOFS. The failing rows: which bytes fail at the opcode byte and which at the ModRM byte, and what is answered (R220, R221,
R225, R253). -/

namespace Sys2Proof.Machine

/-! ## What the failing rows answer -/

/-- Settles O24: the three rows have one meaning, `failAtOpcode`. -/
theorem unsupportedOpcodeBytesAreReported : Obligations.UnsupportedOpcodeBytesAreReported := by
  unfold Obligations.UnsupportedOpcodeBytesAreReported
  intro s op h
  exact ⟨fun _ => failAtOpcode_ready h, fun _ _ => failAtOpcode_ready h, failAtOpcode_ready h⟩

/-- Settles O25: the row's meaning is `failAtModrm`, whatever its fields. -/
theorem badSelectorReportsTheModrmByte : Obligations.BadSelectorReportsTheModrmByte := by
  unfold Obligations.BadSelectorReportsTheModrmByte
  intro s op m sx w mod sel rm h
  exact failAtModrm_ready h

/-! ## What an answered `UnsupportedEncoding` tells -/

/-- An `UnsupportedEncoding` at the first byte comes from a one-byte row, one at the second byte from a two-byte row. -/
theorem Answered.unsupported {size o : Nat} {s t : State} {b : Byte} (h : Answered size s t)
    (hr : t.results = s.results ++ [.fail (.unsupportedEncoding o b)]) :
    (o = s.pos ∧ size = 1) ∨ (o = s.pos + 1 ∧ size = 2) := by
  cases h with
  | failedAtOpcode op _ hl =>
    obtain ⟨rfl, -⟩ : s.pos = o ∧ op = b := by simpa using hr
    exact .inl ⟨rfl, hl⟩
  | failedAtModrm op m _ hl =>
    obtain ⟨rfl, -⟩ : s.pos + 1 = o ∧ m = b := by simpa using hr
    exact .inr ⟨rfl, hl⟩
  | atEnd | decoded | cut => simp at hr

/-- The same of a step that finds an opcode byte: the size is that of the opcode byte's row. -/
theorem step_unsupported {o : Nat} {s t : State} {op b : Byte} (h : s.Ready [op]) (hs : step s = .next t)
    (hr : t.results = s.results ++ [.fail (.unsupportedEncoding o b)]) :
    (o = s.pos ∧ rowSize op ((s.src.bytesAt (s.pos + 1) 5).headD 0) (classify op) = 1) ∨
    (o = s.pos + 1 ∧ rowSize op ((s.src.bytesAt (s.pos + 1) 5).headD 0) (classify op) = 2) := by
  cases hd : decode s.window with
  | ok p =>
    have hsize := (decode_takes (h.window_eq_cons ▸ hd)).2
    rw [step_ok hd] at hs
    rw [← hsize]
    exact (exec_answered hs).2.unsupported hr
  | error e =>
    cases e with
    | noByte => exact absurd (h.window_eq_cons.symm.trans (decode_noByte.mp hd)) (List.cons_ne_nil _ _)
    | cut n =>
      rw [step_cut_boundary h.boundary hd] at hs
      cases hs
      simp at hr

/-! ## Failing at the opcode byte (R220, R221) -/

/-- The rows that fail at the opcode byte (R212, R213, R220). -/
def failsAtOpcode : RowKind → Bool
  | .movImmRmUnimplemented | .movAccMemUnimplemented | .other => true
  | .jump _ | .arithRm _ | .arithAcc _ | .immRm | .movRm | .movImm => false

/-- The ranges of R221 are the opcode bytes of these rows. -/
theorem failingOpcode_eq_failsAtOpcode : ∀ op : Byte, failingOpcode op = failsAtOpcode (classify op) := by decide

/-- Every row that goes on after its opcode byte takes a second one. -/
theorem failsAtOpcode_of_rowSize {op m : Byte} {k : RowKind} (h : rowSize op m k = 1) : failsAtOpcode k = true := by
  cases k with
  | movImmRmUnimplemented | movAccMemUnimplemented | other => rfl
  | immRm =>
    simp only [rowSize] at h
    split at h <;> omega
  | jump | arithRm | arithAcc | movRm | movImm =>
    simp only [rowSize] at h
    omega

/-- An opcode byte of the failing ranges is consumed and answered (R220, R253). -/
theorem step_failingOpcode {s : State} {op : Byte} (h : s.Ready [op]) (hop : failingOpcode op = true) :
    step s = .next ((s.passed [op]).answer (.fail (.unsupportedEncoding s.pos op))) := by
  rw [failingOpcode_eq_failsAtOpcode] at hop
  cases hk : classify op with
  | movImmRmUnimplemented | movAccMemUnimplemented | other =>
    rw [step_decoded h (by rw [hk, decodeAfter])]
    exact failAtOpcode_ready h
  | jump | arithRm | arithAcc | immRm | movRm | movImm => simp [hk, failsAtOpcode] at hop

theorem countP_failingOpcode : ((List.range 256).countP fun n => failingOpcode (BitVec.ofNat 8 n)) = 194 := by decide +kernel

/-- Settles O26: only a one-byte row is answered at its own offset, and the one-byte rows are those of the failing ranges. -/
theorem exactlyTheFailingRangesFailAtTheOpcodeByte : Obligations.ExactlyTheFailingRangesFailAtTheOpcodeByte := by
  unfold Obligations.ExactlyTheFailingRangesFailAtTheOpcodeByte
  refine ⟨fun s op h => ⟨?_, fun hop => ⟨_, op, step_failingOpcode h hop, rfl⟩⟩, countP_failingOpcode⟩
  rintro ⟨t, b, hs, hr⟩
  rw [failingOpcode_eq_failsAtOpcode]
  rcases step_unsupported h hs hr with ⟨-, hsize⟩ | ⟨ho, -⟩
  · exact failsAtOpcode_of_rowSize hsize
  · omega

/-! ## Failing at the ModRM byte (R225) -/

/-- With a selector that names an operation an immediate follows, so at least three bytes are taken (R98). -/
theorem three_le_rowSize_immRm (op : Byte) {m : Byte} (hm : failingSelector m = false) : 3 ≤ rowSize op m .immRm := by
  have hnimm : ∀ sx w, 1 ≤ nimm sx w := by decide
  have := hnimm (bitOf op 1) (bitOf op 0)
  rw [failingSelector_eq] at hm
  simp only [rowSize, hm, Bool.false_eq_true, if_false]
  omega

/-- With bytes standing next, the first of them stands next. -/
theorem State.Ready.head {s : State} {op : Byte} {bs : List Byte} (h : s.Ready (op :: bs)) : s.Ready [op] :=
  ⟨h.boundary, h.open_, h.holds.take 1⟩

section
variable {s : State} {op m : Byte} (h : s.Ready [op, m])
include h

theorem State.Ready.bytesAt_eq_cons : s.src.bytesAt (s.pos + 1) 5 = m :: s.src.bytesAt (s.pos + 2) 4 := by
  have hread : s.src.read (s.pos + 1) = some m := h.holds.tail.head
  rw [Memory.bytesAt, hread]

/-- A failing selector after an F-IRM opcode byte: both bytes are consumed and the second is answered (R225, R253). -/
theorem step_failingSelector (hop : immRmOpcode op = true) (hm : failingSelector m = true) :
    step s = .next ((s.passed [op, m]).answer (.fail (.unsupportedEncoding (s.pos + 1) m))) := by
  have hsel : selectOp (regOf m) = none := selectOp_none.mpr hm
  have hrow : decodeAfter op (m :: s.src.bytesAt (s.pos + 2) 4) (classify op) =
      decodeImmRm (bitOf op 1) (bitOf op 0) (m :: s.src.bytesAt (s.pos + 2) 4) := by
    rw [(immRmOpcode_iff op).mp hop, decodeAfter]
  exact (finish_badSelector_eq_step h.head h.bytesAt_eq_cons hrow hsel).symm

/-- With any other selector the F-IRM form is no `UnsupportedEncoding`: it takes three bytes or more. -/
theorem step_ne_unsupported_of_goodSelector (hop : immRmOpcode op = true) (hm : failingSelector m = false) {t : State}
    (hs : step s = .next t) (o : Nat) (b : Byte) : t.results ≠ s.results ++ [.fail (.unsupportedEncoding o b)] := by
  intro hr
  have hlong := three_le_rowSize_immRm op hm
  have hshort := step_unsupported h.head hs hr
  rw [(immRmOpcode_iff op).mp hop, h.bytesAt_eq_cons, List.headD_cons] at hshort
  omega

end

/-- Five of the eight selectors fail, each under 32 ModRM bytes (R225). -/
theorem countP_failingSelector : ((List.range 256).countP fun n => failingSelector (BitVec.ofNat 8 n)) = 160 := by
  decide +kernel

/-- Settles O27: `step_failingSelector` for the failing selectors, and the sizes for the others. -/
theorem exactlyTheFailingSelectorsFailAtTheModrmByte : Obligations.ExactlyTheFailingSelectorsFailAtTheModrmByte := by
  unfold Obligations.ExactlyTheFailingSelectorsFailAtTheModrmByte
  refine ⟨fun s op m hop h => ⟨step_failingSelector h hop, fun hm t o b hs => ?_⟩, countP_failingSelector⟩
  exact step_ne_unsupported_of_goodSelector h hop hm hs o b

end Sys2Proof.Machine
end

section
/-! PROOFS. The numerals of the text form: the shortest decimal numeral (R240) and the signed jump offset (R239). -/

namespace Sys2Proof.Machine

/-! ## One digit -/

theorem digit_mem_range : ∀ n < 10, '0' ≤ digit n ∧ digit n ≤ '9' := by decide

theorem digit_value : ∀ n < 10, (digit n).toNat - '0'.toNat = n := by decide

theorem eq_zero_of_digit_eq : ∀ n < 10, digit n = '0' → n = 0 := by decide

/-! ## The digits of a number -/

theorem decDigits_of_lt {n : Nat} (fuel : Nat) (h : n < 10) : decDigits (fuel + 1) n = [digit n] := if_pos h

theorem decDigits_of_ge {n : Nat} (fuel : Nat) (h : ¬ n < 10) :
    decDigits (fuel + 1) n = decDigits fuel (n / 10) ++ [digit (n % 10)] := if_neg h

theorem decDigits_ne_nil (fuel n : Nat) : decDigits (fuel + 1) n ≠ [] := by
  by_cases h : n < 10
  · simp [decDigits_of_lt fuel h]
  · simp [decDigits_of_ge fuel h]

theorem mem_decDigits {fuel n : Nat} {c : Char} (hc : c ∈ decDigits fuel n) : '0' ≤ c ∧ c ≤ '9' := by
  induction fuel generalizing n with
  | zero => cases hc
  | succ fuel ih =>
    by_cases h : n < 10
    · rw [decDigits_of_lt fuel h, List.mem_singleton] at hc
      exact hc ▸ digit_mem_range n h
    · rw [decDigits_of_ge fuel h, List.mem_append, List.mem_singleton] at hc
      rcases hc with hinit | rfl
      · exact ih hinit
      · exact digit_mem_range _ (Nat.mod_lt n (by decide))

/-- What a list of digits reads as, the first the most significant. -/
def numeralValue (cs : List Char) : Nat := cs.foldl (fun v c => 10 * v + (c.toNat - '0'.toNat)) 0

theorem numeralValue_concat (cs : List Char) (c : Char) :
    numeralValue (cs ++ [c]) = 10 * numeralValue cs + (c.toNat - '0'.toNat) := by
  simp [numeralValue]

theorem numeralValue_decDigits {fuel n : Nat} (hn : n < 10 ^ fuel) : numeralValue (decDigits fuel n) = n := by
  induction fuel generalizing n with
  | zero => exact (Nat.lt_one_iff.mp hn).symm
  | succ fuel ih =>
    by_cases h : n < 10
    · have hone := numeralValue_concat [] (digit n)
      rw [digit_value n h] at hone
      rw [decDigits_of_lt fuel h]
      exact hone.trans (Nat.zero_add n)
    · have hquot : n / 10 < 10 ^ fuel := Nat.div_lt_of_lt_mul (Nat.pow_succ' ▸ hn)
      rw [decDigits_of_ge fuel h, numeralValue_concat, ih hquot, digit_value _ (Nat.mod_lt n (by decide))]
      exact Nat.div_add_mod n 10

/-- A numeral that begins with `0` is the numeral of zero: the first digit of a longer one is that of a quotient that is not zero. -/
theorem eq_zero_of_head_decDigits {fuel n : Nat} (hn : n < 10 ^ fuel) (hhead : (decDigits fuel n).head? = some '0') : n = 0 := by
  induction fuel generalizing n with
  | zero => exact Nat.lt_one_iff.mp hn
  | succ fuel ih =>
    by_cases h : n < 10
    · rw [decDigits_of_lt fuel h, List.head?_singleton] at hhead
      exact eq_zero_of_digit_eq n h (Option.some.inj hhead)
    · have hquot : n / 10 < 10 ^ fuel := Nat.div_lt_of_lt_mul (Nat.pow_succ' ▸ hn)
      have hfirst : decDigits fuel (n / 10) ≠ [] := by
        cases fuel with
        | zero => omega
        | succ fuel => exact decDigits_ne_nil fuel _
      rw [decDigits_of_ge fuel h, List.head?_append_of_ne_nil _ hfirst] at hhead
      have hzero := ih hquot hhead
      omega

/-- Settles O52: five digits are enough below 100000, and each property of the digits is a lemma above. -/
theorem decimalNumeralsAreShortest : Obligations.DecimalNumeralsAreShortest := by
  unfold Obligations.DecimalNumeralsAreShortest
  intro n hn
  have hfits : n < 10 ^ 5 := by omega
  refine ⟨decDigits 5 n, rfl, fun c => mem_decDigits, numeralValue_decDigits hfits, fun hhead => ?_, decDigits_ne_nil 4 n⟩
  obtain rfl := eq_zero_of_head_decDigits hfits hhead
  exact ⟨rfl, rfl⟩

/-! ## The signed offset -/

theorem signed16_eq_toInt (v : Word) : signed16 v = v.toInt := by
  rw [signed16, BitVec.toInt_eq_toNat_cond]
  split <;> split <;> omega

theorem signed8_eq_toInt (b : Byte) : signed8 b = b.toInt := by
  rw [signed8, BitVec.toInt_eq_toNat_cond]
  split <;> split <;> omega

/-- Sign extension keeps the signed value (R14). -/
theorem signed16_sext16 (b : Byte) : signed16 (sext16 b) = signed8 b := by
  rw [signed16_eq_toInt, signed8_eq_toInt, sext16, BitVec.toInt_signExtend_of_le (by decide)]

theorem signedDec_sext16 (off : Byte) :
    signedDec (sext16 off) = if off.toNat < 128 then dec off.toNat else "-" ++ dec (256 - off.toNat) := by
  rw [signedDec, signed16_sext16, signed8]
  by_cases h : off.toNat < 128
  · have hsign : ¬ (off.toNat : Int) < 0 := by omega
    rw [if_pos h, if_pos h, if_neg hsign, Int.toNat_natCast]
  · have hsign : (off.toNat : Int) - 256 < 0 := by have := off.isLt; omega
    have habs : (-((off.toNat : Int) - 256)).toNat = 256 - off.toNat := by omega
    rw [if_neg h, if_neg h, if_pos hsign, habs]

/-- The one operand of a jump is rendered as an offset (R231, R239). -/
theorem format_jumpDescriptor (j : JumpName) (op off : Byte) (start : Nat) :
    format (jumpDescriptor j op off start) = mnemonicText (.jump j) ++ " " ++ signedDec (sext16 off) := rfl

/-- Settles O53: the line of a jump, and its offset read as a signed byte. -/
theorem jumpTextShowsTheSignedOffset : Obligations.JumpTextShowsTheSignedOffset := by
  unfold Obligations.JumpTextShowsTheSignedOffset
  intro j op off start
  rw [format_jumpDescriptor, signedDec_sext16]

end Sys2Proof.Machine
end

section
/-! PROOFS. The text form has no width keyword (R241): with a memory operand and an immediate it does not depend on `fields.w`. -/

namespace Sys2Proof.Machine

/-- Only a register operand keeps the width (R142); a memory operand does not. -/
theorem rmOperand_memory {mod : BitVec 2} (hmod : mod ≠ 0b11) (w w' : Bool) (rm : BitVec 3) (disp : Displacement) :
    rmOperand w mod rm disp = rmOperand w' mod rm disp :=
  (if_neg hmod).trans (if_neg hmod).symm

/-- The line of an F-IRM instruction (R231, R238). -/
theorem format_immRmDescriptor (o : ArithOp) (op : Byte) (sx w : Bool) (mod : BitVec 2) (reg rm : BitVec 3) (disp : Displacement)
    (v : Word) (start : Nat) :
    format (immRmDescriptor o op sx w mod reg rm disp v start) =
      mnemonicText (.arith o) ++ " " ++ operandsText false [rmOperand w mod rm disp, .immediate v] := rfl

/-- A memory operand and an immediate of the same value read alike under either width (R241). -/
theorem format_immRmDescriptor_memory {mod : BitVec 2} (hmod : mod ≠ 0b11) (o : ArithOp) (op op' : Byte) (sx sx' w w' : Bool)
    (reg reg' rm : BitVec 3) (disp : Displacement) (v : Word) (start start' : Nat) :
    format (immRmDescriptor o op sx w mod reg rm disp v start) =
      format (immRmDescriptor o op' sx' w' mod reg' rm disp v start') := by
  rw [format_immRmDescriptor, format_immRmDescriptor, rmOperand_memory hmod w w']

/-- An F-IRM instruction that stands next in the stream is consumed and answered with the descriptor of R192. -/
theorem step_immRm {s : State} {op : Byte} {bs : List Byte} {o : ArithOp} {sx w : Bool} {f : RmForm} {imm : Imm}
    (h : s.Ready (op :: bs)) (hlen : bs.length ≤ 5)
    (hd : ∀ rest, decodeAfter op (bs ++ rest) (classify op) = some (immRmInstr o sx w f imm, rest)) :
    step s = .next ((s.passed (op :: bs)).answer (.ok (immRmDescriptor o (opImmRm sx w) sx w f.modField o.selector f.rmField
      (RmForm.displacement f) (immRmValue sx imm) s.pos))) :=
  step_retired h.head (s.src.bytesAt_of_holds bs (s.pos + 1) 5 h.holds.tail hlen) (hd _) (exec_immRmInstr o sx w f imm s)

/-- The bytes a stream is bound from stand at its start. -/
theorem State.ready_boot (bs : List Byte) : (State.boot bs).Ready bs := ⟨⟨rfl, rfl⟩, rfl, fun k _ => by simp⟩

/-- Settles O55: the two encodings give one mnemonic, one memory operand and one value, and differ in `w`. -/
theorem textFormLosesTheOperandWidth : Obligations.TextFormLosesTheOperandWidth := by
  unfold Obligations.TextFormLosesTheOperandWidth
  have hbyte := step_immRm (o := .add) (sx := false) (w := false) (f := .indirect 7) (imm := .byte 0xFF)
    (State.ready_boot [0x80, 0x07, 0xFF]) (by decide) fun _ => rfl
  have hword := step_immRm (o := .add) (sx := false) (w := true) (f := .indirect 7) (imm := .word 0x00FF)
    (State.ready_boot [0x81, 0x07, 0xFF, 0x00]) (by decide) fun _ => rfl
  have hread : immRmValue false (.byte 0xFF) = immRmValue false (.word 0x00FF) := by decide
  rw [hread] at hbyte
  have htext : format (immRmDescriptor .add (opImmRm false false) false false 0b00 0b000 7 .none 0x00FF 0) = "add [bx], 255" := by
    decide
  refine ⟨_, _, _, _, hbyte, rfl, hword, rfl, htext, ?_, rfl, rfl⟩
  exact (format_immRmDescriptor_memory (by decide) ..).trans htext

end Sys2Proof.Machine
end

section
/-! PROOFS. `UnsupportedEncoding` is raised at two places only (R252): every other byte belongs to a row that retires. -/

namespace Sys2Proof.Machine

/-! ## The rows that retire -/

/-- The whole meaning of `i` is to consume its size and answer a descriptor. -/
def Retiring (i : Instr) : Prop := 1 ≤ i.size ∧ ∃ mk, ∀ s, exec i s = retire i.size mk s

theorem retiring_jumpInstr (j : JumpName) (off : Byte) : Retiring (jumpInstr j off) := by
  rw [Retiring, jumpInstr_size]
  exact ⟨by decide, _, exec_jumpInstr j off⟩

theorem retiring_arithRmInstr (o : ArithOp) (d w : Bool) (reg : BitVec 3) (f : RmForm) : Retiring (arithRmInstr o d w reg f) :=
  ⟨by rw [arithRmInstr_size]; omega, _, exec_arithRmInstr o d w reg f⟩

theorem retiring_movRmReg (d w : Bool) (reg : BitVec 3) (f : RmForm) : Retiring (.movRmReg d w reg f) :=
  ⟨Nat.le_add_right_of_le (by decide), _, exec_movRmReg d w reg f⟩

theorem retiring_arithAccInstr (o : ArithOp) (w : Bool) (imm : Imm) : Retiring (arithAccInstr o w imm) :=
  ⟨by rw [arithAccInstr_size]; omega, _, exec_arithAccInstr o w imm⟩

theorem retiring_movImmReg (w : Bool) (idx : BitVec 3) (imm : Imm) : Retiring (.movImmReg w idx imm) :=
  ⟨Nat.le_add_right_of_le (by decide), _, exec_movImmReg w idx imm⟩

theorem retiring_of_decodeRmReg {mk : BitVec 3 → RmForm → Instr} (hmk : ∀ reg f, Retiring (mk reg f)) {t : List Byte}
    {p : Instr × List Byte} (h : decodeRmReg mk t = some p) : Retiring p.1 := by
  cases t with
  | nil => cases h
  | cons m t =>
    obtain ⟨⟨f, rest⟩, -, rfl⟩ := Option.map_eq_some_iff.mp h
    exact hmk (regOf m) f

theorem retiring_of_decodeImm {mk : Imm → Instr} (hmk : ∀ imm, Retiring (mk imm)) {wide : Bool} {t : List Byte}
    {p : Instr × List Byte} (h : (decodeImm wide t).map (fun q => (mk q.1, q.2)) = some p) : Retiring p.1 := by
  obtain ⟨⟨imm, rest⟩, -, rfl⟩ := Option.map_eq_some_iff.mp h
  exact hmk imm

/-- Outside F-IRM and the rows that fail at the opcode byte, whatever is decoded retires. -/
theorem retiring_of_decodeAfter {op : Byte} {t : List Byte} {k : RowKind} {p : Instr × List Byte}
    (h : decodeAfter op t k = some p) (hop : failsAtOpcode k = false) (hirm : k ≠ .immRm) : Retiring p.1 := by
  cases k with
  | jump j =>
    cases t with
    | nil => cases h
    | cons off t =>
      cases h
      exact retiring_jumpInstr j off
  | arithRm o => exact retiring_of_decodeRmReg (retiring_arithRmInstr o _ _) h
  | movRm => exact retiring_of_decodeRmReg (retiring_movRmReg _ _) h
  | arithAcc o => exact retiring_of_decodeImm (retiring_arithAccInstr o _) h
  | movImm => exact retiring_of_decodeImm (retiring_movImmReg _ _) h
  | immRm => exact absurd rfl hirm
  | movImmRmUnimplemented | movAccMemUnimplemented | other => cases hop

/-! ## Where an `UnsupportedEncoding` comes from -/

/-- What retires is answered at the end, decoded or cut short, never `UnsupportedEncoding`. -/
theorem Retiring.ne_unsupported {i : Instr} (hi : Retiring i) {s t : State} (hs : exec i s = .next t) (o : Nat) (b : Byte) :
    t.results ≠ s.results ++ [.fail (.unsupportedEncoding o b)] := by
  obtain ⟨hsize, mk, hexec⟩ := hi
  obtain ⟨-, ⟨-, rfl⟩ | ⟨bs, -, -, rfl⟩ | ⟨bs, -, -, -, -, rfl⟩⟩ := retire_next hsize (hexec s ▸ hs) <;> simp

/-- Only F-IRM and the rows that fail at the opcode byte are answered `UnsupportedEncoding`. -/
theorem row_of_unsupported {s t : State} {op b : Byte} {o : Nat} (h : s.Ready [op]) (hs : step s = .next t)
    (hr : t.results = s.results ++ [.fail (.unsupportedEncoding o b)]) :
    failingOpcode op = true ∨ immRmOpcode op = true := by
  rw [failingOpcode_eq_failsAtOpcode, immRmOpcode_iff]
  by_contra! hrow
  obtain ⟨hop, hirm⟩ := hrow
  cases hd : decodeAfter op (s.src.bytesAt (s.pos + 1) 5) (classify op) with
  | some p =>
    rw [step_decoded h hd] at hs
    exact (retiring_of_decodeAfter hd (Bool.eq_false_iff.mpr hop) hirm).ne_unsupported hs o b hr
  | none =>
    rw [step_truncated (c := []) h rfl hd, finish_fail] at hs
    cases hs
    simp at hr

/-- What is reported past the opcode byte follows an F-IRM opcode byte: the failing opcode bytes are reported themselves. -/
theorem immRmOpcode_of_unsupported_second {s t : State} {op b : Byte} (h : s.Ready [op]) (hs : step s = .next t)
    (hr : t.results = s.results ++ [.fail (.unsupportedEncoding (s.pos + 1) b)]) : immRmOpcode op = true := by
  rcases row_of_unsupported h hs hr with hop | hirm
  · rw [step_failingOpcode h hop] at hs
    cases hs
    simp at hr
  · exact hirm

/-- Settles O28: a step that reports a byte reports its first, which is then in the failing ranges, or its second, which then is a
failing selector after an F-IRM opcode byte. -/
theorem unsupportedEncodingIsRaisedAtTwoPlacesOnly : Obligations.UnsupportedEncodingIsRaisedAtTwoPlacesOnly := by
  unfold Obligations.UnsupportedEncodingIsRaisedAtTwoPlacesOnly
  intro s t o b hs hr
  obtain ⟨-, size, -, hanswered⟩ := step_answered hs
  cases hanswered with
  | failedAtOpcode op h =>
    obtain ⟨rfl, rfl⟩ : s.pos = o ∧ op = b := by simpa using hr
    have hop : failingOpcode op = true := (exactlyTheFailingRangesFailAtTheOpcodeByte.1 s op h).mp ⟨_, _, hs, hr⟩
    exact ⟨h.holds.head, .inl ⟨rfl, hop⟩⟩
  | failedAtModrm op m h =>
    obtain ⟨rfl, rfl⟩ : s.pos + 1 = o ∧ m = b := by simpa using hr
    have hirm : immRmOpcode op = true := immRmOpcode_of_unsupported_second h.head hs hr
    have hsel : failingSelector m = true := by
      by_contra hgood
      exact step_ne_unsupported_of_goodSelector h hirm (Bool.eq_false_iff.mpr hgood) hs _ _ hr
    exact ⟨h.holds.tail.head, .inr ⟨rfl, hsel, op, h.holds.head, hirm⟩⟩
  | atEnd | decoded | cut => simp at hr

end Sys2Proof.Machine
end

section
/-! PROOFS. What the cursor operations and a step keep: the cursor invariants (R26), the frame (R25, R51, R128) and the tiling of the
answers (Part 5 of the test vectors). -/

namespace Sys2Proof.Machine

/-! ## The last byte passed -/

/-- After a first byte has been passed, `cur` is the byte before `pos` (R21). -/
theorem State.Holds.read_last {s : State} {bs : List Byte} (h : s.Holds bs) (hne : bs ≠ []) :
    s.src.read (s.pos + bs.length - 1) = some (bs.getLastD s.cur) := by
  have hlen : 0 < bs.length := List.length_pos_iff.mpr hne
  have hlast := h (bs.length - 1) (by omega)
  rw [← Nat.add_sub_assoc hlen, ← List.getLast?_eq_getElem?, List.getLast?_eq_some_getLast hne] at hlast
  rw [hlast, List.getLastD_eq_getLast?, List.getLast?_eq_some_getLast hne, Option.getD_some]

/-! ## The cursor invariants under the named updates -/

section
variable {s : State} (h : s.Inv)
include h

theorem State.Inv.answer (r : DecodeResult) : (s.answer r).Inv := ⟨h.srcWf, h.usedLe, h.posLe, h.eosAtEnd, h.curIsLast⟩

theorem State.Inv.withUsed {n : Nat} (hn : n ≤ 8) : { s with used := n }.Inv := ⟨h.srcWf, hn, h.posLe, h.eosAtEnd, h.curIsLast⟩

/-- Where the request finds no byte, `pos` is the stream's length (R52). -/
theorem State.Inv.pos_eq_size (hend : s.eos = true ∨ s.src.read s.pos = none) : s.pos = s.src.size := by
  rcases hend with heos | hread
  · exact h.eosAtEnd heos
  · exact Nat.le_antisymm h.posLe ((Memory.read_eq_none h.srcWf).mp hread)

theorem State.Inv.ended (hend : s.eos = true ∨ s.src.read s.pos = none) : s.ended.Inv :=
  ⟨h.srcWf, h.usedLe, h.posLe, fun _ => h.pos_eq_size hend, h.curIsLast⟩

theorem State.Inv.passed {bs : List Byte} (hopen : s.eos = false) (hbs : s.Holds bs) : (s.passed bs).Inv := by
  by_cases hne : bs = []
  · subst hne
    exact ⟨h.srcWf, le_rfl, h.posLe, h.eosAtEnd, h.curIsLast⟩
  · have hlast := hbs.read_last hne
    have hlen : 0 < bs.length := List.length_pos_iff.mpr hne
    have hsize : s.pos + bs.length - 1 < s.src.size := (Memory.exists_read h.srcWf).mp ⟨_, hlast⟩
    exact ⟨h.srcWf, le_rfl, by simp only [State.passed_pos, State.passed_src]; omega, fun he => by simp [hopen] at he, fun _ => hlast⟩

end

/-- One byte that stands at `pos`. -/
theorem State.holds_singleton {s : State} {b : Byte} (hb : s.src.read s.pos = some b) : s.Holds [b] := fun k hk => by
  obtain rfl : k = 0 := by simpa using hk
  exact hb

/-! ## The cursor operations -/

/-- `advance_byte` keeps the invariants: a byte is latched, or the end is seen (R54). -/
theorem State.Inv.advanceByte {s t : State} (h : s.Inv) (ha : advanceByte s = .ok () t) : t.Inv ∧ t.results = s.results := by
  rcases advanceByte_cases s with ⟨-, ho⟩ | ⟨-, -, ho⟩ | ⟨-, hopen, b, hb, ho⟩ | ⟨-, -, hb, ho⟩
  · cases ho.symm.trans ha
  · cases ho.symm.trans ha
    exact ⟨h, rfl⟩
  · cases ho.symm.trans ha
    exact ⟨(h.passed hopen (State.holds_singleton hb)).withUsed (Nat.zero_le 8), rfl⟩
  · cases ho.symm.trans ha
    exact ⟨h.ended (.inr hb), rfl⟩

theorem State.Inv.take {n : Nat} {s t : State} {v : BitVec n} (h : s.Inv) (ht : take n s = .ok v t) :
    t.Inv ∧ t.results = s.results := by
  obtain ⟨⟨-, -, hfit⟩, -, -, -, rfl⟩ := take_inv ht
  exact ⟨h.withUsed hfit, rfl⟩

theorem State.Inv.fetch8 {s t : State} {b : Byte} (h : s.Inv) (hf : fetch8 s = .ok b t) :
    t.Inv ∧ t.results = s.results ∧ t.used = 8 ∧ t.cur = b := by
  rcases fetch8_cases s with ⟨-, ho⟩ | ⟨-, -, ho⟩ | ⟨-, hopen, c, hc, ho⟩
  · cases ho.symm.trans hf
  · cases ho.symm.trans hf
  · cases ho.symm.trans hf
    exact ⟨h.passed hopen (State.holds_singleton hc), rfl, rfl, rfl⟩

/-- Settles O5: one lemma per operation; what `peek` gives back is the state it was given. -/
theorem cursorOperationsKeepTheInvariants : Obligations.CursorOperationsKeepTheInvariants := by
  unfold Obligations.CursorOperationsKeepTheInvariants
  intro s h
  refine ⟨fun _ => h.advanceByte, fun n v t hp => ?_, fun _ _ _ => h.take, fun _ _ => h.fetch8, fun o t hu => ?_⟩
  · obtain ⟨-, -, -, -, rfl⟩ := peek_inv hp
    rfl
  · cases hu
    exact ⟨h.withUsed le_rfl, rfl⟩

/-! ## A step and the invariants -/

/-- Whatever is answered, the invariants are kept. -/
theorem Answered.inv {size : Nat} {s t : State} (ha : Answered size s t) (h : s.Inv) : t.Inv := by
  cases ha with
  | atEnd hend => exact (h.ended hend).answer _
  | decoded bs d hr => exact (h.passed hr.open_ hr.holds).answer _
  | failedAtOpcode op hr => exact (h.passed hr.open_ hr.holds).answer _
  | failedAtModrm op m hr => exact (h.passed hr.open_ hr.holds).answer _
  | cut bs _ hr _ _ hend => exact ((h.passed hr.open_ hr.holds).ended (.inr hend)).answer _

/-- Whatever is answered, the boundary is reached again (R128). -/
theorem Answered.boundary {size : Nat} {s t : State} (ha : Answered size s t) (h : s.Boundary) : t.Boundary := by
  cases ha with
  | atEnd => exact ⟨h.used, h.serial⟩
  | decoded | failedAtOpcode | failedAtModrm | cut => exact ⟨rfl, h.serial⟩

/-- Settles O3: everything a step can answer keeps the invariants and ends at a boundary. -/
theorem stepKeepsTheCursorInvariants : Obligations.StepKeepsTheCursorInvariants := by
  unfold Obligations.StepKeepsTheCursorInvariants
  intro s t h hs
  obtain ⟨hB, size, -, ha⟩ := step_answered hs
  exact ⟨ha.inv h, ha.boundary hB⟩

/-! ## The tiling of the answers -/

theorem tile_append (a : Nat) (rs qs : List DecodeResult) : tile a (rs ++ qs) = (tile a rs).bind fun b => tile b qs := by
  induction rs generalizing a with
  | nil => rfl
  | cons r rs ih => simp only [List.cons_append, tile, ih, Option.bind_assoc]

/-- One more answer, given where the answers so far end, moves their end as `pos` is moved. -/
theorem State.Tiled.answered {s t : State} {r : DecodeResult} (h : s.Tiled) (hr : t.results = s.results ++ [r])
    (hadv : r.advance s.pos = some t.pos) : t.Tiled := by
  have hend : tile 0 s.results = some s.pos := h
  rw [State.Tiled, hr, tile_append, hend, Option.bind_some, tile, hadv]
  rfl

/-- Every answer passes exactly the bytes that were fetched for it. -/
theorem Answered.advance {size : Nat} {s t : State} (ha : Answered size s t) :
    ∃ r, t.results = s.results ++ [r] ∧ r.advance s.pos = some t.pos := by
  cases ha with
  | atEnd => exact ⟨_, rfl, rfl⟩
  | decoded bs d _ hl h2 h6 hs hn =>
    refine ⟨_, rfl, ?_⟩
    rw [DecodeResult.advance, if_pos ⟨hs, hn ▸ h2, hn ▸ h6⟩, hn, ← hl]
    rfl
  | failedAtOpcode => exact ⟨_, rfl, if_pos (.inl rfl)⟩
  | failedAtModrm => exact ⟨_, rfl, if_pos (.inr rfl)⟩
  | cut bs hne _ hl h6 =>
    have hlen : 0 < bs.length := List.length_pos_iff.mpr hne
    exact ⟨_, rfl, if_pos ⟨by omega, by omega⟩⟩

/-- Settles O6: the one answer a step adds fits where the answers before it end. -/
theorem stepKeepsTheAnswersTiled : Obligations.StepKeepsTheAnswersTiled := by
  unfold Obligations.StepKeepsTheAnswersTiled
  intro s t h hs
  obtain ⟨-, size, -, ha⟩ := step_answered hs
  obtain ⟨r, hr, hadv⟩ := ha.advance
  exact h.answered hr hadv

/-! ## The frame of `exec` and of a step -/

/-- What a request for an instruction of at most `size` bytes leaves unchanged in `s`, and what it may change (R25, R51, R128). -/
structure State.Frame (size : Nat) (s t : State) : Prop where
  src : t.src = s.src
  serial : t.serial = s.serial
  used : t.used = 8
  results : ∃ r, t.results = s.results ++ [r]
  stays : t.pos = s.pos → t.cur = s.cur ∧ t.eos = true
  posMono : s.pos ≤ t.pos
  posLe : t.pos ≤ s.pos + size
  moves : s.pos < t.pos → s.eos = false ∧ t.src.read (t.pos - 1) = some t.cur
  eos : t.eos = s.eos ∨ (t.eos = true ∧ s.src.read t.pos = none)

/-- The frame where bytes have been passed, whether or not the end was seen after them. -/
theorem State.Ready.frame {size : Nat} {s : State} {bs : List Byte} (hr : s.Ready bs) (hne : bs ≠ []) (hle : bs.length ≤ size)
    (r : DecodeResult) :
    s.Frame size ((s.passed bs).answer r) ∧
    (s.src.read (s.pos + bs.length) = none → s.Frame size (State.answer (s.passed bs).ended r)) := by
  have hlen : 0 < bs.length := List.length_pos_iff.mpr hne
  have hstays : ¬ s.pos + bs.length = s.pos := by omega
  have hlast := hr.holds.read_last hne
  exact ⟨⟨rfl, rfl, rfl, ⟨r, rfl⟩, fun h => absurd h hstays, Nat.le_add_right .., Nat.add_le_add_left hle _,
      fun _ => ⟨hr.open_, hlast⟩, .inl rfl⟩,
    fun hend => ⟨rfl, rfl, rfl, ⟨r, rfl⟩, fun h => absurd h hstays, Nat.le_add_right .., Nat.add_le_add_left hle _,
      fun _ => ⟨hr.open_, hlast⟩, .inr ⟨rfl, hend⟩⟩⟩

theorem Answered.frame {size : Nat} {s t : State} (ha : Answered size s t) (h : s.Boundary) : s.Frame size t := by
  cases ha with
  | atEnd hend =>
    refine ⟨rfl, rfl, h.used, ⟨_, rfl⟩, fun _ => ⟨rfl, rfl⟩, le_rfl, Nat.le_add_right .., fun hlt => absurd hlt (lt_irrefl _), ?_⟩
    exact hend.imp Eq.symm fun hread => ⟨rfl, hread⟩
  | decoded bs d hr hl h2 => exact (hr.frame (List.ne_nil_of_length_pos (by omega)) hl.le _).1
  | failedAtOpcode op hr hl => exact (hr.frame (List.cons_ne_nil _ _) hl.ge _).1
  | failedAtModrm op m hr hl => exact (hr.frame (List.cons_ne_nil _ _) hl.ge _).1
  | cut bs hne hr hl _ hend => exact (hr.frame hne hl.le _).2 hend

/-- Settles O16: the frame of what `exec` can answer, for the instruction's own size. -/
theorem execFrame : Obligations.ExecFrame := by
  unfold Obligations.ExecFrame
  intro i s t he
  obtain ⟨hB, ha⟩ := exec_answered he
  have hf := ha.frame hB
  exact ⟨hf.src, fun a => congrArg (·.read a) hf.src, hf.serial, hf.used, hf.results, hf.posMono, hf.posLe,
    fun h => (hf.stays h).1, fun h => (hf.moves h).2, hf.eos⟩

/-- Settles O17: the same frame for what a step can answer, with the longest instruction's size. -/
theorem stepFrame : Obligations.StepFrame := by
  unfold Obligations.StepFrame
  intro s t hs
  obtain ⟨hB, size, hsize, ha⟩ := step_answered hs
  have hf := ha.frame hB
  exact ⟨hf.src, hf.serial, hf.used, hf.results, hf.stays, hf.posMono, hf.posLe.trans (Nat.add_le_add_left hsize _), hf.moves, hf.eos⟩

/-! ## The shape of an answered descriptor -/

/-- Settles O30: only a decoded instruction is answered `Ok`, and its descriptor has the shape. -/
theorem answeredDescriptorsAreWellShaped : Obligations.AnsweredDescriptorsAreWellShaped := by
  unfold Obligations.AnsweredDescriptorsAreWellShaped
  intro s t i hs hr
  obtain ⟨-, size, -, ha⟩ := step_answered hs
  cases ha with
  | decoded bs d _ _ _ _ _ _ hw =>
    obtain rfl : d = i := by simpa using hr
    exact hw
  | atEnd | failedAtOpcode | failedAtModrm | cut => simp at hr

end Sys2Proof.Machine
end

section
/-! PROOFS. Encoding and decoding are inverse (R81, R83): the families of instructions, and one lemma per part of an encoding. -/

namespace Sys2Proof.Machine

/-! ## The families of instructions -/

/-- Every instruction belongs to one family, which the decoder builds by one function: a claim about all 35 constructors is one about
ten families. -/
theorem Instr.family_cases {motive : Instr → Prop}
    (jump : ∀ j off, motive (jumpInstr j off))
    (arithRm : ∀ o d w reg f, motive (arithRmInstr o d w reg f))
    (immRm : ∀ o s w f imm, motive (immRmInstr o s w f imm))
    (arithAcc : ∀ o w imm, motive (arithAccInstr o w imm))
    (movRm : ∀ d w reg f, motive (.movRmReg d w reg f))
    (movImm : ∀ w idx imm, motive (.movImmReg w idx imm))
    (movImmRmUnimplemented : ∀ w, motive (.movImmRmUnimplemented w))
    (movAccMemUnimplemented : ∀ d w, motive (.movAccMemUnimplemented d w))
    (badSelector : ∀ s w mod sel rm, motive (.immRmBadSelector s w mod sel rm))
    (other : ∀ op, motive (.unsupportedOpcode op)) (i : Instr) : motive i := by
  cases i with
  | je off => exact jump .je off
  | jl off => exact jump .jl off
  | jle off => exact jump .jle off
  | jb off => exact jump .jb off
  | jbe off => exact jump .jbe off
  | jp off => exact jump .jp off
  | jo off => exact jump .jo off
  | js off => exact jump .js off
  | jne off => exact jump .jne off
  | jnl off => exact jump .jnl off
  | jnle off => exact jump .jnle off
  | jnb off => exact jump .jnb off
  | jnbe off => exact jump .jnbe off
  | jnp off => exact jump .jnp off
  | jno off => exact jump .jno off
  | jns off => exact jump .jns off
  | loop off => exact jump .loop off
  | loopz off => exact jump .loopz off
  | loopnz off => exact jump .loopnz off
  | jcxz off => exact jump .jcxz off
  | addRmReg d w reg f => exact arithRm .add d w reg f
  | subRmReg d w reg f => exact arithRm .sub d w reg f
  | cmpRmReg d w reg f => exact arithRm .cmp d w reg f
  | addImmRm s w f imm => exact immRm .add s w f imm
  | subImmRm s w f imm => exact immRm .sub s w f imm
  | cmpImmRm s w f imm => exact immRm .cmp s w f imm
  | addImmAcc w imm => exact arithAcc .add w imm
  | subImmAcc w imm => exact arithAcc .sub w imm
  | cmpImmAcc w imm => exact arithAcc .cmp w imm
  | movRmReg d w reg f => exact movRm d w reg f
  | movImmReg w idx imm => exact movImm w idx imm
  | movImmRmUnimplemented w => exact movImmRmUnimplemented w
  | movAccMemUnimplemented d w => exact movAccMemUnimplemented d w
  | immRmBadSelector s w mod sel rm => exact badSelector s w mod sel rm
  | unsupportedOpcode op => exact other op

/-! ## What a family encodes to, and when it is well-formed -/

theorem encode_jumpInstr (j : JumpName) (off : Byte) : encode (jumpInstr j off) = [opJump j, off] := by cases j <;> rfl

theorem encode_immRmInstr (o : ArithOp) (s w : Bool) (f : RmForm) (imm : Imm) :
    encode (immRmInstr o s w f imm) = encodeImmRm o s w f imm := by cases o <;> rfl

theorem encode_arithAccInstr (o : ArithOp) (w : Bool) (imm : Imm) :
    encode (arithAccInstr o w imm) = opArithAcc o w :: imm.bytes := by cases o <;> rfl

theorem jumpInstr_wf (j : JumpName) (off : Byte) : (jumpInstr j off).wf = true := by cases j <;> rfl

theorem arithRmInstr_wf (o : ArithOp) (d w : Bool) (reg : BitVec 3) (f : RmForm) : (arithRmInstr o d w reg f).wf = f.wf := by
  cases o <;> rfl

theorem immRmInstr_wf (o : ArithOp) (s w : Bool) (f : RmForm) (imm : Imm) :
    (immRmInstr o s w f imm).wf = (f.wf && imm.fits (wideImmRm s w)) := by cases o <;> rfl

theorem arithAccInstr_wf (o : ArithOp) (w : Bool) (imm : Imm) : (arithAccInstr o w imm).wf = imm.fits w := by cases o <;> rfl

/-- The encoding of a well-formed instruction has the length of rules R95 to R99, from one byte to six (R9). -/
theorem encode_length {i : Instr} (h : i.wf = true) : (encode i).length = i.size ∧ 1 ≤ i.size ∧ i.size ≤ 6 := by
  cases i using Instr.family_cases with
  | jump j off => rw [encode_jumpInstr, jumpInstr_size]; exact ⟨rfl, by decide, by decide⟩
  | arithRm o d w reg f =>
    rw [arithRmInstr_wf] at h
    rw [encode_arithRmInstr, arithRmInstr_size]
    exact Laws.EncodedLength.ofRmReg _ reg h
  | immRm o s w f imm =>
    rw [immRmInstr_wf] at h
    rw [encode_immRmInstr, immRmInstr_size]
    exact Laws.EncodedLength.ofImmRm o h
  | arithAcc o w imm =>
    rw [arithAccInstr_wf] at h
    rw [encode_arithAccInstr, arithAccInstr_size]
    exact Laws.EncodedLength.ofImm _ h
  | movRm d w reg f => exact Laws.EncodedLength.movRmReg d w reg f h
  | movImm w idx imm => exact Laws.EncodedLength.movImmReg w idx imm h
  | movImmRmUnimplemented w => exact Laws.EncodedLength.movImmRmUnimplemented w h
  | movAccMemUnimplemented d w => exact Laws.EncodedLength.movAccMemUnimplemented d w h
  | badSelector s w mod sel rm => exact Laws.EncodedLength.immRmBadSelector s w mod sel rm h
  | other op => exact Laws.EncodedLength.unsupportedOpcode op h

theorem encode_ne_nil {i : Instr} (h : i.wf = true) : encode i ≠ [] := by
  obtain ⟨hlen, hsize, -⟩ := encode_length h
  exact List.ne_nil_of_length_pos (hlen ▸ hsize)

/-! ## From an instruction to its bytes and back -/

/-- The opcode byte's row decodes what comes after it. -/
theorem decode_of_row {op : Byte} {k : RowKind} {t : List Byte} {p : Instr × List Byte} (hop : classify op = k)
    (h : decodeAfter op t k = some p) : decode (op :: t) = .ok p := by
  simp only [decode, hop, h]

theorem decodeRmReg_encoded (mk : BitVec 3 → RmForm → Instr) {f : RmForm} (h : f.wf = true) (reg : BitVec 3) (t : List Byte) :
    decodeRmReg mk (f.modrm reg :: (f.dispBytes ++ t)) = some (mk reg f, t) := by
  simp only [decodeRmReg, modOf_modrm, rmOf_modrm, regOf_modrm, decodeRm_dispBytes h, Option.map_some]

theorem decodeImmRm_encoded {s w : Bool} {f : RmForm} {imm : Imm} (o : ArithOp) (hf : f.wf = true)
    (himm : imm.fits (wideImmRm s w) = true) (t : List Byte) :
    decodeImmRm s w (f.modrm o.selector :: (f.dispBytes ++ (imm.bytes ++ t))) = some (immRmInstr o s w f imm, t) := by
  have hsel : selectOp (regOf (f.modrm o.selector)) = some o := by rw [regOf_modrm, selectOp_selector]
  rw [decodeImmRm_dispBytes hsel hf (modOf_modrm f _).symm (rmOf_modrm f _).symm, decodeImm_bytes himm, Option.map_some]

/-- Decoding reads back every encoding, family by family. -/
theorem decode_encode {i : Instr} (h : i.wf = true) (rest : List Byte) : decode (encode i ++ rest) = .ok (i, rest) := by
  cases i using Instr.family_cases with
  | jump j off =>
    rw [encode_jumpInstr]
    exact decode_jump (classify_opJump j) off rest
  | arithRm o d w reg f =>
    rw [arithRmInstr_wf] at h
    rw [encode_arithRmInstr]
    refine decode_of_row (classify_opArithRm o d w) ?_
    obtain ⟨hd, hw⟩ := bitOf_opArithRm o d w
    rw [decodeAfter, hd, hw]
    exact decodeRmReg_encoded _ h reg rest
  | immRm o s w f imm =>
    rw [immRmInstr_wf, Bool.and_eq_true] at h
    obtain ⟨hf, himm⟩ := h
    rw [encode_immRmInstr, encodeImmRm, List.cons_append, List.cons_append, List.append_assoc]
    refine decode_of_row (classify_opImmRm s w) ?_
    obtain ⟨hs, hw⟩ := bitOf_opImmRm s w
    rw [decodeAfter, hs, hw]
    exact decodeImmRm_encoded o hf himm rest
  | arithAcc o w imm =>
    rw [arithAccInstr_wf] at h
    rw [encode_arithAccInstr, List.cons_append]
    refine decode_of_row (classify_opArithAcc o w) ?_
    rw [decodeAfter, bitOf_opArithAcc, decodeImm_bytes h, Option.map_some]
  | movRm d w reg f =>
    refine decode_of_row (classify_opMovRm d w) ?_
    obtain ⟨hd, hw⟩ := bitOf_opMovRm d w
    rw [decodeAfter, hd, hw]
    exact decodeRmReg_encoded _ h reg rest
  | movImm w idx imm =>
    rw [encode, List.cons_append]
    refine decode_of_row (classify_opMovImm w idx) ?_
    obtain ⟨hw, hidx⟩ := fields_opMovImm w idx
    rw [decodeAfter, hw, hidx, decodeImm_bytes h, Option.map_some]
  | movImmRmUnimplemented w =>
    refine decode_of_row (classify_opMovImmRm w) ?_
    rw [decodeAfter, bitOf_opMovImmRm]
    rfl
  | movAccMemUnimplemented d w =>
    refine decode_of_row (classify_opMovAccMem d w) ?_
    obtain ⟨hd, hw⟩ := bitOf_opMovAccMem d w
    rw [decodeAfter, hd, hw]
    rfl
  | badSelector s w mod sel rm =>
    rw [encode, List.cons_append, List.singleton_append]
    refine decode_of_row (classify_opImmRm s w) ?_
    obtain ⟨hs, hw⟩ := bitOf_opImmRm s w
    have hsel : selectOp sel = none := selectOp_none.mpr h
    simp only [decodeAfter, hs, hw, decodeImmRm, regOf_modrmByte, modOf_modrmByte, rmOf_modrmByte, hsel]
  | other op => exact decode_of_row ((classify_other op).mp h) rfl

/-- Settles O31: `decode_encode`. -/
theorem decodingReadsBackEveryEncoding : Obligations.DecodingReadsBackEveryEncoding := by
  unfold Obligations.DecodingReadsBackEveryEncoding
  exact fun _ rest h => decode_encode h rest

/-! ## From bytes to an instruction and back -/

/-- `p` is a well-formed instruction with the bytes `bs` before the rest. -/
def ReadsAs (bs : List Byte) (p : Instr × List Byte) : Prop := p.1.wf = true ∧ encode p.1 ++ p.2 = bs

theorem readsAs_of_decodeRmReg {op : Byte} {mk : BitVec 3 → RmForm → Instr} (hwf : ∀ reg f, (mk reg f).wf = f.wf)
    (henc : ∀ reg f, encode (mk reg f) = encodeRmReg op reg f) {t : List Byte} {p : Instr × List Byte}
    (h : decodeRmReg mk t = some p) : ReadsAs (op :: t) p := by
  cases t with
  | nil => cases h
  | cons m t =>
    obtain ⟨⟨f, rest⟩, hrm, rfl⟩ := Option.map_eq_some_iff.mp h
    obtain ⟨hf, hmod, hrmField, rfl⟩ := decodeRm_some hrm
    refine ⟨(hwf _ f).trans hf, ?_⟩
    rw [henc, encodeRmReg, RmForm.modrm, hmod, hrmField, modrmByte_fields]
    rfl

theorem readsAs_of_decodeImm {op : Byte} {wide : Bool} {mk : Imm → Instr} (hwf : ∀ imm, (mk imm).wf = imm.fits wide)
    (henc : ∀ imm, encode (mk imm) = op :: imm.bytes) {t : List Byte} {p : Instr × List Byte}
    (h : (decodeImm wide t).map (fun q => (mk q.1, q.2)) = some p) : ReadsAs (op :: t) p := by
  obtain ⟨⟨imm, rest⟩, himm, rfl⟩ := Option.map_eq_some_iff.mp h
  obtain ⟨hfits, rfl⟩ := decodeImm_some himm
  exact ⟨(hwf imm).trans hfits, congrArg (· ++ rest) (henc imm)⟩

theorem readsAs_of_decodeImmRm {s w : Bool} {t : List Byte} {p : Instr × List Byte} (h : decodeImmRm s w t = some p) :
    ReadsAs (opImmRm s w :: t) p := by
  cases t with
  | nil => cases h
  | cons m t =>
    cases hsel : selectOp (regOf m) with
    | none =>
      obtain rfl : _ = p := by simpa [decodeImmRm, hsel] using h
      refine ⟨selectOp_none.mp hsel, ?_⟩
      rw [encode, modrmByte_fields]
      rfl
    | some o =>
      simp only [decodeImmRm, hsel] at h
      obtain ⟨⟨f, u⟩, hrm, h⟩ := Option.bind_eq_some_iff.mp h
      obtain ⟨⟨imm, rest⟩, himm, rfl⟩ := Option.map_eq_some_iff.mp h
      obtain ⟨hf, hmod, hrmField, rfl⟩ := decodeRm_some hrm
      obtain ⟨hfits, hu⟩ := decodeImm_some himm
      refine ⟨by rw [immRmInstr_wf, hf, hfits, Bool.and_self], ?_⟩
      rw [encode_immRmInstr, encodeImmRm, RmForm.modrm, hmod, hrmField, selectOp_some hsel, modrmByte_fields, List.cons_append,
        List.cons_append, List.append_assoc, ← hu]

/-- Whatever the row, what is decoded after its opcode byte reads as the bytes that were there. -/
theorem readsAs_of_decodeAfter {op : Byte} {t : List Byte} {p : Instr × List Byte}
    (h : decodeAfter op t (classify op) = some p) : ReadsAs (op :: t) p := by
  have hop := rebuildOpcode_classify op
  have hother := (classify_other op).mpr
  generalize classify op = k at h hop hother
  cases k with
  | jump j =>
    rw [rebuildOpcode] at hop
    cases t with
    | nil => cases h
    | cons off t =>
      cases h
      exact ⟨jumpInstr_wf j off, by rw [encode_jumpInstr, hop]; rfl⟩
  | arithRm o =>
    rw [rebuildOpcode] at hop
    exact readsAs_of_decodeRmReg (arithRmInstr_wf o _ _) (fun reg f => by rw [encode_arithRmInstr, hop]) h
  | movRm =>
    rw [rebuildOpcode] at hop
    exact readsAs_of_decodeRmReg (fun _ _ => rfl) (fun reg f => by rw [encode, hop]) h
  | immRm =>
    rw [rebuildOpcode] at hop
    exact hop ▸ readsAs_of_decodeImmRm h
  | arithAcc o =>
    rw [rebuildOpcode] at hop
    exact readsAs_of_decodeImm (arithAccInstr_wf o _) (fun imm => by rw [encode_arithAccInstr, hop]) h
  | movImm =>
    rw [rebuildOpcode] at hop
    exact readsAs_of_decodeImm (fun _ => rfl) (fun imm => by rw [encode, hop]) h
  | movImmRmUnimplemented | movAccMemUnimplemented =>
    rw [rebuildOpcode] at hop
    cases h
    exact ⟨rfl, by rw [encode, hop]; rfl⟩
  | other =>
    cases h
    exact ⟨hother rfl, rfl⟩

/-- What is decoded reads as the bytes it was decoded from. -/
theorem readsAs_of_decode {bs : List Byte} {p : Instr × List Byte} (h : decode bs = .ok p) : ReadsAs bs p := by
  cases bs with
  | nil => cases h
  | cons op t =>
    cases hafter : decodeAfter op t (classify op) with
    | none => simp [decode, hafter] at h
    | some q =>
      obtain rfl : q = p := by simpa [decode, hafter] using h
      exact readsAs_of_decodeAfter hafter

/-- Settles O32: `readsAs_of_decode`. -/
theorem decodedInstructionsReencodeToTheirBytes : Obligations.DecodedInstructionsReencodeToTheirBytes := by
  unfold Obligations.DecodedInstructionsReencodeToTheirBytes
  exact fun _ _ _ h => readsAs_of_decode h

/-! ## Where decoding stops (R130, R254) -/

/-- Six bytes are enough for every instruction. -/
theorem exists_decode_of_six_le {bs : List Byte} (h : 6 ≤ bs.length) : ∃ p, decode bs = .ok p := by
  cases hd : decode bs with
  | ok p => exact ⟨p, rfl⟩
  | error stop =>
    cases stop with
    | noByte => simp [decode_noByte.mp hd] at h
    | cut n =>
      obtain ⟨-, -, hle⟩ := decode_cut hd
      omega

/-- Bytes that end inside an instruction begin the encoding of a longer one: with six bytes added something is decoded, and it has
not ended before, for then it would have been decoded without them. -/
theorem exists_completion_of_cut {bs : List Byte} {n : Nat} (h : decode bs = .error (.cut n)) :
    ∃ more i, i.wf = true ∧ encode i = bs ++ more ∧ bs.length < i.size := by
  obtain ⟨⟨i, rest⟩, hd⟩ := exists_decode_of_six_le (bs := bs ++ List.replicate 6 0) (by simp)
  obtain ⟨hwf, henc⟩ := readsAs_of_decode hd
  rcases List.append_eq_append_iff.mp henc with ⟨r, rfl, -⟩ | ⟨more, hmore, -⟩
  · cases h.symm.trans (decode_encode hwf r)
  · have hne : more ≠ [] := by
      rintro rfl
      rw [List.append_nil] at hmore
      have hok : decode (encode i ++ []) = .ok (i, []) := decode_encode hwf []
      rw [List.append_nil, hmore, h] at hok
      cases hok
    have hlen : 0 < more.length := List.length_pos_iff.mpr hne
    obtain ⟨hsize, -, -⟩ := encode_length hwf
    exact ⟨more, i, hwf, hmore, by rw [← hsize, hmore, List.length_append]; omega⟩

/-- Settles O33: `decode_noByte`, `decode_cut` and `exists_completion_of_cut`. -/
theorem decodingStopsOnlyForWantOfBytes : Obligations.DecodingStopsOnlyForWantOfBytes := by
  unfold Obligations.DecodingStopsOnlyForWantOfBytes
  refine fun bs => ⟨decode_noByte, fun n h => ?_⟩
  obtain ⟨rfl, hne, hle⟩ := decode_cut h
  obtain ⟨more, i, hwf, henc, hlt⟩ := exists_completion_of_cut h
  have hdecode : decode (encode i ++ []) = .ok (i, []) := decode_encode hwf []
  rw [List.append_nil, henc] at hdecode
  exact ⟨rfl, List.length_pos_iff.mpr hne, hle, more, i, hdecode, hlt⟩

/-! ## The opcode map, row by row -/

/-- Settles O34: each entry is a jump's own opcode byte, which `decode_jump` reads. -/
theorem jumpTableBytes : Obligations.JumpTableBytes := by
  unfold Obligations.JumpTableBytes
  intro off rest p hp
  obtain ⟨j, -, rfl⟩ : ∃ j ∈ ([.jo, .jno, .jb, .jnb, .je, .jne, .jbe, .jnbe, .js, .jns, .jp, .jnp, .jl, .jnl, .jle, .jnle, .loopnz,
      .loopz, .loop, .jcxz] : List JumpName), (opJump j, jumpInstr j off) = p := List.mem_map.mp hp
  exact decode_jump (classify_opJump j) off rest

/-- Settles O35: each string is the encoding of the instruction it stands for. -/
theorem writtenOutWordsDecode : Obligations.WrittenOutWordsDecode := by
  unfold Obligations.WrittenOutWordsDecode
  exact ⟨decode_encode (i := .movRmReg false true 0b011 (.register 0b001)) rfl [], decode_encode (i := .jne 0xFE) rfl [],
    decode_encode (i := .movImmReg true 0b000 (.word 0x0005)) rfl [], decode_encode (i := .unsupportedOpcode 0xF6) rfl [],
    decode_encode (i := .subRmReg true true 0b001 (.direct 0x1000)) rfl [],
    decode_encode (i := .cmpImmRm true true (.indirect8 0b110 0x04) (.byte 0x80)) rfl [],
    decode_encode (i := .subImmAcc true (.word 0x8000)) rfl []⟩

/-- Settles O36: by evaluation over the 256 opcode bytes. -/
theorem noTwoRowsAcceptOneByte : Obligations.NoTwoRowsAcceptOneByte := by
  unfold Obligations.NoTwoRowsAcceptOneByte
  decide

end Sys2Proof.Machine
end

section
/-! PROOFS. What one request is answered (R120, R121, R130, R251, R254): the step is the meaning of what the stream holds, the clean
end, or a truncation. -/

namespace Sys2Proof.Machine

/-! ## Reset (R43, R280) -/

/-- A stream bound at reset, at its first byte, satisfies the cursor invariants. -/
theorem State.inv_boot (bs : List Byte) : (State.boot bs).Inv where
  srcWf := Memory.wf_ofBytes bs
  usedLe := le_rfl
  posLe := Nat.zero_le _
  eosAtEnd h := by cases h
  curIsLast h := absurd h (lt_irrefl 0)

/-- Settles O1: the fields of `boot`, of which `reset` is the one with no byte, and the bytes of the bound stream. -/
theorem resetStandsAtABoundaryAtOffsetZero : Obligations.ResetStandsAtABoundaryAtOffsetZero := by
  unfold Obligations.ResetStandsAtABoundaryAtOffsetZero
  exact ⟨⟨rfl, rfl⟩, rfl, rfl, rfl, fun bs => ⟨⟨rfl, rfl⟩, rfl, rfl, Memory.read_ofBytes bs⟩⟩

/-- Settles O2: `inv_boot`, and the empty list of answers ends at offset 0. -/
theorem resetSatisfiesTheCursorInvariants : Obligations.ResetSatisfiesTheCursorInvariants := by
  unfold Obligations.ResetSatisfiesTheCursorInvariants
  exact ⟨State.inv_boot [], rfl, fun bs => ⟨State.inv_boot bs, rfl⟩⟩

/-! ## The three things a step does -/

/-- Settles O9: one equation of the step per clause. -/
theorem stepRunsTheDecodedInstruction : Obligations.StepRunsTheDecodedInstruction := by
  unfold Obligations.StepRunsTheDecodedInstruction
  exact fun s => ⟨fun _ _ => step_ok, fun h => step_atEnd (State.window_nil.mp (decode_noByte.mp h)), fun _ => step_cut⟩

/-- Settles O8: the request faults, and the step as it does. -/
theorem requestOffTheBoundaryFaults : Obligations.RequestOffTheBoundaryFaults := by
  unfold Obligations.RequestOffTheBoundaryFaults
  exact fun s => ⟨fun hserial => step_fault (openRequest_serial hserial),
    fun hserial hused => step_fault (openRequest_fault hserial hused)⟩

/-- Settles O10: the window begins with the encoding, which decodes to the instruction. -/
theorem stepExecutesTheEncodedInstruction : Obligations.StepExecutesTheEncodedInstruction := by
  unfold Obligations.StepExecutesTheEncodedInstruction
  intro i s hwf hr
  obtain ⟨hlen, -, hsize⟩ := encode_length hwf
  have hwindow := State.window_of_holds hr.open_ hr.holds (hlen.trans_le hsize)
  exact step_ok (hwindow ▸ decode_encode hwf _)

/-! ## At a boundary every request is answered (R130) -/

section
variable {s : State} (h : s.Boundary)
include h

/-- At a boundary the request finds no byte, or fetches the opcode byte. -/
theorem State.Boundary.openRequest_cases :
    openRequest s = .fail .endOfStream s.ended ∨
    (s.eos = false ∧ ∃ b, s.src.read s.pos = some b ∧ openRequest s = .ok s.pos (s.receive (.byte b))) := by
  rcases Machine.openRequest_cases s with ⟨hs, -⟩ | ⟨-, hu, -⟩ | ⟨-, -, ho⟩ | ⟨-, hbyte⟩
  · exact absurd h.serial hs
  · exact absurd h.used hu
  · exact .inl ho
  · exact .inr hbyte

/-- Past the opcode byte the bytes are all there or the stream ends: no fault is left. -/
theorem retire_next_of_boundary (len : Nat) (mk : Nat → Instruction) : ∃ t, retire len mk s = .next t := by
  rcases h.openRequest_cases with ho | ⟨hopen, b, -, ho⟩
  · exact ⟨_, by rw [retire, ho, Walk.bind_fail, finish_fail]⟩
  · rw [retire, ho, Walk.bind_ok, take8_fresh b hopen, Walk.bind_ok]
    rcases skip_cases (s := s.passed [b]) (len - 1) rfl hopen with ⟨bs, -, -, hsk⟩ | ⟨bs, -, -, -, hsk⟩
    · exact ⟨_, by rw [hsk, Walk.bind_ok, finish_ok]⟩
    · exact ⟨_, by rw [hsk, Walk.bind_fail, finish_fail]⟩

theorem failAtOpcode_next_of_boundary : ∃ t, failAtOpcode s = .next t := by
  rcases h.openRequest_cases with ho | ⟨hopen, b, hb, -⟩
  · exact ⟨_, by rw [failAtOpcode, ho, Walk.bind_fail, finish_fail]⟩
  · exact ⟨_, failAtOpcode_ready ⟨h, hopen, State.holds_singleton hb⟩⟩

theorem failAtModrm_next_of_boundary : ∃ t, failAtModrm s = .next t := by
  rcases h.openRequest_cases with ho | ⟨hopen, b, hb, ho⟩
  · exact ⟨_, by rw [failAtModrm, ho, Walk.bind_fail, finish_fail]⟩
  · rw [failAtModrm, ho, Walk.bind_ok, take8_fresh b hopen, Walk.bind_ok]
    cases hm : s.src.read (s.pos + 1) with
    | none => exact ⟨_, by rw [needByte_missing (s := s.passed [b]) rfl (.inr hm), Walk.bind_fail, finish_fail]⟩
    | some m => exact ⟨_, by rw [needByte_byte (s := s.passed [b]) rfl hopen hm, Walk.bind_ok, unsupported, finish_fail]⟩

theorem exec_next_of_boundary (i : Instr) : ∃ t, exec i s = .next t := by
  cases i
  case movImmRmUnimplemented | movAccMemUnimplemented | unsupportedOpcode => exact failAtOpcode_next_of_boundary h
  case immRmBadSelector => exact failAtModrm_next_of_boundary h
  all_goals exact retire_next_of_boundary h _ _

theorem step_next_of_boundary : ∃ t, step s = .next t := by
  cases hd : decode s.window with
  | ok p =>
    rw [step_ok hd]
    exact exec_next_of_boundary h p.1
  | error stop =>
    cases stop with
    | noByte =>
      have hend := State.window_nil.mp (decode_noByte.mp hd)
      exact ⟨_, (step_atEnd hend).trans (endOfStream_atEnd h hend)⟩
    | cut n => exact ⟨_, step_cut_boundary h hd⟩

end

/-- Settles O7: a next state exists, and it is one that a step can answer. -/
theorem requestAtABoundaryIsAlwaysAnswered : Obligations.RequestAtABoundaryIsAlwaysAnswered := by
  unfold Obligations.RequestAtABoundaryIsAlwaysAnswered
  intro s h
  obtain ⟨t, hs⟩ := step_next_of_boundary h
  obtain ⟨-, size, -, ha⟩ := step_answered hs
  obtain ⟨r, hr⟩ := (ha.frame h).results
  exact ⟨t, r, hs, ha.boundary h, hr⟩

/-! ## The clean end (R121, R251) -/

theorem step_noByte {s : State} (h : s.Boundary) (hend : s.eos = true ∨ s.src.read s.pos = none) :
    step s = .next (State.answer s.ended (.fail .endOfStream)) :=
  (step_atEnd hend).trans (endOfStream_atEnd h hend)

/-- Settles O11: `step_noByte`, and of what a step can answer only the clean end is `EndOfStream`. -/
theorem endOfStreamIsAnsweredExactlyWhenNoByteIsPending : Obligations.EndOfStreamIsAnsweredExactlyWhenNoByteIsPending := by
  unfold Obligations.EndOfStreamIsAnsweredExactlyWhenNoByteIsPending
  refine fun s h => ⟨step_noByte h, fun t hs hr => ?_⟩
  obtain ⟨-, size, -, ha⟩ := step_answered hs
  cases ha with
  | atEnd hend => exact hend
  | decoded | failedAtOpcode | failedAtModrm | cut => simp at hr

/-- Once the end has been seen, a request adds its answer and changes nothing else (D6). -/
theorem step_eos {s : State} (h : s.Boundary) (heos : s.eos = true) : step s = .next (s.answer (.fail .endOfStream)) := by
  rw [step_noByte h (.inl heos), State.ended_eq heos]

/-- Settles O12: by induction on the number of requests, one `step_eos` each. -/
theorem endOfStreamStaysSet : Obligations.EndOfStreamStaysSet := by
  unfold Obligations.EndOfStreamStaysSet
  intro k
  induction k with
  | zero =>
    intro s _ _
    rw [run_zero, List.replicate_zero, List.append_nil]
  | succ k ih =>
    intro s h heos
    have hrest := ih (s.answer (.fail .endOfStream)) ⟨h.used, h.serial⟩ heos
    rw [run_succ k (step_eos h heos), hrest, State.answer_results, List.append_assoc, List.replicate_succ, List.singleton_append]
    rfl

/-! ## A stream that ends inside an instruction (R254, R255) -/

/-- Settles O13: the window is exactly the bytes that are there, and the step cuts it short. -/
theorem truncatedInstructionIsMalformed : Obligations.TruncatedInstructionIsMalformed := by
  unfold Obligations.TruncatedInstructionIsMalformed
  intro s bs n hr hcut hend
  obtain ⟨-, -, hle⟩ := decode_cut hcut
  have hafter : s.src.bytesAt (s.pos + bs.length) (6 - bs.length) = [] := by
    rw [show 6 - bs.length = (5 - bs.length) + 1 by omega, Memory.bytesAt, hend]
  have hwindow : s.window = bs := by
    rw [State.window_of_holds hr.open_ hr.holds (by omega), hafter, List.append_nil]
  rw [step_cut_boundary hr.boundary (hwindow.symm ▸ hcut), hwindow]

end Sys2Proof.Machine
end

section
/-! PROOFS. The meaning of an instruction, family by family: what it answers where its bytes stand whole (R161, R192, R193) and where
the stream ends inside them (R254). -/

namespace Sys2Proof.Machine

/-! ## Where the stream ends inside the instruction -/

theorem retiring_immRmInstr (o : ArithOp) (s w : Bool) (f : RmForm) (imm : Imm) : Retiring (immRmInstr o s w f imm) :=
  ⟨by rw [immRmInstr_size]; omega, _, exec_immRmInstr o s w f imm⟩

/-- A proper part `bs` of an instruction, and then the end: it is consumed, the end is seen, and the missing byte's offset answered. -/
def CutAfter (i : Instr) (s : State) (bs : List Byte) : Prop :=
  exec i s = .next (State.answer (s.passed bs).ended (.fail (.malformedStream (s.pos + bs.length))))

theorem Retiring.cutAfter {i : Instr} (hi : Retiring i) {s : State} {bs : List Byte} (hr : s.Ready bs) (hne : bs ≠ [])
    (hlt : bs.length < i.size) (hend : s.src.read (s.pos + bs.length) = none) : CutAfter i s bs := by
  obtain ⟨-, mk, hexec⟩ := hi
  exact (hexec s).trans (retire_cut mk hr hne hlt hend)

/-- A failing selector is cut only before its ModRM byte. -/
theorem immRmBadSelector_cutAfter (sx w : Bool) (mod : BitVec 2) (sel rm : BitVec 3) {s : State} {bs : List Byte} (hr : s.Ready bs)
    (hne : bs ≠ []) (hlt : bs.length < 2) (hend : s.src.read (s.pos + bs.length) = none) :
    CutAfter (.immRmBadSelector sx w mod sel rm) s bs := by
  have hlen : 0 < bs.length := List.length_pos_iff.mpr hne
  obtain ⟨op, rfl⟩ := List.length_eq_one_iff.mp (show bs.length = 1 by omega)
  exact failAtModrm_cut hr hend

/-- Every family retires its bytes but the failing selector and the one-byte rows, which have no proper part. -/
theorem exec_cutAfter (i : Instr) {s : State} {bs : List Byte} (hr : s.Ready bs) (hne : bs ≠ []) (hlt : bs.length < i.size)
    (hend : s.src.read (s.pos + bs.length) = none) : CutAfter i s bs := by
  have hlen : 0 < bs.length := List.length_pos_iff.mpr hne
  cases i using Instr.family_cases with
  | jump j off => exact (retiring_jumpInstr j off).cutAfter hr hne hlt hend
  | arithRm o d w reg f => exact (retiring_arithRmInstr o d w reg f).cutAfter hr hne hlt hend
  | immRm o sx w f imm => exact (retiring_immRmInstr o sx w f imm).cutAfter hr hne hlt hend
  | arithAcc o w imm => exact (retiring_arithAccInstr o w imm).cutAfter hr hne hlt hend
  | movRm d w reg f => exact (retiring_movRmReg d w reg f).cutAfter hr hne hlt hend
  | movImm w idx imm => exact (retiring_movImmReg w idx imm).cutAfter hr hne hlt hend
  | badSelector sx w mod sel rm => exact immRmBadSelector_cutAfter sx w mod sel rm hr hne hlt hend
  | movImmRmUnimplemented | movAccMemUnimplemented | other =>
    have hone : bs.length < 1 := hlt
    omega

/-- Settles O14: the first `k` bytes of the encoding are a proper part of the instruction. -/
theorem truncatedExecutionIsMalformed : Obligations.TruncatedExecutionIsMalformed := by
  unfold Obligations.TruncatedExecutionIsMalformed
  intro i s k hwf hk hlt hr hend
  obtain ⟨hsize, -, -⟩ := encode_length hwf
  have htake : ((encode i).take k).length = k := List.length_take_of_le hlt.le
  have hcut := exec_cutAfter i hr (List.ne_nil_of_length_pos (htake.symm ▸ hk)) (by rwa [htake, ← hsize]) (by rwa [htake])
  rw [CutAfter, htake] at hcut
  exact hcut

/-! ## Where the bytes stand whole -/

/-- A jump or loop answers its offset (R161). -/
theorem jumpInstr_retires (j : JumpName) (off : Byte) : Retires (jumpInstr j off) (jumpDescriptor j (opJump j) off) := by
  refine retires_of_exec_eq_retire (fun s => ?_) ?_ ?_
  · rw [jumpInstr_size, exec_jumpInstr]
  · rw [encode_jumpInstr, jumpInstr_size]
    rfl
  · rw [jumpInstr_size]
    decide

/-- Settles O18: the rows of the statement are those of the jump table, whose opcode bytes are the jumps' own. -/
theorem jumpsAndLoopsAnswerTheirOffset : Obligations.JumpsAndLoopsAnswerTheirOffset := by
  unfold Obligations.JumpsAndLoopsAnswerTheirOffset
  intro p hp off
  obtain ⟨j, -, rfl⟩ : ∃ j ∈ jumpTable.map Prod.snd, (j, opJump j, jumpInstr j) = p := List.mem_map.mp hp
  exact ⟨encode_jumpInstr j off, jumpInstr_retires j off⟩

/-- Whatever the operation, an encodable F-IRM form answers its operand and the widened immediate (R192). -/
theorem immRmInstr_retires (o : ArithOp) {sx w : Bool} {f : RmForm} {imm : Imm} (hf : f.wf = true)
    (himm : imm.fits (wideImmRm sx w) = true) :
    Retires (immRmInstr o sx w f imm)
      (immRmDescriptor o (opImmRm sx w) sx w f.modField o.selector f.rmField (RmForm.displacement f) (immRmValue sx imm)) := by
  obtain ⟨hlen, hsize, -⟩ := encode_length (i := immRmInstr o sx w f imm) (by rw [immRmInstr_wf, hf, himm, Bool.and_self])
  exact retires_of_exec_eq_retire (exec_immRmInstr o sx w f imm) hlen hsize

/-- Whatever the operation, an F-IA form whose immediate fits answers it with no sign extension (R193). -/
theorem arithAccInstr_retires (o : ArithOp) {w : Bool} {imm : Imm} (himm : imm.fits w = true) :
    Retires (arithAccInstr o w imm) (immAccDescriptor o (opArithAcc o w) w (immValue imm)) := by
  obtain ⟨hlen, hsize, -⟩ := encode_length (i := arithAccInstr o w imm) (by rw [arithAccInstr_wf, himm])
  exact retires_of_exec_eq_retire (exec_arithAccInstr o w imm) hlen hsize

/-- The three operations in the order in which the statements list them. -/
def arithOps : List ArithOp := [.add, .sub, .cmp]

/-- The immediate of R102: two bytes when `s = 0` and `w = 1`, and otherwise one, widened as `s` says. -/
theorem immRm_immediate {sx w : Bool} {v : Word} {imm : Imm}
    (h : (sx = false ∧ w = true ∧ imm = .word v) ∨
      ((sx = true ∨ w = false) ∧ ∃ b, imm = .byte b ∧ v = if sx then sext16 b else zext16 b)) :
    imm.fits (wideImmRm sx w) = true ∧ immRmValue sx imm = v := by
  rcases h with ⟨rfl, rfl, rfl⟩ | ⟨hnarrow, b, rfl, rfl⟩
  · exact ⟨rfl, rfl⟩
  · refine ⟨?_, rfl⟩
    rcases hnarrow with rfl | rfl
    · rfl
    · cases sx <;> rfl

/-- Settles O20: `immRmInstr_retires` for each operation; the length of R98 written out is `nimm`. -/
theorem arithmeticWithAnImmediateAnswersTheWidenedImmediate : Obligations.ArithmeticWithAnImmediateAnswersTheWidenedImmediate := by
  unfold Obligations.ArithmeticWithAnImmediateAnswersTheWidenedImmediate
  intro p hp sx w f v imm hf himm
  obtain ⟨o, -, rfl⟩ : ∃ o ∈ arithOps, (o, o.selector, immRmInstr o) = p := List.mem_map.mp hp
  obtain ⟨hfits, rfl⟩ := immRm_immediate himm
  have hnimm : (if sx = false ∧ w = true then 2 else 1) = nimm sx w := by cases sx <;> cases w <;> rfl
  rw [hnimm]
  exact immRmInstr_retires o hf hfits

/-- Settles O21: `arithAccInstr_retires` for each operation, for a word and for a byte. -/
theorem arithmeticWithTheAccumulatorAnswersTheImmediate : Obligations.ArithmeticWithTheAccumulatorAnswersTheImmediate := by
  unfold Obligations.ArithmeticWithTheAccumulatorAnswersTheImmediate
  intro p hp w v imm himm
  obtain ⟨o, -, rfl⟩ : ∃ o ∈ arithOps, (o, o.selector, arithAccInstr o) = p := List.mem_map.mp hp
  rcases himm with ⟨rfl, rfl⟩ | ⟨rfl, b, rfl, rfl⟩
  · exact arithAccInstr_retires o rfl
  · exact arithAccInstr_retires o rfl

end Sys2Proof.Machine
end

section
/-! PROOFS. The byte-serial machine (R125, R126): each request keeps the cursor, each brings the machine nearer to `S_OPCODE`, and a
whole walk is one step. -/

namespace Sys2Proof.Machine

/-! ## What the machine does with a byte in hand -/

/-- `t` is `s` with another byte-serial state or further answers: the stream and the cursor are the same. -/
structure State.SameCursor (s t : State) : Prop where
  src : t.src = s.src
  cur : t.cur = s.cur
  used : t.used = s.used
  eos : t.eos = s.eos
  pos : t.pos = s.pos

theorem State.sameCursor_goto (s : State) (st : SerialState) : s.SameCursor (s.goto st) := ⟨rfl, rfl, rfl, rfl, rfl⟩

theorem State.sameCursor_emit (s : State) (r : DecodeResult) : s.SameCursor (s.emit r) := ⟨rfl, rfl, rfl, rfl, rfl⟩

theorem State.Inv.of_sameCursor {s t : State} (h : s.Inv) (hc : s.SameCursor t) : t.Inv where
  srcWf := hc.src ▸ h.srcWf
  usedLe := hc.used ▸ h.usedLe
  posLe := by rw [hc.pos, hc.src]; exact h.posLe
  eosAtEnd := by rw [hc.eos, hc.pos, hc.src]; exact h.eosAtEnd
  curIsLast := by rw [hc.pos, hc.src, hc.cur]; exact h.curIsLast

/-- How many more bytes the instruction in progress can need: the place of a state in the longest walk (R126). -/
def SerialState.rank : SerialState → Nat
  | .opcode => 0
  | .jumpOffset _ _ _ => 1
  | .immHi _ _ => 1
  | .immLo _ => 2
  | .dispHi _ _ => 3
  | .dispLo _ => 4
  | .modrm _ _ _ => 5

theorem SerialState.rank_le (st : SerialState) : st.rank ≤ 5 := by cases st <;> simp [SerialState.rank]

theorem SerialState.rank_pos {st : SerialState} (h : st ≠ .opcode) : 0 < st.rank := by
  cases st with
  | opcode => exact absurd rfl h
  | jumpOffset | immHi | immLo | dispHi | dispLo | modrm => exact Nat.succ_pos _

/-- What a row of R125 leaves of `s`: the cursor, and a byte-serial state that needs at most `n` bytes more. -/
structure State.Advances (n : Nat) (s t : State) : Prop where
  cursor : s.SameCursor t
  rank : t.serial.rank ≤ n

theorem State.advances_goto {n : Nat} (s : State) {st : SerialState} (h : st.rank ≤ n) : s.Advances n (s.goto st) :=
  ⟨s.sameCursor_goto st, h⟩

theorem State.advances_emit (n : Nat) (s : State) (r : DecodeResult) : s.Advances n (s.emit r) := ⟨s.sameCursor_emit r, Nat.zero_le n⟩

theorem State.Advances.mono {n k : Nat} {s t : State} (h : s.Advances n t) (hle : n ≤ k) : s.Advances k t :=
  ⟨h.cursor, h.rank.trans hle⟩

theorem serialOpcode_advances (b : Byte) (s : State) : s.Advances 5 (serialOpcode b s) := by
  unfold serialOpcode
  cases classify b with
  | jump | arithRm | movRm | immRm | arithAcc | movImm => exact s.advances_goto (SerialState.rank_le _)
  | movImmRmUnimplemented | movAccMemUnimplemented | other => exact s.advances_emit 5 _

theorem serialDisp_advances (m : ModrmLatch) (disp : Displacement) (s : State) : s.Advances 2 (serialDisp m disp s) := by
  unfold serialDisp
  cases m.kind with
  | arith | mov => exact s.advances_emit 2 _
  | imm sx w =>
    cases hsel : selectOp m.reg with
    | none => exact s.advances_emit 2 _
    | some o => exact s.advances_goto le_rfl

/-- The latches of R32 after the ModRM byte. -/
def ModrmLatch.ofByte (start : Nat) (op : Byte) (kind : RmKind) (b : Byte) : ModrmLatch :=
  ⟨start, op, kind, modOf b, regOf b, rmOf b⟩

theorem serialModrm_eq (start : Nat) (op : Byte) (kind : RmKind) (b : Byte) (s : State) :
    serialModrm start op kind b s =
      if selectorFails kind (regOf b) then s.emit (.fail (.unsupportedEncoding (s.pos - 1) b))
      else if 0 < ndisp (modOf b) (rmOf b) then s.goto (.dispLo (.ofByte start op kind b))
      else serialDisp (.ofByte start op kind b) .none s := rfl

theorem serialModrm_advances (start : Nat) (op : Byte) (kind : RmKind) (b : Byte) (s : State) :
    s.Advances 4 (serialModrm start op kind b s) := by
  rw [serialModrm_eq]
  split
  · exact s.advances_emit 4 _
  · split
    · exact s.advances_goto le_rfl
    · exact (serialDisp_advances _ _ s).mono (by decide)

/-- Inside a walk a byte brings the machine nearer to `S_OPCODE`: "no state is visited twice in one walk" (R126). -/
theorem serialByte_advances (b : Byte) {s : State} (h : s.serial ≠ .opcode) : s.Advances (s.serial.rank - 1) (serialByte b s) := by
  unfold serialByte
  cases hst : s.serial with
  | opcode => exact absurd hst h
  | jumpOffset | immHi => exact s.advances_emit _ _
  | modrm => exact serialModrm_advances ..
  | dispHi => exact serialDisp_advances ..
  | dispLo m =>
    simp only []
    split
    · exact s.advances_goto le_rfl
    · exact (serialDisp_advances ..).mono (show 2 ≤ 3 by decide)
  | immLo l =>
    simp only []
    split
    · exact s.advances_goto le_rfl
    · exact s.advances_emit _ _

theorem serialByte_sameCursor (b : Byte) (s : State) : s.SameCursor (serialByte b s) := by
  by_cases h : s.serial = .opcode
  · have hrow : serialByte b s = serialOpcode b s := by rw [serialByte, h]
    exact hrow ▸ (serialOpcode_advances b s).cursor
  · exact (serialByte_advances b h).cursor

/-- Where the source has ended every row emits (R125). -/
theorem serialEnd_eq (s : State) :
    serialEnd s = s.emit (.fail (if s.serial = .opcode then .endOfStream else .malformedStream s.pos)) := by
  cases s with
  | mk src cur used eos pos serial results => cases serial <;> rfl

/-! ## One byte request -/

/-- With a byte at `pos`, it is latched, consumed and handled by its row. -/
theorem serialStep_byte {s : State} {b : Byte} (hused : s.used = 8) (hopen : s.eos = false) (hb : s.src.read s.pos = some b) :
    serialStep s = .next (serialByte b (s.passed [b])) := by
  have heos : (s.receive (.byte b)).eos = false := hopen
  rw [serialStep, advanceByte_byte hused hopen hb]
  exact if_neg (Bool.eq_false_iff.mp heos)

/-- Without a byte at `pos` the end is seen and the row emits. -/
theorem serialStep_atEnd {s : State} (hused : s.used = 8) (hend : s.eos = true ∨ s.src.read s.pos = none) :
    serialStep s = .next (serialEnd s.ended) := by
  cases heos : s.eos with
  | true =>
    rw [serialStep, advanceByte_eos hused heos, State.ended_eq heos]
    simp only [heos, if_true]
  | false =>
    have hread : s.src.read s.pos = none := by simpa [heos] using hend
    rw [serialStep, advanceByte_atEnd hused heos hread]
    rfl

theorem serialStep_fault {s : State} (h : s.used ≠ 8) : serialStep s = .fault .advanceWithUnreadBits := by
  rw [serialStep, advanceByte_fault h]

/-- Everything a byte request can give. -/
theorem serialStep_next {s t : State} (h : serialStep s = .next t) :
    ((s.eos = true ∨ s.src.read s.pos = none) ∧ t = serialEnd s.ended) ∨
    (s.eos = false ∧ ∃ b, s.src.read s.pos = some b ∧ t = serialByte b (s.passed [b])) := by
  rcases advanceByte_cases s with ⟨hused, -⟩ | ⟨hused, heos, -⟩ | ⟨hused, hopen, b, hb, -⟩ | ⟨hused, -, hread, -⟩
  · cases (serialStep_fault hused).symm.trans h
  · cases (serialStep_atEnd hused (.inl heos)).symm.trans h
    exact .inl ⟨.inl heos, rfl⟩
  · cases (serialStep_byte hused hopen hb).symm.trans h
    exact .inr ⟨hopen, b, hb, rfl⟩
  · cases (serialStep_atEnd hused (.inr hread)).symm.trans h
    exact .inl ⟨.inr hread, rfl⟩

/-- Settles O4: the byte or the end is received as by `advance_byte`, and the row of R125 leaves the cursor alone. -/
theorem byteRequestKeepsTheCursorInvariants : Obligations.ByteRequestKeepsTheCursorInvariants := by
  unfold Obligations.ByteRequestKeepsTheCursorInvariants
  intro s t h hs
  rcases serialStep_next hs with ⟨hend, rfl⟩ | ⟨hopen, b, hb, rfl⟩
  · rw [serialEnd_eq]
    exact (h.ended hend).of_sameCursor (State.sameCursor_emit _ _)
  · exact (h.passed hopen (State.holds_singleton hb)).of_sameCursor (serialByte_sameCursor b _)

/-- A byte request inside a walk lowers the rank. -/
theorem serialStep_rank {s t : State} (h : serialStep s = .next t) (hst : s.serial ≠ .opcode) :
    t.serial.rank ≤ s.serial.rank - 1 := by
  rcases serialStep_next h with ⟨-, rfl⟩ | ⟨-, b, -, rfl⟩
  · rw [serialEnd_eq]
    exact Nat.zero_le _
  · exact (serialByte_advances b (s := s.passed [b]) hst).rank

/-! ## A walk ends in `S_OPCODE` (R126) -/

theorem serialWalk_opcode {s : State} (h : s.serial = .opcode) (n : Nat) : serialWalk n s = .next s := by
  cases n with
  | zero => rfl
  | succ n => rw [serialWalk, if_pos h]

/-- Inside a walk one request is made, and the walk goes on from what it gives. -/
theorem serialWalk_succ {s u : State} (n : Nat) (hst : s.serial ≠ .opcode) (h : serialStep s = .next u) :
    serialWalk (n + 1) s = serialWalk n u := by
  rw [serialWalk, if_neg hst, h]

theorem serialWalk_succ_next {s t : State} {n : Nat} (hst : s.serial ≠ .opcode) (h : serialWalk (n + 1) s = .next t) :
    ∃ u, serialStep s = .next u ∧ serialWalk n u = .next t := by
  rw [serialWalk, if_neg hst] at h
  cases hs : serialStep s with
  | next u => exact ⟨u, rfl, by simpa only [hs] using h⟩
  | fault f => simp [hs] at h
  | refused r => simp [hs] at h

/-- As many requests as the rank says are enough. -/
theorem serialWalk_serial {n : Nat} {s t : State} (h : serialWalk n s = .next t) (hrank : s.serial.rank ≤ n) :
    t.serial = .opcode := by
  induction n generalizing s with
  | zero =>
    cases h
    by_contra hst
    exact absurd (SerialState.rank_pos hst) (Nat.not_lt.mpr hrank)
  | succ n ih =>
    by_cases hst : s.serial = .opcode
    · cases (serialWalk_opcode hst (n + 1)).symm.trans h
      exact hst
    · obtain ⟨u, hs, hrest⟩ := serialWalk_succ_next hst h
      have hlower := serialStep_rank hs hst
      exact ih hrest (by omega)

/-- Settles O48: no state has a rank above five. -/
theorem byteSerialWalkReturnsToOpcode : Obligations.ByteSerialWalkReturnsToOpcode := by
  unfold Obligations.ByteSerialWalkReturnsToOpcode
  exact fun s _ h => serialWalk_serial h s.serial.rank_le

/-! ## What is left of a walk, as a fetch -/

@[simp] theorem State.goto_goto (s : State) (st st' : SerialState) : (s.goto st).goto st' = s.goto st' := rfl

@[simp] theorem State.goto_emit (s : State) (st : SerialState) (r : DecodeResult) : (s.goto st).emit r = s.emit r := rfl

/-- In `S_OPCODE` to emit is to answer. -/
theorem State.emit_eq_answer {s : State} (h : s.serial = .opcode) (r : DecodeResult) : s.emit r = s.answer r :=
  State.eq_of_fields rfl rfl rfl rfl rfl h.symm rfl

/-- A walk that has emitted is over. -/
theorem serialWalk_emit {s : State} (h : s.serial = .opcode) (n : Nat) (r : DecodeResult) :
    serialWalk n (s.emit r) = .next (s.answer r) := by
  rw [serialWalk_opcode rfl, s.emit_eq_answer h]

section
variable {s : State} (h : s.Boundary) (hopen : s.eos = false)
include h hopen

/-- A walk that awaits a byte is a `fetch8`: if, with a byte in hand, it goes on as `g` does, then it ends as `fetch8` and then `g`. -/
theorem serialWalk_fetch8 {n : Nat} {st : SerialState} {g : Byte → State → Walk Instruction} (hst : st ≠ .opcode)
    (hnext : ∀ b, serialWalk n (serialByte b ((s.passed [b]).goto st)) = finish (g b (s.passed [b]))) :
    serialWalk (n + 1) (s.goto st) = finish ((fetch8 s).bind g) := by
  cases hread : s.src.read s.pos with
  | some b =>
    have hs : serialStep (s.goto st) = .next (serialByte b ((s.passed [b]).goto st)) :=
      serialStep_byte (s := s.goto st) h.used hopen hread
    rw [serialWalk_succ n hst hs, fetch8_byte h.used hopen hread, Walk.bind_ok]
    exact hnext b
  | none =>
    have hs : serialStep (s.goto st) = .next (serialEnd (s.goto st).ended) :=
      serialStep_atEnd (s := s.goto st) h.used (.inr hread)
    rw [serialWalk_succ n hst hs, serialEnd_eq, if_neg (show (s.goto st).ended.serial ≠ .opcode from hst),
      fetch8_missing h.used (.inr hread), Walk.bind_fail, finish_fail]
    exact serialWalk_emit (s := s.ended) h.serial n _

/-! ## Immediates (`S_IMM_LO`, `S_IMM_HI`) -/

theorem serialWalk_immHi (n : Nat) (l : ImmLatch) (lo : Byte) :
    serialWalk (n + 1) (s.goto (.immHi l lo)) =
      finish ((fetch8 s).bind fun hi t => .ok (l.descriptor (concatBytes hi lo)) t) :=
  serialWalk_fetch8 h hopen (by simp) fun b => serialWalk_emit (s := s.passed [b]) h.serial n _

/-- From `S_IMM_LO` the walk fetches the immediate and emits the descriptor. -/
theorem serialWalk_immLo (n : Nat) (l : ImmLatch) :
    serialWalk (n + 2) (s.goto (.immLo l)) =
      finish ((fetchWidened (fun b => l.byteValue b) l.wide s).bind fun v t => .ok (l.descriptor v) t) := by
  cases hwide : l.wide with
  | true =>
    have hfetch : (fetchWidened (fun b => l.byteValue b) true s).bind (fun v t => .ok (l.descriptor v) t) =
        (fetch8 s).bind fun lo s => (fetch8 s).bind fun hi t => .ok (l.descriptor (concatBytes hi lo)) t := by
      simp [fetchWidened, fetch16, Walk.bind_assoc]
    rw [hfetch]
    refine serialWalk_fetch8 h hopen (by simp) fun lo => ?_
    simp only [serialByte, State.goto_serial, hwide, if_true, State.goto_goto]
    exact serialWalk_immHi (s := s.passed [lo]) ⟨rfl, h.serial⟩ hopen n l lo
  | false =>
    have hfetch : (fetchWidened (fun b => l.byteValue b) false s).bind (fun v t => .ok (l.descriptor v) t) =
        (fetch8 s).bind fun b t => .ok (l.descriptor (l.byteValue b)) t := by
      simp [fetchWidened, Walk.bind_assoc]
    rw [hfetch]
    refine serialWalk_fetch8 h hopen (by simp) fun b => ?_
    simp only [serialByte, State.goto_serial, hwide, Bool.false_eq_true, if_false, State.goto_emit]
    exact serialWalk_emit (s := s.passed [b]) h.serial (n + 1) _

end

/-! ## Displacements (`S_DISP_LO`, `S_DISP_HI`) -/

/-- What the pseudocode does once the displacement is finished (R191, R192, R210), from the latches of R32. -/
def afterDisp (m : ModrmLatch) (disp : Displacement) (s : State) : Walk Instruction :=
  match m.kind with
  | .arith o d w => .ok (rmRegDescriptor .addSubCmpRegMemWithReg (.arith o) m.opcode d w m.mod m.reg m.rm disp m.start) s
  | .mov d w => .ok (rmRegDescriptor .movRegMemToFromReg .mov m.opcode d w m.mod m.reg m.rm disp m.start) s
  | .imm sx w =>
    match selectOp m.reg with
    | none => unsupported s
    | some o => (fetchWidened (fun b => if sx then sext16 b else zext16 b) (wideImmRm sx w) s).bind fun v s =>
        .ok (immRmDescriptor o m.opcode sx w m.mod m.reg m.rm disp v m.start) s

/-- Reporting the last byte at a boundary (R253). -/
theorem finish_unsupported {s : State} (h : s.used = 8) :
    finish (unsupported s) = .next (s.answer (.fail (.unsupportedEncoding (s.pos - 1) s.cur))) := by
  have hused : { s with used := 8 } = s := State.eq_of_fields rfl rfl h.symm rfl rfl rfl rfl
  rw [unsupported, finish_fail, hused]

section
variable {s : State} (h : s.Boundary) (hopen : s.eos = false)
include h hopen

theorem serialWalk_serialDisp (n : Nat) (m : ModrmLatch) (disp : Displacement) (st : SerialState) :
    serialWalk (n + 2) (serialDisp m disp (s.goto st)) = finish (afterDisp m disp s) := by
  unfold serialDisp afterDisp
  cases m.kind with
  | arith | mov => exact serialWalk_emit h.serial (n + 2) _
  | imm sx w =>
    cases hsel : selectOp m.reg with
    | none =>
      rw [finish_unsupported h.used]
      exact serialWalk_emit h.serial (n + 2) _
    | some o => exact serialWalk_immLo h hopen n (.rm m o sx w disp)

theorem serialWalk_dispHi (n : Nat) (m : ModrmLatch) (lo : Byte) :
    serialWalk (n + 3) (s.goto (.dispHi m lo)) =
      finish ((fetch8 s).bind fun hi t => afterDisp m (dispOfWord m.mod (concatBytes hi lo)) t) :=
  serialWalk_fetch8 h hopen (by simp) fun b => serialWalk_serialDisp (s := s.passed [b]) ⟨rfl, h.serial⟩ hopen n m _ _

/-- With a displacement of two bytes, `S_DISP_LO` and `S_DISP_HI` fetch its word. -/
theorem serialWalk_dispLo_word (n : Nat) {m : ModrmLatch} (hm : ndisp m.mod m.rm = 2) :
    serialWalk (n + 4) (s.goto (.dispLo m)) =
      finish ((fetch16 s).bind fun v t => afterDisp m (dispOfWord m.mod v) t) := by
  have hfetch : (fetch16 s).bind (fun v t => afterDisp m (dispOfWord m.mod v) t) =
      (fetch8 s).bind fun lo s => (fetch8 s).bind fun hi t => afterDisp m (dispOfWord m.mod (concatBytes hi lo)) t := by
    simp [fetch16, Walk.bind_assoc]
  rw [hfetch]
  refine serialWalk_fetch8 h hopen (by simp) fun lo => ?_
  simp only [serialByte, State.goto_serial, hm, if_true, State.goto_goto]
  exact serialWalk_dispHi (s := s.passed [lo]) ⟨rfl, h.serial⟩ hopen n m lo

/-- With a displacement of one byte, `S_DISP_LO` fetches it. -/
theorem serialWalk_dispLo_byte (n : Nat) {m : ModrmLatch} (hm : ndisp m.mod m.rm ≠ 2) :
    serialWalk (n + 3) (s.goto (.dispLo m)) = finish ((fetch8 s).bind fun b t => afterDisp m (disp8 b) t) := by
  refine serialWalk_fetch8 h hopen (by simp) fun b => ?_
  simp only [serialByte, State.goto_serial, hm, if_false]
  exact serialWalk_serialDisp (s := s.passed [b]) ⟨rfl, h.serial⟩ hopen n m _ _

/-- Where there is a displacement, the walk from `S_DISP_LO` is `rm_operand` (R142 to R147) and what comes after it. -/
theorem serialWalk_dispLo (n : Nat) {m : ModrmLatch} (hm : 0 < ndisp m.mod m.rm) :
    serialWalk (n + 4) (s.goto (.dispLo m)) = finish ((fetchDisp m.mod m.rm s).bind (afterDisp m)) := by
  rcases mod_cases m.mod with hmod | hmod | hmod | hmod
  · have hrm : m.rm = 0b110 := by
      by_contra hrm
      rw [ndisp, if_pos hmod, if_neg hrm] at hm
      exact lt_irrefl 0 hm
    rw [serialWalk_dispLo_word h hopen n (by simp [ndisp, hmod, hrm])]
    simp [fetchDisp, hmod, hrm, Walk.bind_assoc, dispOfWord]
  · rw [serialWalk_dispLo_byte h hopen (n + 1) (by simp [ndisp, hmod])]
    simp [fetchDisp, hmod, Walk.bind_assoc]
  · rw [serialWalk_dispLo_word h hopen n (by simp [ndisp, hmod])]
    simp [fetchDisp, hmod, Walk.bind_assoc, dispOfWord]
  · simp [ndisp, hmod] at hm

end

/-- Where R96 gives no displacement, none is fetched. -/
theorem fetchDisp_none {mod : BitVec 2} {rm : BitVec 3} (h : ndisp mod rm = 0) (s : State) : fetchDisp mod rm s = .ok .none s := by
  rcases mod_cases mod with rfl | rfl | rfl | rfl
  · have hrm : rm ≠ 0b110 := by
      rintro rfl
      cases h
    simp only [fetchDisp, if_neg hrm, if_true]
    rfl
  · cases h
  · cases h
  · rfl

/-! ## The ModRM byte (`S_MODRM`) -/

/-- What the pseudocode does once the ModRM byte has been read (R191, R192, R210). -/
def afterModrm (m : ModrmLatch) (s : State) : Walk Instruction :=
  if selectorFails m.kind m.reg then unsupported s else (fetchDisp m.mod m.rm s).bind (afterDisp m)

theorem afterModrm_ofByte (start : Nat) (op : Byte) (kind : RmKind) (b : Byte) (s : State) :
    afterModrm (.ofByte start op kind b) s =
      if selectorFails kind (regOf b) then unsupported s
      else (fetchDisp (modOf b) (rmOf b) s).bind (afterDisp (.ofByte start op kind b)) := rfl

section
variable {s : State} (h : s.Boundary) (hopen : s.eos = false)
include h hopen

theorem readModrm_eq_fetch8 : readModrm s = (fetch8 s).bind fun b t => .ok (modOf b, regOf b, rmOf b) t := by
  rcases readModrm_bytesAt (n := 1) h.used hopen le_rfl with ⟨m, hm, hf⟩ | ⟨hnil, hf⟩
  · have hread : s.src.read s.pos = some m := by
      have hb := s.src.read_bytesAt s.pos 1 0 (by simp [hm])
      simpa [hm] using hb
    rw [hf, fetch8_byte h.used hopen hread, Walk.bind_ok]
  · have hread : s.src.read s.pos = none := by
      have hb := s.src.read_after_bytesAt s.pos 1 (by simp [hnil])
      simpa [hnil] using hb
    rw [hf, fetch8_missing h.used (.inr hread), Walk.bind_fail]

theorem serialWalk_serialModrm (n start : Nat) (op : Byte) (kind : RmKind) (b : Byte) (hb : s.cur = b) (st : SerialState) :
    serialWalk (n + 4) (serialModrm start op kind b (s.goto st)) = finish (afterModrm (.ofByte start op kind b) s) := by
  rw [serialModrm_eq, afterModrm_ofByte]
  by_cases hsel : selectorFails kind (regOf b) = true
  · rw [if_pos hsel, if_pos hsel, finish_unsupported h.used, hb]
    exact serialWalk_emit h.serial (n + 4) _
  · rw [if_neg hsel, if_neg hsel]
    by_cases hdisp : 0 < ndisp (modOf b) (rmOf b)
    · rw [if_pos hdisp]
      exact serialWalk_dispLo h hopen n (m := .ofByte start op kind b) hdisp
    · rw [if_neg hdisp, fetchDisp_none (Nat.eq_zero_of_not_pos hdisp), Walk.bind_ok]
      exact serialWalk_serialDisp h hopen (n + 2) _ _ st

/-- From `S_MODRM` the walk is `read_modrm` (R140) and what comes after it. -/
theorem serialWalk_modrm (n start : Nat) (op : Byte) (kind : RmKind) :
    serialWalk (n + 5) (s.goto (.modrm start op kind)) =
      finish ((readModrm s).bind fun m t => afterModrm ⟨start, op, kind, m.1, m.2.1, m.2.2⟩ t) := by
  rw [readModrm_eq_fetch8 h hopen, Walk.bind_assoc]
  exact serialWalk_fetch8 h hopen (by simp) fun b =>
    serialWalk_serialModrm (s := s.passed [b]) ⟨rfl, h.serial⟩ hopen n start op kind b rfl _

end

theorem walkImmRm_eq_afterModrm (start : Nat) (op : Byte) (sx w : Bool) (s : State) :
    walkImmRm start op sx w s = (readModrm s).bind fun m t => afterModrm ⟨start, op, .imm sx w, m.1, m.2.1, m.2.2⟩ t := by
  unfold walkImmRm
  congr 1
  funext m t
  cases hsel : selectOp m.2.1 with
  | none => simp [afterModrm, selectorFails, hsel]
  | some o =>
    simp only [afterModrm, selectorFails, hsel, Option.isNone_some, Bool.false_eq_true, if_false]
    congr 1
    funext disp u
    simp only [afterDisp, hsel]
    exact (fetchWidened_bind_ok sx w _ u).symm

/-! ## A whole walk -/

theorem serialDecode_of_serialStep {s u : State} (h : serialStep s = .next u) : serialDecode s = serialWalk 5 u := by
  rw [serialDecode, h]
  rfl

section
variable {s : State} {op : Byte} (h : s.Ready [op])
include h

/-- The first request of a walk latches what the opcode byte gives. -/
theorem serialDecode_ready : serialDecode s = serialWalk 5 (serialOpcode op (s.passed [op])) := by
  have hs := serialStep_byte h.boundary.used h.open_ h.holds.head
  have hrow : serialByte op (s.passed [op]) = serialOpcode op (s.passed [op]) := by
    have hserial : (s.passed [op]).serial = .opcode := h.boundary.serial
    rw [serialByte, hserial]
  rw [serialDecode_of_serialStep hs, hrow]

/-- Outside the jump table, the walk goes on as `classify()` does (R123). -/
theorem serialWalk_afterOpcode (hj : ∀ j, classify op ≠ .jump j) :
    serialWalk 5 (serialOpcode op (s.passed [op])) = finish (afterOpcode s.pos op (s.passed [op]) (classify op)) := by
  have hB : (s.passed [op]).Boundary := ⟨rfl, h.boundary.serial⟩
  have hopen : (s.passed [op]).eos = false := h.open_
  unfold serialOpcode
  cases hk : classify op with
  | jump j => exact absurd hk (hj j)
  | arithRm o => exact serialWalk_modrm hB hopen 0 s.pos op (.arith o (bitOf op 1) (bitOf op 0))
  | movRm => exact serialWalk_modrm hB hopen 0 s.pos op (.mov (bitOf op 1) (bitOf op 0))
  | immRm =>
    rw [afterOpcode, walkImmRm_eq_afterModrm]
    exact serialWalk_modrm hB hopen 0 s.pos op (.imm (bitOf op 1) (bitOf op 0))
  | arithAcc o => exact serialWalk_immLo hB hopen 3 (.acc s.pos op o (bitOf op 0))
  | movImm => exact serialWalk_immLo hB hopen 3 (.reg s.pos op (bitOf op 3) (rmOf op))
  | movImmRmUnimplemented | movAccMemUnimplemented | other =>
    rw [afterOpcode, finish_unsupported hB.used]
    exact serialWalk_emit hB.serial 5 _

/-- A jump of the table awaits its offset byte (R161). -/
theorem serialWalk_jump {j : JumpName} (hk : classify op = .jump j) :
    serialWalk 5 (serialOpcode op (s.passed [op])) = finish (walkJump s.pos op j (s.receive (.byte op))) := by
  rw [walkJump, take8_fresh op h.open_, Walk.bind_ok, serialOpcode, hk]
  exact serialWalk_fetch8 (s := s.passed [op]) ⟨rfl, h.boundary.serial⟩ h.open_ (by simp) fun b =>
    serialWalk_emit (s := (s.passed [op]).passed [b]) h.boundary.serial 4 _

theorem serialDecode_eq_step : serialDecode s = step s := by
  rw [serialDecode_ready h]
  cases hl : lookupJump op with
  | some j =>
    have hk := (lookupJump_eq op j).mp hl
    rw [serialWalk_jump h hk, finish_walkJump_eq_step h hk]
  | none =>
    have hj := lookupJump_none op hl
    rw [serialWalk_afterOpcode h hj, finish_afterOpcode_eq_step h hj]

end

/-- Settles O47: by what the first request finds: a fault, the clean end, or an opcode byte, after which the machine fetches as the
pseudocode does, which is the step. -/
theorem byteSerialWalkEqualsStep : Obligations.ByteSerialWalkEqualsStep := by
  unfold Obligations.ByteSerialWalkEqualsStep
  intro s hserial
  rcases openRequest_cases s with ⟨hst, -⟩ | ⟨-, hused, ho⟩ | ⟨hB, hend, -⟩ | ⟨hB, hopen, op, hop, -⟩
  · exact absurd hserial hst
  · rw [serialDecode, serialStep_fault hused, step_fault ho]
  · rw [serialDecode_of_serialStep (serialStep_atEnd hB.used hend), step_noByte hB hend, serialEnd_eq,
      if_pos (show s.ended.serial = .opcode from hserial)]
    exact serialWalk_emit (s := s.ended) hserial _ _
  · exact serialDecode_eq_step ⟨hB, hopen, State.holds_singleton hop⟩

end Sys2Proof.Machine
end

section
/-! PROOFS. The caller's runs (R19, R285): under `resync` a run consumes the whole stream, and one under `abort` shows a beginning of
it. -/

namespace Sys2Proof.Machine

/-! ## A run under `resync` ends at the end of the stream -/

/-- The run has ended as R19 has it: the end was seen, and the last answer is the clean end or a truncation at `pos`. -/
structure State.AtRunEnd (t : State) : Prop where
  eos : t.eos = true
  last : t.results.getLast? = some (.fail .endOfStream) ∨ t.results.getLast? = some (.fail (.malformedStream t.pos))

/-- Under `resync` the caller stops exactly at the end of the stream, and every other answer has moved `pos` on. -/
theorem Answered.resync {size : Nat} {s t : State} (ha : Answered size s t) :
    (t.callerDone .resync = true ∧ t.AtRunEnd) ∨ (t.callerDone .resync = false ∧ s.pos < t.pos) := by
  have hlast (u : State) (r : DecodeResult) : (u.answer r).results.getLast? = some r := List.getLast?_concat
  cases ha with
  | atEnd => exact .inl ⟨State.callerDone_answer .., rfl, .inl (hlast _ _)⟩
  | cut => exact .inl ⟨State.callerDone_answer .., rfl, .inr (hlast _ _)⟩
  | decoded bs d _ hl h2 => exact .inr ⟨State.callerDone_answer .., by simp only [State.answer_pos, State.passed_pos]; omega⟩
  | failedAtOpcode | failedAtModrm => exact .inr ⟨State.callerDone_answer .., Nat.lt_add_of_pos_right (Nat.succ_pos _)⟩

/-- One request more than there are bytes left is enough, by induction on the requests: each moves `pos` on or ends the run. -/
theorem driver_resync_atRunEnd {n : Nat} {s : State} (h : s.Inv) (hB : s.Boundary) (hn : s.src.size + 1 - s.pos ≤ n) :
    ∃ t, driver .resync n s = .next t ∧ t.Inv ∧ t.src = s.src ∧ t.AtRunEnd := by
  induction n generalizing s with
  | zero =>
    have hpos := h.posLe
    omega
  | succ n ih =>
    obtain ⟨u, hs⟩ := step_next_of_boundary hB
    obtain ⟨-, size, -, ha⟩ := step_answered hs
    have hu : u.Inv := ha.inv h
    have hsrc : u.src = s.src := (ha.frame hB).src
    rw [driver_succ _ n hs]
    rcases ha.resync with ⟨hdone, hend⟩ | ⟨hdone, hmoved⟩
    · exact ⟨u, by rw [hdone, if_pos rfl], hu, hsrc, hend⟩
    · obtain ⟨t, hrun, ht, htsrc, hend⟩ := ih hu (ha.boundary hB) (by rw [hsrc]; omega)
      exact ⟨t, by rw [hdone, if_neg Bool.false_ne_true, hrun], ht, htsrc.trans hsrc, hend⟩

/-- Settles O49: the run ends with the end seen, which by the cursor invariants is at the stream's length. -/
theorem resyncRunConsumesTheWholeStream : Obligations.ResyncRunConsumesTheWholeStream := by
  unfold Obligations.ResyncRunConsumesTheWholeStream
  intro s h hB
  obtain ⟨t, hrun, ht, hsrc, heos, hlast⟩ := driver_resync_atRunEnd h hB le_rfl
  have hpos : t.pos = s.src.size := hsrc ▸ ht.eosAtEnd heos
  exact ⟨t, hrun, heos, hpos, hsrc, hpos ▸ hlast⟩

/-! ## The two policies (R11) -/

/-- A caller that resynchronises stops only where one that aborts does. -/
theorem callerStops_abort {r : DecodeResult} (h : callerStops .resync r = true) : callerStops .abort r = true := by
  cases r with
  | ok i => cases h
  | fail o =>
    cases o with
    | endOfStream | malformedStream => rfl
    | unsupportedEncoding => cases h

theorem State.callerDone_abort {s : State} (h : s.callerDone .resync = true) : s.callerDone .abort = true := by
  unfold State.callerDone at h ⊢
  cases hlast : s.results.getLast? with
  | none => simp [hlast] at h
  | some r =>
    simp only [hlast] at h ⊢
    exact callerStops_abort h

/-- A run only adds answers. -/
theorem results_prefix_of_driver {policy : OnUnsupported} {n : Nat} {s t : State} (h : driver policy n s = .next t) :
    s.results <+: t.results := by
  induction n generalizing s with
  | zero =>
    cases h
    exact List.prefix_rfl
  | succ n ih =>
    obtain ⟨u, hs⟩ := driver_succ_next h
    obtain ⟨hB, size, -, ha⟩ := step_answered hs
    obtain ⟨r, hr⟩ := (ha.frame hB).results
    have hfirst : s.results <+: u.results := ⟨[r], hr.symm⟩
    rw [driver_succ _ n hs] at h
    by_cases hdone : u.callerDone policy = true
    · rw [if_pos hdone] at h
      cases h
      exact hfirst
    · rw [if_neg hdone] at h
      exact hfirst.trans (ih h)

/-- Settles O50: by induction on the requests: the two runs are one until the aborting caller stops, and the other's later answers
only follow. -/
theorem abortedRunIsAnInitialPartOfAResynchronisedRun : Obligations.AbortedRunIsAnInitialPartOfAResynchronisedRun := by
  unfold Obligations.AbortedRunIsAnInitialPartOfAResynchronisedRun
  intro n
  induction n with
  | zero =>
    intro s a b ha hb
    cases ha
    cases hb
    exact List.prefix_rfl
  | succ n ih =>
    intro s a b ha hb
    obtain ⟨u, hs⟩ := driver_succ_next ha
    rw [driver_succ _ n hs] at ha hb
    by_cases habort : u.callerDone .abort = true
    · rw [if_pos habort] at ha
      cases ha
      by_cases hresync : a.callerDone .resync = true
      · rw [if_pos hresync] at hb
        cases hb
        exact List.prefix_rfl
      · rw [if_neg hresync] at hb
        exact results_prefix_of_driver hb
    · rw [if_neg habort] at ha
      rw [if_neg (mt State.callerDone_abort habort)] at hb
      exact ih u a b ha hb

/-! ## The four scenarios -/

/-- Settles O54: each run by evaluation; its last answer is the clean end, or the unsupported byte under `abort`. -/
theorem sourceScenariosRender : Obligations.SourceScenariosRender := by
  unfold Obligations.SourceScenariosRender
  simp only [List.forall_mem_cons]
  exact ⟨⟨_, rfl, by decide⟩, ⟨_, rfl, by decide⟩, ⟨_, rfl, by decide⟩, ⟨_, rfl, by decide⟩, fun _ h => absurd h List.not_mem_nil⟩

end Sys2Proof.Machine
end

section
/-! PROOFS. Bits, bytes and ports: `advance_byte` (R54), the order of the bits that `take` consumes (R55), the widening functions
(R14), and the ports (R46, R73). -/

namespace Sys2Proof.Machine

/-! ## The cursor -/

/-- Settles O44: the four cases of `advance_byte`, and what is received written out. -/
theorem advanceBytePullsTheNextByte : Obligations.AdvanceBytePullsTheNextByte := by
  unfold Obligations.AdvanceBytePullsTheNextByte
  exact fun s => ⟨advanceByte_fault, advanceByte_eos, fun hused hopen _ => advanceByte_byte hused hopen, advanceByte_atEnd⟩

/-- A field of `a + b` bits is its top `a` bits above its low `b` bits. -/
theorem extractLsb'_add_toNat {n : Nat} (c : BitVec n) (k a b : Nat) :
    (c.extractLsb' k (a + b)).toNat = (c.extractLsb' (k + b) a).toNat * 2 ^ b + (c.extractLsb' k b).toNat := by
  simp only [BitVec.extractLsb'_toNat, Nat.shiftRight_add]
  rw [Nat.add_comm a b, Nat.pow_add, Nat.mod_mul, Nat.shiftRight_eq_div_pow _ b, Nat.mul_comm, Nat.add_comm]

/-- Settles O43: both takes read one byte at adjoining places, of which the field read at once is made. -/
theorem takingTwiceIsTakingOnce : Obligations.TakingTwiceIsTakingOnce := by
  unfold Obligations.TakingTwiceIsTakingOnce
  intro a b s t u x y hfirst hsecond
  obtain ⟨⟨ha, -, -⟩, hopen, hpos, rfl, rfl⟩ := take_inv hfirst
  obtain ⟨⟨hb, -, hfit⟩, -, -, rfl, rfl⟩ := take_inv hsecond
  have hall : s.used + a + b ≤ 8 := hfit
  have htake := take_ok (n := a + b) (s := s) ⟨by omega, by omega, by omega⟩ hopen hpos
  have hlow : 8 - s.used - (a + b) = 8 - (s.used + a) - b := by omega
  have hhigh : 8 - s.used - a = 8 - (s.used + a) - b + b := by omega
  rw [← Nat.add_assoc, hlow] at htake
  rw [hhigh]
  exact ⟨_, htake, extractLsb'_add_toNat s.cur _ a b⟩

/-! ## Widening -/

theorem zext16_toNat (b : Byte) : (zext16 b).toNat = b.toNat :=
  BitVec.toNat_setWidth_of_le (by decide)

theorem signed8_bounds (b : Byte) : -128 ≤ signed8 b ∧ signed8 b ≤ 127 := by
  have hb := b.isLt
  rw [signed8]
  split <;> omega

/-- The value of a word is its signed value, or that and 65536 (R14). -/
theorem toNat_of_signed16 (v : Word) : (v.toNat : Int) = if signed16 v < 0 then signed16 v + 65536 else signed16 v := by
  have hv := v.isLt
  rw [signed16]
  split <;> split <;> omega

/-- Sign extension fills the high byte with the sign bit: a byte of 128 or more gains 0xFF00 (R14). -/
theorem sext16_toNat (b : Byte) : (sext16 b).toNat = if b.toNat < 128 then b.toNat else 0xFF00 + b.toNat := by
  have hb := b.isLt
  have hvalue := toNat_of_signed16 (sext16 b)
  rw [signed16_sext16, signed8] at hvalue
  split at hvalue <;> split at hvalue <;> split <;> omega

/-- Settles O40: one lemma per function. -/
theorem wideningFollowsItsDefinition : Obligations.WideningFollowsItsDefinition := by
  unfold Obligations.WideningFollowsItsDefinition
  exact fun hi lo => ⟨zext16_toNat lo, sext16_toNat lo, signed16_sext16 lo, (signed8_bounds lo).1, (signed8_bounds lo).2,
    concatBytes_toNat hi lo⟩

/-! ## The ports -/

/-- Settles O56: the signals of each answer, and of each of the source's two. -/
theorem portsCarryTheAnswer : Obligations.PortsCarryTheAnswer := by
  unfold Obligations.PortsCarryTheAnswer
  refine ⟨fun _ => rfl, rfl, fun _ _ => rfl, fun _ => rfl, fun a => ?_⟩
  cases a with
  | byte b => rfl
  | atEnd => rfl

end Sys2Proof.Machine
end
